-- ==== Sys2Proof/Word.lean ====
section
/-! DEFINITION. The word types of the hardware: everything the spec treats as bits is a `BitVec` of the stated
width (00_scope.md R8, `XLEN = 32` of R7). -/

namespace Sys2Proof

/-- A 32-bit word: a register, an address, an instruction word (R13, R14). -/
abbrev Word := BitVec 32

/-- An 8-bit byte, the unit of memory (R13, R44). -/
abbrev Byte := BitVec 8

/-- A 5-bit register field: the value `n` names `x[n]`, or the CP0 register `n` (R22, R75). -/
abbrev RegIdx := BitVec 5

end Sys2Proof
end

