-- ==== Sys2Proof/Syntax.lean ====
section
/-! DEFINITION. The instructions, as syntax: one constructor for each row of spec/opcode_table.json, with the fields of
30_encoding.md R72 that the row lists (R87), in the order of the assembler's operands (R85). The coprocessor-unusable
groups (R82) have no operand: whatever their other bits are, they mean the same. -/

namespace Sys2Proof

/-- One instruction. The `code` of SYSCALL, BREAK and the register traps and the `stype` of SYNC are kept in the
decoded form and ignored by execution (R72, R158). -/
inductive Instr where
  -- arithmetic and logic, register form (40_alu.md R90..R99)
  | add (rd rs rt : RegIdx)
  | addu (rd rs rt : RegIdx)
  | sub (rd rs rt : RegIdx)
  | subu (rd rs rt : RegIdx)
  | and (rd rs rt : RegIdx)
  | or (rd rs rt : RegIdx)
  | xor (rd rs rt : RegIdx)
  | nor (rd rs rt : RegIdx)
  | slt (rd rs rt : RegIdx)
  | sltu (rd rs rt : RegIdx)
  -- arithmetic and logic, immediate form (R100..R107)
  | addi (rt rs : RegIdx) (imm : BitVec 16)
  | addiu (rt rs : RegIdx) (imm : BitVec 16)
  | slti (rt rs : RegIdx) (imm : BitVec 16)
  | sltiu (rt rs : RegIdx) (imm : BitVec 16)
  | andi (rt rs : RegIdx) (imm : BitVec 16)
  | ori (rt rs : RegIdx) (imm : BitVec 16)
  | xori (rt rs : RegIdx) (imm : BitVec 16)
  | lui (rt : RegIdx) (imm : BitVec 16)
  -- shifts (R108..R113)
  | sll (rd rt : RegIdx) (sa : BitVec 5)
  | srl (rd rt : RegIdx) (sa : BitVec 5)
  | sra (rd rt : RegIdx) (sa : BitVec 5)
  | sllv (rd rt rs : RegIdx)
  | srlv (rd rt rs : RegIdx)
  | srav (rd rt rs : RegIdx)
  -- multiply, divide, HI and LO (R114..R121)
  | mult (rs rt : RegIdx)
  | multu (rs rt : RegIdx)
  | div (rs rt : RegIdx)
  | divu (rs rt : RegIdx)
  | mfhi (rd : RegIdx)
  | mflo (rd : RegIdx)
  | mthi (rs : RegIdx)
  | mtlo (rs : RegIdx)
  -- jumps and branches (41_control.md R126..R137)
  | j (target : BitVec 26)
  | jal (target : BitVec 26)
  | jr (rs : RegIdx)
  | jalr (rd rs : RegIdx)
  | beq (rs rt : RegIdx) (imm : BitVec 16)
  | bne (rs rt : RegIdx) (imm : BitVec 16)
  | blez (rs : RegIdx) (imm : BitVec 16)
  | bgtz (rs : RegIdx) (imm : BitVec 16)
  | bltz (rs : RegIdx) (imm : BitVec 16)
  | bgez (rs : RegIdx) (imm : BitVec 16)
  | bltzal (rs : RegIdx) (imm : BitVec 16)
  | bgezal (rs : RegIdx) (imm : BitVec 16)
  -- loads and stores (42_loadstore.md R141..R156)
  | lb (rt : RegIdx) (imm : BitVec 16) (rs : RegIdx)
  | lbu (rt : RegIdx) (imm : BitVec 16) (rs : RegIdx)
  | lh (rt : RegIdx) (imm : BitVec 16) (rs : RegIdx)
  | lhu (rt : RegIdx) (imm : BitVec 16) (rs : RegIdx)
  | lw (rt : RegIdx) (imm : BitVec 16) (rs : RegIdx)
  | lwl (rt : RegIdx) (imm : BitVec 16) (rs : RegIdx)
  | lwr (rt : RegIdx) (imm : BitVec 16) (rs : RegIdx)
  | sb (rt : RegIdx) (imm : BitVec 16) (rs : RegIdx)
  | sh (rt : RegIdx) (imm : BitVec 16) (rs : RegIdx)
  | sw (rt : RegIdx) (imm : BitVec 16) (rs : RegIdx)
  | swl (rt : RegIdx) (imm : BitVec 16) (rs : RegIdx)
  | swr (rt : RegIdx) (imm : BitVec 16) (rs : RegIdx)
  | ll (rt : RegIdx) (imm : BitVec 16) (rs : RegIdx)
  | sc (rt : RegIdx) (imm : BitVec 16) (rs : RegIdx)
  | sync (stype : BitVec 5)
  -- system calls, breakpoints, traps (43_system_cop.md R158..R171)
  | syscall (code : BitVec 20)
  | brk (code : BitVec 20)
  | tge (rs rt : RegIdx) (code : BitVec 10)
  | tgeu (rs rt : RegIdx) (code : BitVec 10)
  | tlt (rs rt : RegIdx) (code : BitVec 10)
  | tltu (rs rt : RegIdx) (code : BitVec 10)
  | teq (rs rt : RegIdx) (code : BitVec 10)
  | tne (rs rt : RegIdx) (code : BitVec 10)
  | tgei (rs : RegIdx) (imm : BitVec 16)
  | tgeiu (rs : RegIdx) (imm : BitVec 16)
  | tlti (rs : RegIdx) (imm : BitVec 16)
  | tltiu (rs : RegIdx) (imm : BitVec 16)
  | teqi (rs : RegIdx) (imm : BitVec 16)
  | tnei (rs : RegIdx) (imm : BitVec 16)
  -- coprocessor 0 (R172..R174)
  | mfc0 (rt rd : RegIdx)
  | mtc0 (rt rd : RegIdx)
  | rfe
  -- coprocessors 1 to 3, unusable (R175)
  | cop1
  | cop2
  | cop3
  | lwc1
  | lwc2
  | lwc3
  | ldc1
  | ldc2
  | ldc3
  | swc1
  | swc2
  | swc3
  | sdc1
  | sdc2
  | sdc3
  deriving DecidableEq, Repr

end Sys2Proof
end

