-- ==== Sys2Proof/WellFormed.lean ====
section
/-! DEFINITION. Well-formed instructions. Every term of `Instr` has an encoding (its fields have exactly the widths of
30_encoding.md R72); what a term can still get wrong is to be one of the encodings to which the spec gives no meaning
on sight (92_eei_decisions.md D7). They decode all the same, and executing one ends in the fault of its check. -/

namespace Sys2Proof

/-- The CP0 numbers that are implemented: BadVAddr 8, Status 12, Cause 13, EPC 14, PRId 15 (R22, R28). -/
def implementedCp0 (n : RegIdx) : Bool :=
  n == 8#5 || n == 12#5 || n == 13#5 || n == 14#5 || n == 15#5

/-- The checks: JALR with rs = rd (R129), BLTZAL and BGEZAL with rs = 31 (R136, R137), MFC0 and MTC0 of an
unimplemented CP0 number (R28). DESIGN CHOICE (log 29): the spec has no notion of an ill-formed instruction. -/
def Instr.wellFormed : Instr → Bool
  | .jalr rd rs => rs != rd
  | .bltzal rs _ => rs != 31#5
  | .bgezal rs _ => rs != 31#5
  | .mfc0 _ rd => implementedCp0 rd
  | .mtc0 _ rd => implementedCp0 rd
  | _ => true

end Sys2Proof
end

