-- ==== Sys2Proof/Decode.lean ====
section
/-! DEFINITION. The decoder and the encoder, both written from the maps of 30_encoding.md (R71..R83). `decode` is
total on words and `decodeBytes` on bytes; what they refuse they refuse by name. -/

namespace Sys2Proof

/-! ## Fields (R72) -/

/-- `op`, bits 31:26. -/
def opOf (w : Word) : BitVec 6 := w.extractLsb' 26 6
/-- `rs`, bits 25:21. -/
def rsOf (w : Word) : RegIdx := w.extractLsb' 21 5
/-- `rt`, bits 20:16. -/
def rtOf (w : Word) : RegIdx := w.extractLsb' 16 5
/-- `rd`, bits 15:11. -/
def rdOf (w : Word) : RegIdx := w.extractLsb' 11 5
/-- `sa` and `stype`, bits 10:6. -/
def saOf (w : Word) : BitVec 5 := w.extractLsb' 6 5
/-- `funct`, bits 5:0. -/
def functOf (w : Word) : BitVec 6 := w.extractLsb' 0 6
/-- `imm`, bits 15:0. -/
def immOf (w : Word) : BitVec 16 := w.extractLsb' 0 16
/-- `target`, bits 25:0. -/
def targetOf (w : Word) : BitVec 26 := w.extractLsb' 0 26
/-- `code20`, bits 25:6. -/
def code20Of (w : Word) : BitVec 20 := w.extractLsb' 6 20
/-- `code10`, bits 15:6. -/
def code10Of (w : Word) : BitVec 10 := w.extractLsb' 6 10
/-- `co`, bit 25. -/
def coOf (w : Word) : BitVec 1 := w.extractLsb' 25 1

/-! ## Decoding -/

/-- What decoding answers: an instruction, or a refusal by name. `Unusable(z)` of R76 is the instruction of its row
(`Instr.cop1` .. `Instr.sdc3`). -/
inductive Decoded where
  | instr (i : Instr)
  /-- the word is `Reserved` (R76, R81) -/
  | reserved
  /-- fewer than the four bytes an instruction has (R71) -/
  | truncated
  deriving DecidableEq, Repr

/-- The SPECIAL map (R78). -/
def decodeSpecial (w : Word) : Decoded :=
  match functOf w with
  | 0x00#6 => .instr (.sll (rdOf w) (rtOf w) (saOf w))
  | 0x02#6 => .instr (.srl (rdOf w) (rtOf w) (saOf w))
  | 0x03#6 => .instr (.sra (rdOf w) (rtOf w) (saOf w))
  | 0x04#6 => .instr (.sllv (rdOf w) (rtOf w) (rsOf w))
  | 0x06#6 => .instr (.srlv (rdOf w) (rtOf w) (rsOf w))
  | 0x07#6 => .instr (.srav (rdOf w) (rtOf w) (rsOf w))
  | 0x08#6 => .instr (.jr (rsOf w))
  | 0x09#6 => .instr (.jalr (rdOf w) (rsOf w))
  | 0x0C#6 => .instr (.syscall (code20Of w))
  | 0x0D#6 => .instr (.brk (code20Of w))
  | 0x0F#6 => .instr (.sync (saOf w))
  | 0x10#6 => .instr (.mfhi (rdOf w))
  | 0x11#6 => .instr (.mthi (rsOf w))
  | 0x12#6 => .instr (.mflo (rdOf w))
  | 0x13#6 => .instr (.mtlo (rsOf w))
  | 0x18#6 => .instr (.mult (rsOf w) (rtOf w))
  | 0x19#6 => .instr (.multu (rsOf w) (rtOf w))
  | 0x1A#6 => .instr (.div (rsOf w) (rtOf w))
  | 0x1B#6 => .instr (.divu (rsOf w) (rtOf w))
  | 0x20#6 => .instr (.add (rdOf w) (rsOf w) (rtOf w))
  | 0x21#6 => .instr (.addu (rdOf w) (rsOf w) (rtOf w))
  | 0x22#6 => .instr (.sub (rdOf w) (rsOf w) (rtOf w))
  | 0x23#6 => .instr (.subu (rdOf w) (rsOf w) (rtOf w))
  | 0x24#6 => .instr (.and (rdOf w) (rsOf w) (rtOf w))
  | 0x25#6 => .instr (.or (rdOf w) (rsOf w) (rtOf w))
  | 0x26#6 => .instr (.xor (rdOf w) (rsOf w) (rtOf w))
  | 0x27#6 => .instr (.nor (rdOf w) (rsOf w) (rtOf w))
  | 0x2A#6 => .instr (.slt (rdOf w) (rsOf w) (rtOf w))
  | 0x2B#6 => .instr (.sltu (rdOf w) (rsOf w) (rtOf w))
  | 0x30#6 => .instr (.tge (rsOf w) (rtOf w) (code10Of w))
  | 0x31#6 => .instr (.tgeu (rsOf w) (rtOf w) (code10Of w))
  | 0x32#6 => .instr (.tlt (rsOf w) (rtOf w) (code10Of w))
  | 0x33#6 => .instr (.tltu (rsOf w) (rtOf w) (code10Of w))
  | 0x34#6 => .instr (.teq (rsOf w) (rtOf w) (code10Of w))
  | 0x36#6 => .instr (.tne (rsOf w) (rtOf w) (code10Of w))
  | _ => .reserved

/-- The REGIMM map (R79). -/
def decodeRegimm (w : Word) : Decoded :=
  match rtOf w with
  | 0x00#5 => .instr (.bltz (rsOf w) (immOf w))
  | 0x01#5 => .instr (.bgez (rsOf w) (immOf w))
  | 0x08#5 => .instr (.tgei (rsOf w) (immOf w))
  | 0x09#5 => .instr (.tgeiu (rsOf w) (immOf w))
  | 0x0A#5 => .instr (.tlti (rsOf w) (immOf w))
  | 0x0B#5 => .instr (.tltiu (rsOf w) (immOf w))
  | 0x0C#5 => .instr (.teqi (rsOf w) (immOf w))
  | 0x0E#5 => .instr (.tnei (rsOf w) (immOf w))
  | 0x10#5 => .instr (.bltzal (rsOf w) (immOf w))
  | 0x11#5 => .instr (.bgezal (rsOf w) (immOf w))
  | _ => .reserved

/-- The COP0 map (R80): with `co` = 0 by `rs`, with `co` = 1 by `funct`. -/
def decodeCop0 (w : Word) : Decoded :=
  match coOf w with
  | 0#1 =>
    match rsOf w with
    | 0x00#5 => .instr (.mfc0 (rtOf w) (rdOf w))
    | 0x04#5 => .instr (.mtc0 (rtOf w) (rdOf w))
    | _ => .reserved
  | _ =>
    match functOf w with
    | 0x10#6 => .instr .rfe
    | _ => .reserved

/-- `Decode(w)` (R76): the primary map (R77). -/
def decode (w : Word) : Decoded :=
  match opOf w with
  | 0x00#6 => decodeSpecial w
  | 0x01#6 => decodeRegimm w
  | 0x10#6 => decodeCop0 w
  | 0x02#6 => .instr (.j (targetOf w))
  | 0x03#6 => .instr (.jal (targetOf w))
  | 0x04#6 => .instr (.beq (rsOf w) (rtOf w) (immOf w))
  | 0x05#6 => .instr (.bne (rsOf w) (rtOf w) (immOf w))
  | 0x06#6 => .instr (.blez (rsOf w) (immOf w))
  | 0x07#6 => .instr (.bgtz (rsOf w) (immOf w))
  | 0x08#6 => .instr (.addi (rtOf w) (rsOf w) (immOf w))
  | 0x09#6 => .instr (.addiu (rtOf w) (rsOf w) (immOf w))
  | 0x0A#6 => .instr (.slti (rtOf w) (rsOf w) (immOf w))
  | 0x0B#6 => .instr (.sltiu (rtOf w) (rsOf w) (immOf w))
  | 0x0C#6 => .instr (.andi (rtOf w) (rsOf w) (immOf w))
  | 0x0D#6 => .instr (.ori (rtOf w) (rsOf w) (immOf w))
  | 0x0E#6 => .instr (.xori (rtOf w) (rsOf w) (immOf w))
  | 0x0F#6 => .instr (.lui (rtOf w) (immOf w))
  | 0x11#6 => .instr .cop1
  | 0x12#6 => .instr .cop2
  | 0x13#6 => .instr .cop3
  | 0x20#6 => .instr (.lb (rtOf w) (immOf w) (rsOf w))
  | 0x21#6 => .instr (.lh (rtOf w) (immOf w) (rsOf w))
  | 0x22#6 => .instr (.lwl (rtOf w) (immOf w) (rsOf w))
  | 0x23#6 => .instr (.lw (rtOf w) (immOf w) (rsOf w))
  | 0x24#6 => .instr (.lbu (rtOf w) (immOf w) (rsOf w))
  | 0x25#6 => .instr (.lhu (rtOf w) (immOf w) (rsOf w))
  | 0x26#6 => .instr (.lwr (rtOf w) (immOf w) (rsOf w))
  | 0x28#6 => .instr (.sb (rtOf w) (immOf w) (rsOf w))
  | 0x29#6 => .instr (.sh (rtOf w) (immOf w) (rsOf w))
  | 0x2A#6 => .instr (.swl (rtOf w) (immOf w) (rsOf w))
  | 0x2B#6 => .instr (.sw (rtOf w) (immOf w) (rsOf w))
  | 0x2E#6 => .instr (.swr (rtOf w) (immOf w) (rsOf w))
  | 0x30#6 => .instr (.ll (rtOf w) (immOf w) (rsOf w))
  | 0x31#6 => .instr .lwc1
  | 0x32#6 => .instr .lwc2
  | 0x33#6 => .instr .lwc3
  | 0x35#6 => .instr .ldc1
  | 0x36#6 => .instr .ldc2
  | 0x37#6 => .instr .ldc3
  | 0x38#6 => .instr (.sc (rtOf w) (immOf w) (rsOf w))
  | 0x39#6 => .instr .swc1
  | 0x3A#6 => .instr .swc2
  | 0x3B#6 => .instr .swc3
  | 0x3D#6 => .instr .sdc1
  | 0x3E#6 => .instr .sdc2
  | 0x3F#6 => .instr .sdc3
  | _ => .reserved

/-- Four bytes as the word they hold, the byte at the lowest address most significant (R44, R71). -/
def wordOfBytes (b0 b1 b2 b3 : Byte) : Word := b0 ++ b1 ++ b2 ++ b3

/-- Decoding total on any bytes: an instruction takes exactly the first four (R71). -/
def decodeBytes : List Byte → Decoded
  | b0 :: b1 :: b2 :: b3 :: _ => decode (wordOfBytes b0 b1 b2 b3)
  | _ => .truncated

/-- The bytes of a word as the hardware stores it (R44). -/
def bytesOfWord (w : Word) : List Byte :=
  [w.extractLsb' 24 8, w.extractLsb' 16 8, w.extractLsb' 8 8, w.extractLsb' 0 8]

/-- The instruction the decoder reads from the table's word `w` of `nbits` bits; bits above `nbits` are 0. -/
def decodeTableWord (nbits w : Nat) : Option Instr :=
  match decodeBytes (bytesOfWord (BitVec.ofNat 32 (w % 2 ^ nbits))) with
  | .instr i => some i
  | _ => none

/-! ## Encoding: the formats of R73, with every ignored field 0 -/

/-- R-format with op = 0 (SPECIAL). -/
def rWord (rs rt rd : RegIdx) (sa : BitVec 5) (funct : BitVec 6) : Word :=
  0x00#6 ++ rs ++ rt ++ rd ++ sa ++ funct
/-- I-format. -/
def iWord (op : BitVec 6) (rs rt : RegIdx) (imm : BitVec 16) : Word := op ++ rs ++ rt ++ imm
/-- J-format. -/
def jWord (op : BitVec 6) (target : BitVec 26) : Word := op ++ target
/-- SYSCALL and BREAK, with `code20`. -/
def specialCodeWord (code : BitVec 20) (funct : BitVec 6) : Word := 0x00#6 ++ code ++ funct
/-- The register traps, with `code10`. -/
def trapWord (rs rt : RegIdx) (code : BitVec 10) (funct : BitVec 6) : Word :=
  0x00#6 ++ rs ++ rt ++ code ++ funct
/-- MFC0 and MTC0. -/
def cop0MoveWord (sub rt rd : RegIdx) : Word := 0x10#6 ++ sub ++ rt ++ rd ++ 0#11

/-- The word of an instruction (R73, R77..R80). -/
def encode : Instr → Word
  | .add rd rs rt => rWord rs rt rd 0#5 0x20#6
  | .addu rd rs rt => rWord rs rt rd 0#5 0x21#6
  | .sub rd rs rt => rWord rs rt rd 0#5 0x22#6
  | .subu rd rs rt => rWord rs rt rd 0#5 0x23#6
  | .and rd rs rt => rWord rs rt rd 0#5 0x24#6
  | .or rd rs rt => rWord rs rt rd 0#5 0x25#6
  | .xor rd rs rt => rWord rs rt rd 0#5 0x26#6
  | .nor rd rs rt => rWord rs rt rd 0#5 0x27#6
  | .slt rd rs rt => rWord rs rt rd 0#5 0x2A#6
  | .sltu rd rs rt => rWord rs rt rd 0#5 0x2B#6
  | .addi rt rs imm => iWord 0x08#6 rs rt imm
  | .addiu rt rs imm => iWord 0x09#6 rs rt imm
  | .slti rt rs imm => iWord 0x0A#6 rs rt imm
  | .sltiu rt rs imm => iWord 0x0B#6 rs rt imm
  | .andi rt rs imm => iWord 0x0C#6 rs rt imm
  | .ori rt rs imm => iWord 0x0D#6 rs rt imm
  | .xori rt rs imm => iWord 0x0E#6 rs rt imm
  | .lui rt imm => iWord 0x0F#6 0#5 rt imm
  | .sll rd rt sa => rWord 0#5 rt rd sa 0x00#6
  | .srl rd rt sa => rWord 0#5 rt rd sa 0x02#6
  | .sra rd rt sa => rWord 0#5 rt rd sa 0x03#6
  | .sllv rd rt rs => rWord rs rt rd 0#5 0x04#6
  | .srlv rd rt rs => rWord rs rt rd 0#5 0x06#6
  | .srav rd rt rs => rWord rs rt rd 0#5 0x07#6
  | .mult rs rt => rWord rs rt 0#5 0#5 0x18#6
  | .multu rs rt => rWord rs rt 0#5 0#5 0x19#6
  | .div rs rt => rWord rs rt 0#5 0#5 0x1A#6
  | .divu rs rt => rWord rs rt 0#5 0#5 0x1B#6
  | .mfhi rd => rWord 0#5 0#5 rd 0#5 0x10#6
  | .mflo rd => rWord 0#5 0#5 rd 0#5 0x12#6
  | .mthi rs => rWord rs 0#5 0#5 0#5 0x11#6
  | .mtlo rs => rWord rs 0#5 0#5 0#5 0x13#6
  | .j target => jWord 0x02#6 target
  | .jal target => jWord 0x03#6 target
  | .jr rs => rWord rs 0#5 0#5 0#5 0x08#6
  | .jalr rd rs => rWord rs 0#5 rd 0#5 0x09#6
  | .beq rs rt imm => iWord 0x04#6 rs rt imm
  | .bne rs rt imm => iWord 0x05#6 rs rt imm
  | .blez rs imm => iWord 0x06#6 rs 0#5 imm
  | .bgtz rs imm => iWord 0x07#6 rs 0#5 imm
  | .bltz rs imm => iWord 0x01#6 rs 0x00#5 imm
  | .bgez rs imm => iWord 0x01#6 rs 0x01#5 imm
  | .bltzal rs imm => iWord 0x01#6 rs 0x10#5 imm
  | .bgezal rs imm => iWord 0x01#6 rs 0x11#5 imm
  | .lb rt imm rs => iWord 0x20#6 rs rt imm
  | .lbu rt imm rs => iWord 0x24#6 rs rt imm
  | .lh rt imm rs => iWord 0x21#6 rs rt imm
  | .lhu rt imm rs => iWord 0x25#6 rs rt imm
  | .lw rt imm rs => iWord 0x23#6 rs rt imm
  | .lwl rt imm rs => iWord 0x22#6 rs rt imm
  | .lwr rt imm rs => iWord 0x26#6 rs rt imm
  | .sb rt imm rs => iWord 0x28#6 rs rt imm
  | .sh rt imm rs => iWord 0x29#6 rs rt imm
  | .sw rt imm rs => iWord 0x2B#6 rs rt imm
  | .swl rt imm rs => iWord 0x2A#6 rs rt imm
  | .swr rt imm rs => iWord 0x2E#6 rs rt imm
  | .ll rt imm rs => iWord 0x30#6 rs rt imm
  | .sc rt imm rs => iWord 0x38#6 rs rt imm
  | .sync stype => rWord 0#5 0#5 0#5 stype 0x0F#6
  | .syscall code => specialCodeWord code 0x0C#6
  | .brk code => specialCodeWord code 0x0D#6
  | .tge rs rt code => trapWord rs rt code 0x30#6
  | .tgeu rs rt code => trapWord rs rt code 0x31#6
  | .tlt rs rt code => trapWord rs rt code 0x32#6
  | .tltu rs rt code => trapWord rs rt code 0x33#6
  | .teq rs rt code => trapWord rs rt code 0x34#6
  | .tne rs rt code => trapWord rs rt code 0x36#6
  | .tgei rs imm => iWord 0x01#6 rs 0x08#5 imm
  | .tgeiu rs imm => iWord 0x01#6 rs 0x09#5 imm
  | .tlti rs imm => iWord 0x01#6 rs 0x0A#5 imm
  | .tltiu rs imm => iWord 0x01#6 rs 0x0B#5 imm
  | .teqi rs imm => iWord 0x01#6 rs 0x0C#5 imm
  | .tnei rs imm => iWord 0x01#6 rs 0x0E#5 imm
  | .mfc0 rt rd => cop0MoveWord 0x00#5 rt rd
  | .mtc0 rt rd => cop0MoveWord 0x04#5 rt rd
  | .rfe => 0x42000010#32
  | .cop1 => jWord 0x11#6 0#26
  | .cop2 => jWord 0x12#6 0#26
  | .cop3 => jWord 0x13#6 0#26
  | .lwc1 => jWord 0x31#6 0#26
  | .lwc2 => jWord 0x32#6 0#26
  | .lwc3 => jWord 0x33#6 0#26
  | .ldc1 => jWord 0x35#6 0#26
  | .ldc2 => jWord 0x36#6 0#26
  | .ldc3 => jWord 0x37#6 0#26
  | .swc1 => jWord 0x39#6 0#26
  | .swc2 => jWord 0x3A#6 0#26
  | .swc3 => jWord 0x3B#6 0#26
  | .sdc1 => jWord 0x3D#6 0#26
  | .sdc2 => jWord 0x3E#6 0#26
  | .sdc3 => jWord 0x3F#6 0#26

/-- The bits of a word that select its instruction or are one of its operands (R72, R83, opcode_table.json): the other
bits are ignored. -/
def usedBits : Instr → Word
  | .add _ _ _ | .addu _ _ _ | .sub _ _ _ | .subu _ _ _ | .and _ _ _ | .or _ _ _ | .xor _ _ _
  | .nor _ _ _ | .slt _ _ _ | .sltu _ _ _ | .sllv _ _ _ | .srlv _ _ _ | .srav _ _ _ => 0xFFFFF83F#32
  | .addi _ _ _ | .addiu _ _ _ | .slti _ _ _ | .sltiu _ _ _ | .andi _ _ _ | .ori _ _ _
  | .xori _ _ _ | .j _ | .jal _ | .beq _ _ _ | .bne _ _ _ | .bltz _ _ | .bgez _ _ | .bltzal _ _
  | .bgezal _ _ | .lb _ _ _ | .lbu _ _ _ | .lh _ _ _ | .lhu _ _ _ | .lw _ _ _ | .lwl _ _ _
  | .lwr _ _ _ | .sb _ _ _ | .sh _ _ _ | .sw _ _ _ | .swl _ _ _ | .swr _ _ _ | .ll _ _ _
  | .sc _ _ _ | .syscall _ | .brk _ | .tge _ _ _ | .tgeu _ _ _ | .tlt _ _ _ | .tltu _ _ _
  | .teq _ _ _ | .tne _ _ _ | .tgei _ _ | .tgeiu _ _ | .tlti _ _ | .tltiu _ _ | .teqi _ _
  | .tnei _ _ => 0xFFFFFFFF#32
  | .lui _ _ | .sll _ _ _ | .srl _ _ _ | .sra _ _ _ => 0xFC1FFFFF#32
  | .mult _ _ | .multu _ _ | .div _ _ | .divu _ _ => 0xFFFF003F#32
  | .mfhi _ | .mflo _ => 0xFC00F83F#32
  | .mthi _ | .mtlo _ | .jr _ => 0xFFE0003F#32
  | .jalr _ _ => 0xFFE0F83F#32
  | .blez _ _ | .bgtz _ _ => 0xFFE0FFFF#32
  | .sync _ => 0xFC0007FF#32
  | .mfc0 _ _ | .mtc0 _ _ => 0xFFFFF800#32
  | .rfe => 0xFE00003F#32
  | .cop1 | .cop2 | .cop3 | .lwc1 | .lwc2 | .lwc3 | .ldc1 | .ldc2 | .ldc3 | .swc1 | .swc2 | .swc3
  | .sdc1 | .sdc2 | .sdc3 => 0xFC000000#32

/-- The `match` and the `mask` of the instruction's row in spec/opcode_table.json. -/
def tableRow : Instr → Word × Word
  | .add _ _ _ => (0x00000020#32, 0xFC00003F#32)
  | .addu _ _ _ => (0x00000021#32, 0xFC00003F#32)
  | .sub _ _ _ => (0x00000022#32, 0xFC00003F#32)
  | .subu _ _ _ => (0x00000023#32, 0xFC00003F#32)
  | .and _ _ _ => (0x00000024#32, 0xFC00003F#32)
  | .or _ _ _ => (0x00000025#32, 0xFC00003F#32)
  | .xor _ _ _ => (0x00000026#32, 0xFC00003F#32)
  | .nor _ _ _ => (0x00000027#32, 0xFC00003F#32)
  | .slt _ _ _ => (0x0000002A#32, 0xFC00003F#32)
  | .sltu _ _ _ => (0x0000002B#32, 0xFC00003F#32)
  | .addi _ _ _ => (0x20000000#32, 0xFC000000#32)
  | .addiu _ _ _ => (0x24000000#32, 0xFC000000#32)
  | .slti _ _ _ => (0x28000000#32, 0xFC000000#32)
  | .sltiu _ _ _ => (0x2C000000#32, 0xFC000000#32)
  | .andi _ _ _ => (0x30000000#32, 0xFC000000#32)
  | .ori _ _ _ => (0x34000000#32, 0xFC000000#32)
  | .xori _ _ _ => (0x38000000#32, 0xFC000000#32)
  | .lui _ _ => (0x3C000000#32, 0xFC000000#32)
  | .sll _ _ _ => (0x00000000#32, 0xFC00003F#32)
  | .srl _ _ _ => (0x00000002#32, 0xFC00003F#32)
  | .sra _ _ _ => (0x00000003#32, 0xFC00003F#32)
  | .sllv _ _ _ => (0x00000004#32, 0xFC00003F#32)
  | .srlv _ _ _ => (0x00000006#32, 0xFC00003F#32)
  | .srav _ _ _ => (0x00000007#32, 0xFC00003F#32)
  | .mult _ _ => (0x00000018#32, 0xFC00003F#32)
  | .multu _ _ => (0x00000019#32, 0xFC00003F#32)
  | .div _ _ => (0x0000001A#32, 0xFC00003F#32)
  | .divu _ _ => (0x0000001B#32, 0xFC00003F#32)
  | .mfhi _ => (0x00000010#32, 0xFC00003F#32)
  | .mflo _ => (0x00000012#32, 0xFC00003F#32)
  | .mthi _ => (0x00000011#32, 0xFC00003F#32)
  | .mtlo _ => (0x00000013#32, 0xFC00003F#32)
  | .j _ => (0x08000000#32, 0xFC000000#32)
  | .jal _ => (0x0C000000#32, 0xFC000000#32)
  | .jr _ => (0x00000008#32, 0xFC00003F#32)
  | .jalr _ _ => (0x00000009#32, 0xFC00003F#32)
  | .beq _ _ _ => (0x10000000#32, 0xFC000000#32)
  | .bne _ _ _ => (0x14000000#32, 0xFC000000#32)
  | .blez _ _ => (0x18000000#32, 0xFC000000#32)
  | .bgtz _ _ => (0x1C000000#32, 0xFC000000#32)
  | .bltz _ _ => (0x04000000#32, 0xFC1F0000#32)
  | .bgez _ _ => (0x04010000#32, 0xFC1F0000#32)
  | .bltzal _ _ => (0x04100000#32, 0xFC1F0000#32)
  | .bgezal _ _ => (0x04110000#32, 0xFC1F0000#32)
  | .lb _ _ _ => (0x80000000#32, 0xFC000000#32)
  | .lbu _ _ _ => (0x90000000#32, 0xFC000000#32)
  | .lh _ _ _ => (0x84000000#32, 0xFC000000#32)
  | .lhu _ _ _ => (0x94000000#32, 0xFC000000#32)
  | .lw _ _ _ => (0x8C000000#32, 0xFC000000#32)
  | .lwl _ _ _ => (0x88000000#32, 0xFC000000#32)
  | .lwr _ _ _ => (0x98000000#32, 0xFC000000#32)
  | .sb _ _ _ => (0xA0000000#32, 0xFC000000#32)
  | .sh _ _ _ => (0xA4000000#32, 0xFC000000#32)
  | .sw _ _ _ => (0xAC000000#32, 0xFC000000#32)
  | .swl _ _ _ => (0xA8000000#32, 0xFC000000#32)
  | .swr _ _ _ => (0xB8000000#32, 0xFC000000#32)
  | .ll _ _ _ => (0xC0000000#32, 0xFC000000#32)
  | .sc _ _ _ => (0xE0000000#32, 0xFC000000#32)
  | .sync _ => (0x0000000F#32, 0xFC00003F#32)
  | .syscall _ => (0x0000000C#32, 0xFC00003F#32)
  | .brk _ => (0x0000000D#32, 0xFC00003F#32)
  | .tge _ _ _ => (0x00000030#32, 0xFC00003F#32)
  | .tgeu _ _ _ => (0x00000031#32, 0xFC00003F#32)
  | .tlt _ _ _ => (0x00000032#32, 0xFC00003F#32)
  | .tltu _ _ _ => (0x00000033#32, 0xFC00003F#32)
  | .teq _ _ _ => (0x00000034#32, 0xFC00003F#32)
  | .tne _ _ _ => (0x00000036#32, 0xFC00003F#32)
  | .tgei _ _ => (0x04080000#32, 0xFC1F0000#32)
  | .tgeiu _ _ => (0x04090000#32, 0xFC1F0000#32)
  | .tlti _ _ => (0x040A0000#32, 0xFC1F0000#32)
  | .tltiu _ _ => (0x040B0000#32, 0xFC1F0000#32)
  | .teqi _ _ => (0x040C0000#32, 0xFC1F0000#32)
  | .tnei _ _ => (0x040E0000#32, 0xFC1F0000#32)
  | .mfc0 _ _ => (0x40000000#32, 0xFFE00000#32)
  | .mtc0 _ _ => (0x40800000#32, 0xFFE00000#32)
  | .rfe => (0x42000010#32, 0xFE00003F#32)
  | .cop1 => (0x44000000#32, 0xFC000000#32)
  | .cop2 => (0x48000000#32, 0xFC000000#32)
  | .cop3 => (0x4C000000#32, 0xFC000000#32)
  | .lwc1 => (0xC4000000#32, 0xFC000000#32)
  | .lwc2 => (0xC8000000#32, 0xFC000000#32)
  | .lwc3 => (0xCC000000#32, 0xFC000000#32)
  | .ldc1 => (0xD4000000#32, 0xFC000000#32)
  | .ldc2 => (0xD8000000#32, 0xFC000000#32)
  | .ldc3 => (0xDC000000#32, 0xFC000000#32)
  | .swc1 => (0xE4000000#32, 0xFC000000#32)
  | .swc2 => (0xE8000000#32, 0xFC000000#32)
  | .swc3 => (0xEC000000#32, 0xFC000000#32)
  | .sdc1 => (0xF4000000#32, 0xFC000000#32)
  | .sdc2 => (0xF8000000#32, 0xFC000000#32)
  | .sdc3 => (0xFC000000#32, 0xFC000000#32)

end Sys2Proof
end

