-- ==== Sys2Proof/Config.lean ====
section
/-! DEFINITION. The configuration: the parameters of 00_scope.md R7 as plain data (`Params`, `Init`), and the
constants without a body that stand for what the spec leaves open for good (`Config.div0S`, `Config.div0U`,
`Config.freeBit`, `Config.freeByte`, `Config.device`), together with the plain-data types their arguments have. -/

namespace Sys2Proof

/-! ## The parameters of R7 that are data -/

/-- `HOST_ORDER`: byte order of the host that holds the buffers, invisible to programs (R7, R46). -/
inductive HostOrder where
  | bigEndian
  | littleEndian
  deriving DecidableEq, Repr, Inhabited

/-- `SMC_MODE` (R7, R207). -/
inductive SmcMode where
  | coherent
  | refuse
  deriving DecidableEq, Repr, Inhabited

/-- The kinds of region (R38, R42). -/
inductive RegionKind where
  | ram
  | rom
  | device
  | coprocLocal
  deriving DecidableEq, Repr, Inhabited

/-- The access modes of a region (R38). -/
inductive AccessMode where
  | direct
  | dispatch
  deriving DecidableEq, Repr, Inhabited

/-- "`RAM` and `ROM` are `direct`, `DEVICE` and `COPROC_LOCAL` are `dispatch`" (R38). -/
def RegionKind.mode : RegionKind → AccessMode
  | .ram => .direct
  | .rom => .direct
  | .device => .dispatch
  | .coprocLocal => .dispatch

/-- A region descriptor (R38); its `mode` is fixed by its kind. -/
structure Region where
  name : String
  base : Word
  size : Nat
  kind : RegionKind
  deriving DecidableEq, Repr, Inhabited

/-- One image format of `ROM_SIGNATURES` (R52): the signature an image begins with and the reordering that brings
each 4-byte group of it into canonical order: canonical byte `i` of a group is its byte `order i`, so the identity
is `(0, 1, 2, 3)` and `SwapWord` (R50) is `(3, 2, 1, 0)`. DESIGN CHOICE (log 21). -/
structure RomFormat where
  signature : List Byte
  order0 : Fin 4
  order1 : Fin 4
  order2 : Fin 4
  order3 : Fin 4
  deriving DecidableEq, Repr, Inhabited

/-- The widths of an access: 8, 16 and 32 bits (R61). -/
inductive Width where
  | byte
  | half
  | word
  deriving DecidableEq, Repr, Inhabited

/-- The two directions of a DMA request (R194). -/
inductive DmaDir where
  | mainToLocal
  | localToMain
  deriving DecidableEq, Repr, Inhabited

/-- A field of one of the coprocessor's registers: `width` bits from bit `lsb` of what is written to the register at
`addr` by an access of the width `access` (`none`: of any width). DESIGN CHOICE (log 14). -/
structure RegField where
  addr : Word
  access : Option Width
  lsb : Nat
  width : Nat
  deriving DecidableEq, Repr, Inhabited

/-- A write that starts something: one that puts `value` in `field`. A field of width 0 with the value 0 makes it every
write of the register. -/
structure RegTrigger where
  field : RegField
  value : Nat
  deriving DecidableEq, Repr, Inhabited

/-- The status register (R193, R194): its address, the bit that shows completion, and the bit that shows that a DMA
request failed. -/
structure StatusLayout where
  addr : Word
  doneBit : Fin 32
  failBit : Fin 32
  deriving DecidableEq, Repr, Inhabited

/-- The DMA registers (R194): the fields that hold a request's main-memory address, its local address and its number of
blocks (`none`: one block), the size of a block, and the writes that start a request in each direction. -/
structure DmaLayout where
  main : RegField
  loc : RegField
  count : Option RegField
  blockSize : Nat
  starts : List (RegTrigger × DmaDir)
  deriving DecidableEq, Repr, Inhabited

/-- `VCOP_REGS` (R7, D21): "addresses and layouts of the vector coprocessor's command, status and DMA registers", with
the enable of the run's interrupt and its acknowledgement (R31, R193). What a layout does not give (`none`) stays inside
`Config.device`, but for the start: without a command register no call starts a run (log 14). -/
structure VcopRegs where
  /-- the command register's write that starts a run; with `none` there is no run -/
  start : Option RegTrigger
  status : Option StatusLayout
  dma : Option DmaLayout
  /-- the field that enables the run's interrupt, when it is not 0 -/
  irqEnable : Option RegField
  acknowledge : Option RegTrigger
  deriving DecidableEq, Repr, Inhabited

/-- The parameters of R7 that stay constant while the machine runs. They are carried in State (log 18), so a
statement about all states is a statement about all configurations. -/
structure Params where
  hostOrder : HostOrder
  startPc : Word
  excVector : Word
  regionMap : List Region
  prid : Word
  vcopIrqLine : Option (Fin 6)
  vcopRegs : VcopRegs
  romSignatures : List RomFormat
  romMinSize : Nat
  haltPc : Word
  smcMode : SmcMode
  deriving DecidableEq, Repr, Inhabited

/-- The parameters of the reset state. `EXC_VECTOR` is the spec's default (R7, log 6). The rest is OPEN in the
spec and a DESIGN CHOICE here: START_PC (log 4), the region map (log 5: the map of the spec's own test vectors with
the RAM of its exception programs), PRID (log 9), the coprocessor's line and registers (log 14), the ROM formats
(log 21), HALT_PC (log 22), HOST_ORDER (log 20); SMC_MODE is the spec's default (log 17). -/
def Params.default : Params where
  hostOrder := .littleEndian
  startPc := 0x00000000#32
  excVector := 0x80000080#32
  regionMap :=
    [ { name := "ram", base := 0x00000000#32, size := 0x4000, kind := .ram },
      { name := "rom", base := 0x00010000#32, size := 0x1000, kind := .rom },
      { name := "ram1", base := 0x80000000#32, size := 0x1000, kind := .ram } ]
  prid := 0x00000000#32
  vcopIrqLine := none
  vcopRegs := { start := none, status := none, dma := none, irqEnable := none, acknowledge := none }
  romSignatures := []
  romMinSize := 0
  haltPc := 0x00000000#32
  smcMode := .coherent

/-! ## Stored bytes and the devices' data -/

/-- A byte store: the listed addresses and their bytes, in the canonical form of `Machine.Memory.wf`. -/
abbrev ByteStore := List Host.Cell

/-- `INIT_GPR`, `INIT_HI`, `INIT_LO`, `INIT_RAM` (R7). -/
structure Init where
  gpr : Vector Word 32
  hi : Word
  lo : Word
  ram : ByteStore
  deriving DecidableEq, Repr

/-- The contents of the reset state: DESIGN CHOICE, the spec gives none (logs 2, 7). -/
def Init.default : Init where
  gpr := Vector.replicate 32 0#32
  hi := 0#32
  lo := 0#32
  ram := []

/-- The ROM backing store: its bytes by offset and `Size()` (R52, R53). -/
structure Rom where
  cells : ByteStore
  size : Nat
  deriving DecidableEq, Repr, Inhabited

/-- The state of the vector coprocessor the spec names (R32, R193, R195): its register file, its
current-microcode-address pointer, its local memory, what its status register shows, and what was last written to its DMA
registers and its interrupt enable. Register width and count and the size of the local memory are in no source, so they
are data, which nothing changes (log 13). -/
structure Vcop where
  /-- the vector registers: "fixed count of fixed-width vector registers", each below 2 ^ `regWidth` -/
  regs : List Nat
  /-- the width of a vector register in bits -/
  regWidth : Nat
  /-- the current-microcode-address pointer -/
  microPc : Nat
  /-- the local memory, bytes by local address -/
  localMem : ByteStore
  /-- the size of the local memory in bytes -/
  localSize : Nat
  /-- the completion status bit of R193 -/
  done : Bool
  /-- the status register reflects a failed DMA request (R194) -/
  dmaError : Bool
  /-- the completion interrupt is asserted and not yet acknowledged (R193) -/
  irq : Bool
  /-- the run's interrupt is enabled, where `VCOP_REGS` has a field for that (R193) -/
  irqEnabled : Bool
  /-- the main-memory address in the DMA registers (R194) -/
  dmaMain : Nat
  /-- the local address in the DMA registers -/
  dmaLocal : Nat
  /-- the number of blocks in the DMA registers -/
  dmaCount : Nat
  deriving DecidableEq, Repr, Inhabited

/-- One call of a device's handler (R55, R56, R59): its address, its width, and the value of a write. -/
structure DevCall where
  addr : Word
  width : Width
  write : Option Word
  deriving DecidableEq, Repr, Inhabited

/-- One thing a device does inside a call. -/
inductive DevAction where
  /-- a DMA request between main memory and the coprocessor's local memory (R194), by the microcode of a run, or by any
  device register where `VCOP_REGS` has no DMA registers -/
  | dma (dir : DmaDir) (main loc len : Nat)
  /-- the microcode writes one byte of the local memory (R195) -/
  | localByte (loc : Nat) (value : Byte)
  /-- the microcode leaves these registers and this microcode address (R195) -/
  | registers (regs : List Nat) (microPc : Nat)
  /-- the device clears its completion status bit -/
  | clearDone
  /-- software acknowledged the completion interrupt through a device register (R31, R193), where `VCOP_REGS` does not
  say through which -/
  | acknowledge
  deriving DecidableEq, Repr, Inhabited

/-- What a device answers to one call: `DeviceFault`, or the value it returns, what it does, whether the completion
interrupt of a run that this call started is enabled where `VCOP_REGS` does not say so (R193), and the levels of the
interrupt inputs after it. Of all this only what the spec leaves open takes effect (Machine/Device.lean). -/
structure DevReply where
  fault : Bool
  value : Word
  actions : List DevAction
  irqEnable : Bool
  int : BitVec 6
  deriving DecidableEq, Repr, Inhabited

/-- What a device's answer may depend on: the free-value counter, every earlier call, the call itself, the
coprocessor's state, main memory, the ROM store, and the interrupt inputs. -/
structure DevContext where
  draw : Nat
  past : List DevCall
  call : DevCall
  vcop : Vcop
  main : ByteStore
  rom : Rom
  int : BitVec 6
  deriving DecidableEq, Repr, Inhabited

/-! ## Free values: constants without a body -/

/-- `DIV0_S`: the (HI, LO) of a signed division by zero, a function of the dividend (R7, R89, R116; log 10). -/
opaque Config.div0S : Word → Word × Word

/-- `DIV0_U`: the (HI, LO) of an unsigned division by zero, a function of the dividend (R7, R89, R117; log 10). -/
opaque Config.div0U : Word → Word × Word

/-- `Draw()`: the free choice of 0 or 1 that SC makes in R155, a fresh one for each value of the counter (log 11). -/
opaque Config.freeBit : Nat → Bool

/-- A byte of the ROM window beyond the image, as a DMA request reads it: R194 takes the request when it lies inside the
region, and no rule gives the bytes (log 15). Drawn by the counter, for each address. -/
opaque Config.freeByte : Nat → Nat → Byte

/-- `DEVICE`, with the vector coprocessor's computation in it, and what the layout of `VCOP_REGS` does not give: the oracle of R55, R56,
R193 (log 12, log 13, log 14). -/
opaque Config.device : DevContext → DevReply

end Sys2Proof
end

