-- ==== Sys2Proof/Machine/State.lean ====
section
/-! DEFINITION. The state of the machine, as plain data: every piece of state spec/ names (INVENTORY.md, ## State),
the parameters that stay constant while it runs, the reasons a step can stop, and the state at launch and at reset. -/

namespace Sys2Proof.Machine

/-! ## Why the machine stops -/

/-- The kinds of `Halted(Unpredictable(kind))` (00_scope.md R10, 92_eei_decisions.md D7): a situation the spec gives
no meaning. (`UnwrittenRegister` is not among them: every register holds a value at reset, log 2.) -/
inductive Unpredictable where
  /-- a control transfer in the delay slot of a control transfer (R33, R124) -/
  | branchInDelaySlot
  /-- JALR with rs = rd (R129) -/
  | jalrSameRegister
  /-- BLTZAL or BGEZAL with rs = 31 (R136, R137) -/
  | linkSourceClash
  /-- MFC0 or MTC0 of an unimplemented CP0 number (R28) -/
  | unimplementedCp0
  /-- SWL or SWR that would write part of a word in a dispatch region (R153) -/
  | partialDeviceStore
  /-- a fetch of a word written since the last taken transfer, with SMC_MODE = Refuse (R207) -/
  | staleCode
  deriving DecidableEq, Repr

/-- The reasons of `Halted(reason)` (R10). -/
inductive HaltReason where
  | hostHalt
  | doubleFault
  | unpredictable (kind : Unpredictable)
  deriving DecidableEq, Repr

/-- RUN: "the core's state: `Running` or `Halted(reason)`" (R30). -/
inductive Run where
  | running
  | halted (reason : HaltReason)
  deriving DecidableEq, Repr

/-- The fault outcomes of a step (R10). The state RUN has after each is `State.halt` of its reason (log 1). -/
inductive Fault where
  /-- Raised by taking AdEL or IBE of a fetch at EXC_VECTOR (R183). Safe: the spec stops the core there. -/
  | doubleFault
  /-- Raised where the spec ends the step in `Halted(Unpredictable(kind))` (R10). Safe: the spec gives no meaning. -/
  | unpredictable (kind : Unpredictable)
  /-- Raised by `step` in a state whose RUN is Halted: "no step is enabled from it" (R30). Safe. -/
  | notRunning (reason : HaltReason)
  deriving DecidableEq, Repr

/-- The refusals of a step. -/
inductive Refusal where
  /-- Raised by an arm of `exec` whose instruction has no meaning yet. Safe. No arm is one. -/
  | notModelled (mnemonic : String)
  deriving DecidableEq, Repr

/-! ## Control registers -/

/-- Status, CP0 register 12 (R23): the implemented fields. `kuie` is Status[5:0] = KUo IEo KUp IEp KUc IEc. The other
bits read 0 and ignore writes, so nothing is stored for them. -/
structure Status where
  cu : BitVec 4
  im : BitVec 8
  kuie : BitVec 6
  deriving DecidableEq, Repr

/-- Cause, CP0 register 13 (R24): the stored fields. IP[7:2] is the level of the interrupt inputs when it is read, and
is not stored; `ip` is IP[1:0]. -/
structure Cause where
  bd : Bool
  ce : BitVec 2
  ip : BitVec 2
  excCode : BitVec 5
  deriving DecidableEq, Repr

/-! ## The state -/

/-- The state of the machine. -/
structure State where
  /-- x[0] .. x[31] (R14); x[0] is read and written through `State.reg`, `State.setReg` only (R15) -/
  gpr : Vector Word 32
  /-- HI (R18) -/
  hi : Word
  /-- LO (R18) -/
  lo : Word
  /-- PC (R19) -/
  pc : Word
  /-- NPC (R19) -/
  npc : Word
  /-- DELAY (R20) -/
  delay : Bool
  /-- Status (R23) -/
  status : Status
  /-- Cause, its stored fields (R24) -/
  cause : Cause
  /-- EPC (R25) -/
  epc : Word
  /-- BadVAddr (R26) -/
  badVAddr : Word
  /-- LLbit (R29) -/
  llbit : Bool
  /-- LLAddr (R29) -/
  llAddr : Word
  /-- `Foreign` of R155: another agent wrote the reserved word since the LL -/
  llForeign : Bool
  /-- RUN (R30) -/
  run : Run
  /-- INT[5:0] as the outside drives it (R31); with the coprocessor's line it is `State.intLevels` -/
  int : BitVec 6
  /-- the bytes of the RAM regions, by address (R42, R44) -/
  mem : ByteStore
  /-- the ROM backing store (R52, R53) -/
  rom : Rom
  /-- the vector coprocessor (R32, R195) -/
  vcop : Vcop
  /-- the devices' state: every call made, newest first (R55, R56) -/
  dev : List DevCall
  /-- the set W of R207: addresses of words written since the last taken transfer or exception, sorted -/
  smcW : List Nat
  /-- the control transfer whose delay slot is at PC was taken, so NPC is its target (R207) -/
  taken : Bool
  /-- the model's own counter, with which free values are drawn (log 11) -/
  draws : Nat
  /-- the parameters of R7; no step changes them (log 18) -/
  par : Params
  deriving DecidableEq, Repr

/-- A vector coprocessor at power-on: idle (R198); the rest is unspecified and a DESIGN CHOICE (log 13). -/
def vcopAtPowerOn : Vcop where
  regs := []
  regWidth := 0
  microPc := 0
  localMem := []
  localSize := 0
  done := false
  dmaError := false
  irq := false
  irqEnabled := false
  dmaMain := 0
  dmaLocal := 0
  dmaCount := 0

/-- Status at reset (R23, R198): 0x00000000. -/
def Status.zero : Status where
  cu := 0#4
  im := 0#8
  kuie := 0#6

/-- The stored fields of Cause at reset (R24, R198). -/
def Cause.zero : Cause where
  bd := false
  ce := 0#2
  ip := 0#2
  excCode := 0#5

/-- The reset state of R198 for a launch: parameters, `INIT_*`, and the ROM of the last successful `Load`. x[0] is 0 from
reset (R17). -/
def State.atLaunch (p : Params) (i : Init) (rom : Rom) : State where
  gpr := i.gpr.set 0 0#32
  hi := i.hi
  lo := i.lo
  pc := p.startPc
  npc := p.startPc + 4
  delay := false
  status := Status.zero
  cause := Cause.zero
  epc := 0#32
  badVAddr := 0#32
  llbit := false
  llAddr := 0#32
  llForeign := false
  run := .running
  int := 0#6
  mem := i.ram
  rom := rom
  vcop := vcopAtPowerOn
  dev := []
  smcW := []
  taken := false
  draws := 0
  par := p

/-- The ROM store of the reset state: 0x1000 bytes, all 0. DESIGN CHOICE (log 8). -/
def romAtReset : Rom where
  cells := []
  size := 0x1000

/-- The machine right after reset (R198). -/
def State.reset : State := State.atLaunch Params.default Init.default romAtReset

end Sys2Proof.Machine
end

