-- ==== Sys2Proof/Machine/Memory.lean ====
section
/-! DEFINITION. The byte store: reading and writing bytes, the canonical form, and the big-endian values of 20_memory.md
R44 built from bytes in one place. -/

namespace Sys2Proof.Machine.Memory

/-- What an address that is not listed reads as: 0. DESIGN CHOICE (log 7): the spec leaves INIT_RAM open. -/
def unlisted : Byte := 0#8

/-- The byte at an address. -/
def read : ByteStore → Nat → Byte
  | [], _ => unlisted
  | (k, b) :: m, a => if k = a then b else read m a

/-- A cell in front of a store, left out when it says what an unlisted address reads as anyway. -/
def cons (a : Nat) (b : Byte) (m : ByteStore) : ByteStore := if b = unlisted then m else (a, b) :: m

/-- One byte written; the form stays canonical. -/
def write : ByteStore → Nat → Byte → ByteStore
  | [], a, b => cons a b []
  | (k, c) :: m, a, b =>
    if a < k then cons a b ((k, c) :: m) else if a = k then cons a b m else (k, c) :: write m a b

/-- Consecutive bytes written from an address on. -/
def writeBytes (m : ByteStore) (a : Nat) : List Byte → ByteStore
  | [] => m
  | b :: bs => writeBytes (write m a b) (a + 1) bs

/-- Consecutive bytes read from an address on. -/
def readBytes (m : ByteStore) (a : Nat) : Nat → List Byte
  | 0 => []
  | n + 1 => read m a :: readBytes m (a + 1) n

/-- The canonical form, from address `lo` on and below `bound`: addresses strictly rising, no listed byte equal to what
an unlisted address reads as. -/
def canonicalFrom (bound : Nat) : Nat → ByteStore → Bool
  | _, [] => true
  | lo, (k, b) :: m => decide (lo ≤ k) && decide (k < bound) && decide (b ≠ unlisted) && canonicalFrom bound (k + 1) m

/-- The canonical form of a store of the 2^32 byte addresses (R37). -/
def wf (m : ByteStore) : Bool := canonicalFrom (2 ^ 32) 0 m

end Sys2Proof.Machine.Memory

namespace Sys2Proof.Machine

/-- The number of bytes of an access (R61). -/
def bytesOf : Width → Nat
  | .byte => 1
  | .half => 2
  | .word => 4

/-- `value(a, n)` of R44, as a word with zeros above its 8n bits: the byte at the lowest address is the most
significant. -/
def valueAt (m : ByteStore) (a : Nat) : Width → Word
  | .byte => (Memory.read m a).setWidth 32
  | .half => (Memory.read m a ++ Memory.read m (a + 1)).setWidth 32
  | .word => Memory.read m a ++ Memory.read m (a + 1) ++ Memory.read m (a + 2) ++ Memory.read m (a + 3)

/-- The bytes that `write(a, n, v)` of R44 stores, lowest address first: the low 8n bits of the word, big-endian. -/
def bytesToStore (v : Word) : Width → List Byte
  | .byte => [v.extractLsb' 0 8]
  | .half => [v.extractLsb' 8 8, v.extractLsb' 0 8]
  | .word => [v.extractLsb' 24 8, v.extractLsb' 16 8, v.extractLsb' 8 8, v.extractLsb' 0 8]

/-- `write(a, n, v)` of R44. -/
def storeValue (m : ByteStore) (a : Nat) (w : Width) (v : Word) : ByteStore := Memory.writeBytes m a (bytesToStore v w)

/-- The low 8n bits of a word, zeros above. -/
def lowBits (w : Width) (v : Word) : Word :=
  match w with
  | .byte => (v.extractLsb' 0 8).setWidth 32
  | .half => (v.extractLsb' 0 16).setWidth 32
  | .word => v

/-- The address is a multiple of the width (R60). -/
def alignedTo (a : Word) : Width → Bool
  | .byte => true
  | .half => a.extractLsb' 0 1 == 0#1
  | .word => a.extractLsb' 0 2 == 0#2

/-! ## The region map (R38..R42) -/

/-- `[base, base + size)` contains the address (R40). -/
def regionContains (r : Region) (a : Nat) : Bool := decide (r.base.toNat ≤ a) && decide (a < r.base.toNat + r.size)

/-- `Resolve(addr)` (R40): the region of the map that contains the address, or none. -/
def resolve (map : List Region) (a : Word) : Option Region := map.find? fun r => regionContains r a.toNat

/-- `base` and `size` multiples of 4, `size` at least 4, `base + size <= 2^32` (R38, R39). -/
def regionOk (r : Region) : Bool :=
  decide (r.base.toNat % 4 = 0) && decide (r.size % 4 = 0) && decide (4 ≤ r.size) &&
    decide (r.base.toNat + r.size ≤ 2 ^ 32)

/-- Two regions have no address in common (R38). -/
def regionsDisjoint (r q : Region) : Bool :=
  decide (r.base.toNat + r.size ≤ q.base.toNat) || decide (q.base.toNat + q.size ≤ r.base.toNat)

/-- A region map that `MapRegion` can have built: sound descriptors that do not overlap (R38, R39). -/
def mapOk : List Region → Bool
  | [] => true
  | r :: rest => regionOk r && rest.all (regionsDisjoint r) && mapOk rest

/-- The offset of an address in a region. -/
def offsetIn (r : Region) (a : Word) : Nat := a.toNat - r.base.toNat

end Sys2Proof.Machine
end

