-- ==== Sys2Proof/Machine/Operands.lean ====
section
/-! DEFINITION. Operands: the general registers with x[0] hard-wired, every immediate of 30_encoding.md R74, the one
addressing mode of 42_loadstore.md R139, branch and jump targets and the link value of 41_control.md. -/

namespace Sys2Proof.Machine

/-- A register field is an index of the register file. -/
theorem regIdx_lt (r : RegIdx) : r.toNat < 32 := r.isLt

/-- Register 31, the link register (R16). -/
def ra : RegIdx := 31#5

/-- `x[r]` (R9, R15): "register index 0 is hard-wired to the value zero". -/
def State.reg (s : State) (r : RegIdx) : Word := if r = 0#5 then 0#32 else s.gpr[r.toNat]'(regIdx_lt r)

/-- The register file with `x[r] <- v` (R15): a write of register 0 is discarded. -/
def gprSet (g : Vector Word 32) (r : RegIdx) (v : Word) : Vector Word 32 :=
  if r = 0#5 then g else g.set r.toNat v (regIdx_lt r)

/-- `x[r] <- v` (R9, R15). -/
def State.setReg (s : State) (r : RegIdx) (v : Word) : State := { s with gpr := gprSet s.gpr r v }

/-! ## Immediates (R74) -/

/-- `simm = sext_32(imm)`. -/
def simm (imm : BitVec 16) : Word := imm.signExtend 32
/-- `zimm = zext_32(imm)`. -/
def zimm (imm : BitVec 16) : Word := imm.setWidth 32
/-- `uimm = {imm, 0x0000}`. -/
def uimm (imm : BitVec 16) : Word := imm ++ 0#16
/-- `boff = sext_32({imm, 0b00})`. -/
def boff (imm : BitVec 16) : Word := (imm ++ 0#2).signExtend 32
/-- `jidx = {target, 0b00}`, 28 bits. -/
def jidx (target : BitVec 26) : BitVec 28 := target ++ 0#2
/-- The variable shift amount `x[rs][4:0]`. -/
def varShift (v : Word) : Nat := (v.extractLsb' 0 5).toNat

/-! ## Addresses -/

/-- `ea = (x[rs] + sext_32(imm)) mod 2^32` (R139). -/
def State.ea (s : State) (rs : RegIdx) (imm : BitVec 16) : Word := s.reg rs + simm imm
/-- `ea` with bits 1:0 cleared: the aligned word that LWL, LWR, SWL and SWR reach (R146). -/
def wordBase (a : Word) : Word := a.extractLsb' 2 30 ++ 0#2
/-- `k = ea[1:0]` (R146). -/
def byteInWord (a : Word) : BitVec 2 := a.extractLsb' 0 2

/-- A conditional branch's target, `PC + 4 + sext_32({imm, 0b00})` (R130). -/
def State.branchTarget (s : State) (imm : BitVec 16) : Word := s.pc + 4 + boff imm
/-- J and JAL's target, `{(PC + 4)[31:28], target, 0b00}` (R126). -/
def State.jumpTarget (s : State) (target : BitVec 26) : Word := (s.pc + 4).extractLsb' 28 4 ++ jidx target
/-- The return address `PC + 8` (R125). -/
def State.linkValue (s : State) : Word := s.pc + 8

/-! ## Interrupt inputs and the words of the control registers -/

/-- The level the coprocessor drives: its asserted completion interrupt on line `VCOP_IRQ_LINE` (R31, R193). -/
def State.vcopLine (s : State) : BitVec 6 :=
  match s.par.vcopIrqLine with
  | none => 0#6
  | some l => if s.vcop.irq then 1#6 <<< l.val else 0#6

/-- The levels of `INT[5:0]` now (R31, R185). -/
def State.intLevels (s : State) : BitVec 6 := s.int ||| s.vcopLine

/-- `Cause.IP[7:0]` as read: IP[7:2] are the present levels of `INT[5:0]` (R24, R184). -/
def State.ip (s : State) : BitVec 8 := s.intLevels ++ s.cause.ip

/-- Status as a word (R23). -/
def Status.toWord (t : Status) : Word := t.cu ++ 0#12 ++ t.im ++ 0#2 ++ t.kuie

/-- The fields a word writes to Status: `v & 0xF000FF3F` (R23, R173). -/
def Status.ofWord (v : Word) : Status where
  cu := v.extractLsb' 28 4
  im := v.extractLsb' 8 8
  kuie := v.extractLsb' 0 6

/-- Cause as a word: `{BD, 0, CE, 0x000, IP[7:2] = INT[5:0], IP[1:0], 0, ExcCode, 0b00}` (R24, R172). -/
def State.causeWord (s : State) : Word :=
  BitVec.ofBool s.cause.bd ++ 0#1 ++ s.cause.ce ++ 0#12 ++ s.intLevels ++ s.cause.ip ++ 0#1 ++ s.cause.excCode ++ 0#2

/-- IEc, Status[0] (R23). -/
def Status.iec (t : Status) : Bool := t.kuie.getLsbD 0

end Sys2Proof.Machine
end

