-- ==== Sys2Proof/Machine/Device.lean ====
section
/-! DEFINITION. The devices behind the dispatch regions (20_memory.md R55, R56) and the vector coprocessor as one of
them (60_exceptions.md R193..R195): a device call, its DMA requests (all or nothing), the completion of a run. What a
device computes is the oracle `Config.device`; what the spec fixes about its effects is written out here. -/

namespace Sys2Proof

/-! ## The coprocessor's registers, as the layout of `VCOP_REGS` gives them (log 14) -/

/-- What the call writes to the field, if it writes it. -/
def RegField.written (f : RegField) (c : DevCall) : Option Nat :=
  match c.write with
  | none => none
  | some v =>
    if c.addr = f.addr ∧ (f.access = none ∨ f.access = some c.width) then some ((v.toNat >>> f.lsb) % 2 ^ f.width)
    else none

/-- The call is the write that the trigger names. -/
def RegTrigger.fires (t : RegTrigger) (c : DevCall) : Bool := decide (t.field.written c = some t.value)

/-- What an optional field holds after the call. -/
def latch (f : Option RegField) (c : DevCall) (old : Nat) : Nat :=
  match f with
  | none => old
  | some f => (f.written c).getD old

/-- The call's write taken into the DMA registers and the interrupt enable, and an acknowledged completion interrupt
lowered (R31, R193, R194). -/
def Vcop.latchRegisters (r : VcopRegs) (c : DevCall) (v : Vcop) : Vcop :=
  { v with
    dmaMain := latch (r.dma.map (·.main)) c v.dmaMain
    dmaLocal := latch (r.dma.map (·.loc)) c v.dmaLocal
    dmaCount := latch (r.dma.bind (·.count)) c v.dmaCount
    irqEnabled := decide (latch r.irqEnable c v.irqEnabled.toNat ≠ 0)
    irq := v.irq && !(r.acknowledge.any (·.fires c)) }

/-- The direction of the request that the call starts, if it starts one (R194). -/
def DmaLayout.started (l : DmaLayout) (c : DevCall) : Option DmaDir := (l.starts.find? (·.1.fires c)).map (·.2)

/-- The number of bytes of the request in the DMA registers: whole blocks of the layout's fixed size (R194). -/
def DmaLayout.length (l : DmaLayout) (v : Vcop) : Nat := (if l.count.isSome then v.dmaCount else 1) * l.blockSize

/-- One bit of a word set to a value. -/
def setBit (v : Word) (i : Fin 32) (b : Bool) : Word :=
  if b then v ||| (1#32 <<< i.val) else v &&& ~~~(1#32 <<< i.val)

/-- What the status register reads as: the completion bit, the failure bit, and for the rest what the device answers
(R193, R194). -/
def StatusLayout.value (l : StatusLayout) (v : Vcop) (rest : Word) : Word :=
  setBit (setBit rest l.doneBit v.done) l.failBit v.dmaError

/-- The registers that a run leaves, from those before it: as many, each new one cut to the width (R195). -/
def takeRegisters (width : Nat) : List Nat → List Nat → List Nat
  | [], _ => []
  | old, [] => old
  | _ :: old, new :: rest => new % 2 ^ width :: takeRegisters width old rest

/-- What the microcode leaves of the registers and the microcode pointer (R195). -/
def Vcop.withRegisters (v : Vcop) (regs : List Nat) (microPc : Nat) : Vcop :=
  { v with regs := takeRegisters v.regWidth v.regs regs, microPc := microPc }

end Sys2Proof

namespace Sys2Proof.Machine

/-! ## The set W of R207 -/

/-- A number added to a sorted list without repeats. -/
def insertSorted (x : Nat) : List Nat → List Nat
  | [] => [x]
  | y :: ys => if x < y then x :: y :: ys else if x = y then y :: ys else y :: insertSorted x ys

/-- The addresses of the words that `n` bytes at `a` touch. -/
def wordsTouched (a n : Nat) : List Nat :=
  if n = 0 then [] else (List.range ((a + n - 1) / 4 - a / 4 + 1)).map fun i => (a / 4 + i) * 4

/-- These words were written by some agent: with SMC_MODE = Refuse they enter W (R207, log 17). -/
def State.markWords (s : State) (words : List Nat) : State :=
  { s with
    smcW := match s.par.smcMode with
      | .coherent => s.smcW
      | .refuse => words.foldl (fun w x => insertSorted x w) s.smcW }

/-- `n` bytes at `a` were written by some agent. -/
def State.markWritten (s : State) (a n : Nat) : State := s.markWords (wordsTouched a n)

/-- The addresses of the words that show `n` bytes of the local memory at `loc` in a `COPROC_LOCAL` window (R42). -/
def windowWords (map : List Region) (loc n : Nat) : List Nat :=
  map.flatMap fun r =>
    match r.kind with
    | .coprocLocal => wordsTouched (r.base.toNat + loc) (min n (r.size - loc))
    | .ram => []
    | .rom => []
    | .device => []

/-! ## Main memory as bytes -/

/-- `M` of R44 on the direct regions: the byte of a RAM region, or of the ROM window onto the ROM store (R42), where a byte
beyond the image is a free value (R53; log 15). Elsewhere there is no byte of main memory, and the answer is that of an
unlisted address. -/
def State.mainByte (s : State) (a : Nat) : Byte :=
  match resolve s.par.regionMap (BitVec.ofNat 32 a) with
  | none => Memory.unlisted
  | some r =>
    match r.kind with
    | .ram => Memory.read s.mem a
    | .rom =>
      if a - r.base.toNat < s.rom.size then Memory.read s.rom.cells (a - r.base.toNat) else Config.freeByte s.draws a
    | .device => Memory.unlisted
    | .coprocLocal => Memory.unlisted

/-- `n` bytes of main memory from an address on. -/
def State.mainBytes (s : State) (a : Nat) : Nat → List Byte
  | 0 => []
  | n + 1 => s.mainByte a :: State.mainBytes s (a + 1) n

/-! ## The local memory and its windows (R42, R195) -/

/-- The local address behind an address of a `COPROC_LOCAL` window, counted from the window's base (log 31). -/
def State.windowOffset (s : State) (a : Word) : Option Nat :=
  match resolve s.par.regionMap a with
  | none => none
  | some r =>
    match r.kind with
    | .coprocLocal => some (offsetIn r a)
    | .ram => none
    | .rom => none
    | .device => none

/-- `n` bytes at `a` have a byte of the word at `w` among them. -/
def touchesWord (a n w : Nat) : Bool := decide (0 < n) && decide (a < w + 4) && decide (w < a + n)

/-- The word at LLAddr lies in a window and `n` bytes of the local memory at `loc` have a byte of it among them. -/
def State.reservesLocal (s : State) (loc n : Nat) : Bool :=
  match s.windowOffset s.llAddr with
  | none => false
  | some o => touchesWord loc n o

/-- Bytes written to the local memory; the words of the windows that show them enter W (R207, log 17). -/
def State.storeLocal (s : State) (loc : Nat) (bs : List Byte) : State :=
  State.markWords { s with vcop := { s.vcop with localMem := Memory.writeBytes s.vcop.localMem loc bs } }
    (windowWords s.par.regionMap loc bs.length)

/-- A write of the local memory by "a DMA or vector-coprocessor run": the bytes, the `Foreign` of R155, the set W. -/
def State.foreignLocal (s : State) (loc : Nat) (bs : List Byte) : State :=
  { s.storeLocal loc bs with llForeign := s.llForeign || s.reservesLocal loc bs.length }

/-! ## DMA (R194) -/

/-- "its main-memory bytes lie inside one direct region (RAM or ROM to read main memory, RAM only to write it)". A request
of no bytes is in range when its address lies in such a region or at its end: DESIGN CHOICE, log 15. -/
def State.dmaMainInRange (s : State) (dir : DmaDir) (main len : Nat) : Bool :=
  s.par.regionMap.any fun r =>
    decide (r.base.toNat ≤ main) && decide (main + len ≤ r.base.toNat + r.size) &&
      match r.kind with
      | .ram => true
      | .rom => decide (dir = .mainToLocal)
      | .device => false
      | .coprocLocal => false

/-- "its local bytes inside the coprocessor's local memory"; of a request of no bytes, the local address is at most the size
(log 15). -/
def State.dmaLocalInRange (s : State) (loc len : Nat) : Bool := decide (loc + len ≤ s.vcop.localSize)

/-- The request is in range of both address spaces; otherwise it is a `DmaRangeError` (R194). -/
def State.dmaInRange (s : State) (dir : DmaDir) (main loc len : Nat) : Bool :=
  s.dmaMainInRange dir main len && s.dmaLocalInRange loc len

/-- A write of main memory by an agent other than the core: the bytes, the `Foreign` of R155, the set W of R207. -/
def State.foreignWrite (s : State) (a : Nat) (bs : List Byte) : State :=
  State.markWritten
    { s with
      mem := Memory.writeBytes s.mem a bs
      llForeign := s.llForeign || touchesWord a bs.length s.llAddr.toNat }
    a bs.length

/-- What the status register shows of DMA: the latest request failed (R194; log 15). It is no write of the word at LLAddr
(R155; log 19) and enters nothing in W (R207; log 17): DESIGN CHOICE. -/
def State.setDmaError (s : State) (failed : Bool) : State := { s with vcop := { s.vcop with dmaError := failed } }

/-- One DMA request (R194): in range, the bytes are copied; out of range, no byte of either space changes and the status
register reflects the failure. A copy out of main memory advances the counter of free values (log 15). -/
def State.dma (s : State) (dir : DmaDir) (main loc len : Nat) : State :=
  if s.dmaInRange dir main loc len then
    match dir with
    | .mainToLocal =>
      ({ s with draws := s.draws + 1 }.foreignLocal loc (s.mainBytes main len)).setDmaError false
    | .localToMain => (s.foreignWrite main (Memory.readBytes s.vcop.localMem loc len)).setDmaError false
  else s.setDmaError true

/-! ## The coprocessor's registers (`VCOP_REGS`) -/

/-- The call as the coprocessor's registers take it. -/
def State.latchRegisters (s : State) (c : DevCall) : State :=
  { s with vcop := s.vcop.latchRegisters s.par.vcopRegs c }

/-- The request that the call starts through the DMA registers, carried out (R34, R194). -/
def State.registerDma (s : State) (c : DevCall) : State :=
  match s.par.vcopRegs.dma with
  | none => s
  | some l =>
    match l.started c with
    | none => s
    | some dir => s.dma dir s.vcop.dmaMain s.vcop.dmaLocal (l.length s.vcop)

/-! ## Device calls (R55, R56) -/

/-- What a call can be for the coprocessor. -/
inductive CallRole where
  /-- it starts a run: the microcode may do everything R195 lets it -/
  | run
  /-- it may start a DMA request in a way that `VCOP_REGS` does not give -/
  | mayDma
  /-- neither -/
  | plain
  deriving DecidableEq, Repr

/-- The call is the store that starts a run (R193). Where `VCOP_REGS` has no command register none is: DESIGN CHOICE,
log 14. -/
def startsRun (p : Params) (c : DevCall) : Bool := p.vcopRegs.start.any (·.fires c)

/-- The role of a call: where `VCOP_REGS` has DMA registers the core starts a request through them only, and an access to
a `COPROC_LOCAL` window starts none. A read may start one too, and so may the read of an instruction fetch, although R59
says that a fetch changes no memory: DESIGN CHOICE, log 33. -/
def State.callRole (s : State) (c : DevCall) : CallRole :=
  if startsRun s.par c then .run
  else if s.par.vcopRegs.dma.isNone && (s.windowOffset c.addr).isNone then .mayDma
  else .plain

/-- One thing a device does inside a call. The coprocessor's registers, microcode pointer and local memory are "mutated
only while the coprocessor is 'running' a microcode program" (R195), that is, inside a call that starts a run; DMA and the
window's own store (`State.windowStore`) are the two other ways into the local memory. A DMA request made here is of any
number of bytes, not of whole blocks, also where `VCOP_REGS` gives the size of a block: DESIGN CHOICE, log 32. -/
def State.deviceAction (s : State) (role : CallRole) : DevAction → State
  | .dma dir main loc len =>
    match role with
    | .run => s.dma dir main loc len
    | .mayDma => s.dma dir main loc len
    | .plain => s
  | .localByte loc value =>
    match role with
    | .run => if loc < s.vcop.localSize then s.foreignLocal loc [value] else s
    | .mayDma => s
    | .plain => s
  | .registers regs microPc =>
    match role with
    | .run => { s with vcop := s.vcop.withRegisters regs microPc }
    | .mayDma => s
    | .plain => s
  | .clearDone => { s with vcop := { s.vcop with done := false } }
  | .acknowledge =>
    if s.par.vcopRegs.acknowledge.isNone then { s with vcop := { s.vcop with irq := false } } else s

/-- The things a device does inside a call, in order. -/
def State.deviceActions (s : State) (role : CallRole) : List DevAction → State
  | [] => s
  | a :: rest => State.deviceActions (s.deviceAction role a) role rest

/-- The run's interrupt is enabled: by its field of `VCOP_REGS`, or else as the device answers (R193). -/
def State.runIrqEnabled (s : State) (reply : DevReply) : Bool :=
  if s.par.vcopRegs.irqEnable.isSome then s.vcop.irqEnabled else reply.irqEnable

/-- A run has completed (R193): the status bit is set, and the completion interrupt is asserted when it is enabled. That a
register of the coprocessor then shows something else is no write of the word at LLAddr, should LLAddr be that register's
address (R155; log 19), and enters nothing in W (R207; log 17): DESIGN CHOICE. -/
def State.completeRun (s : State) (irqEnable : Bool) : State :=
  { s with vcop := { s.vcop with done := true, irq := s.vcop.irq || irqEnable } }

/-- What the oracle's answer may depend on. -/
def State.deviceContext (s : State) (c : DevCall) : DevContext where
  draw := s.draws
  past := s.dev
  call := c
  vcop := s.vcop
  main := s.mem
  rom := s.rom
  int := s.int

/-- The local address of an access that lies inside the local memory, made through a window. -/
def State.windowAccess (s : State) (c : DevCall) : Option Nat :=
  match s.windowOffset c.addr with
  | none => none
  | some o => if o + bytesOf c.width ≤ s.vcop.localSize then some o else none

/-- What a read answers: in a window the bytes of the local memory, since the handler "performs the access on its own
memory" (R42; big-endian, R43, log 31); at the status register what it shows (R193, R194); elsewhere, what the device
answers (R55). -/
def State.replyValue (s : State) (c : DevCall) (reply : DevReply) : Word :=
  match s.windowAccess c with
  | some o => valueAt s.vcop.localMem o c.width
  | none =>
    match s.par.vcopRegs.status with
    | none => lowBits c.width reply.value
    | some l =>
      if c.addr = l.addr ∧ c.width = .word then l.value s.vcop reply.value else lowBits c.width reply.value

/-- A store through a window: the handler writes its own memory (R42). -/
def State.windowStore (s : State) (c : DevCall) : State :=
  match c.write with
  | none => s
  | some v =>
    match s.windowAccess c with
    | none => s
    | some o => s.storeLocal o (bytesToStore v c.width)

/-- What the spec fixes about a call answered without a fault, before what the device does of its own: the call is on
record, the coprocessor's registers take it, a store through a window is made, and a request that it starts through the
DMA registers is carried out. -/
def State.takeCall (s : State) (c : DevCall) : State :=
  let t := State.latchRegisters { s with dev := c :: s.dev, draws := s.draws + 1 } c
  (t.windowStore c).registerDma c

/-- The state after the device answered a call without a fault: what the spec fixes is done, the device's actions are done
in order, a run it started is complete, and the interrupt inputs are at the levels the device leaves. -/
def State.afterDeviceCall (s : State) (c : DevCall) (reply : DevReply) : State :=
  let t := (s.takeCall c).deviceActions (s.callRole c) reply.actions
  let u := if startsRun s.par c then t.completeRun (t.runIrqEnabled reply) else t
  { u with int := reply.int }

/-- What an access answers: the value read (0 for a write to RAM) and the state after it, or a bus error and the state
after it. The state changes only where a device was called or a byte was written. -/
inductive Access where
  | ok (v : Word) (s : State)
  | busError (s : State)
  deriving DecidableEq, Repr

/-- What a device call leaves when the device answers it with `reply`. A call answered with `DeviceFault` leaves nothing
but its record (log 24). -/
def State.answerCall (s : State) (c : DevCall) (reply : DevReply) : Access :=
  if reply.fault then .busError { s with dev := c :: s.dev, draws := s.draws + 1 }
  else .ok (s.replyValue c reply) (s.afterDeviceCall c reply)

/-- One device call (R55, R56): "exactly one call with the instruction's own address and width". -/
def deviceCall (s : State) (c : DevCall) : Access := s.answerCall c (Config.device (s.deviceContext c))

end Sys2Proof.Machine
end

