-- ==== Sys2Proof/Machine/Flags.lean ====
section
/-! DEFINITION. The hardware has no flags (10_state.md R21): what stands here is every computation that decides
something, the overflow of ADD, ADDI and SUB (40_alu.md R89), the comparisons of the SLT group and of the traps, and the
conditions of the branches; and the exact products and quotients of MULT, MULTU, DIV and DIVU. -/

namespace Sys2Proof.Machine

/-- The integer lies outside -2^31 .. 2^31 - 1 (R89). -/
def overflows (n : Int) : Bool := decide (n < -2 ^ 31) || decide (n > 2 ^ 31 - 1)

/-- `as_signed(a) + as_signed(b)`, exact (R90). -/
def signedSum (a b : Word) : Int := a.toInt + b.toInt
/-- `as_signed(a) - as_signed(b)`, exact (R92). -/
def signedDiff (a b : Word) : Int := a.toInt - b.toInt

/-- `as_signed(a) < as_signed(b)` (R98). -/
def ltSigned (a b : Word) : Bool := decide (a.toInt < b.toInt)
/-- `as_unsigned(a) < as_unsigned(b)` (R99). -/
def ltUnsigned (a b : Word) : Bool := decide (a.toNat < b.toNat)
/-- `if c then 1 else 0`, as a word (R98). -/
def boolWord (c : Bool) : Word := if c then 1#32 else 0#32

/-- `as_signed(a) < 0` (R134). -/
def isNegative (a : Word) : Bool := decide (a.toInt < 0)
/-- `as_signed(a) <= 0` (R132). -/
def isNotPositive (a : Word) : Bool := decide (a.toInt ≤ 0)

/-! ## Multiply and divide (R114..R117): the pair (HI, LO) -/

/-- MULT: the exact signed product. -/
def mulSigned (a b : Word) : Word × Word :=
  let p := BitVec.ofInt 64 (a.toInt * b.toInt)
  (p.extractLsb' 32 32, p.extractLsb' 0 32)

/-- MULTU: the exact unsigned product. -/
def mulUnsigned (a b : Word) : Word × Word :=
  let p := BitVec.ofNat 64 (a.toNat * b.toNat)
  (p.extractLsb' 32 32, p.extractLsb' 0 32)

/-- DIV: quotient truncated toward zero in LO, remainder with the sign of the dividend in HI; the configuration's
values when the divisor is 0 (R89, R116). -/
def divSigned (a b : Word) : Word × Word :=
  if b = 0#32 then Config.div0S a
  else
    let q := a.toInt.tdiv b.toInt
    (BitVec.ofInt 32 (a.toInt - q * b.toInt), BitVec.ofInt 32 q)

/-- DIVU: floor division; the configuration's values when the divisor is 0 (R89, R117). -/
def divUnsigned (a b : Word) : Word × Word :=
  if b = 0#32 then Config.div0U a
  else (BitVec.ofNat 32 (a.toNat % b.toNat), BitVec.ofNat 32 (a.toNat / b.toNat))

end Sys2Proof.Machine
end

