-- ==== Sys2Proof/Machine/Ops.lean ====
section
/-! DEFINITION. The shared operations: the access primitives `MemRead`, `MemWrite` (20_memory.md R57, R58), advancing the
program counters (10_state.md R33 step 5), taking an exception (60_exceptions.md R180) and the return from one
(43_system_cop.md R174), and the shapes the meanings share. -/

namespace Sys2Proof.Machine

/-- What a meaning answers. -/
abbrev Result := Host.Outcome State Fault Refusal

/-! ## Accesses -/

/-- `MemRead(a, n)` (R57); the instruction has checked the alignment. -/
def memRead (s : State) (a : Word) (w : Width) : Access :=
  match resolve s.par.regionMap a with
  | none => .busError s
  | some r =>
    match r.kind with
    | .ram => .ok (valueAt s.mem a.toNat w) s
    | .rom =>
      if offsetIn r a + bytesOf w > s.rom.size then .busError s else .ok (valueAt s.rom.cells (offsetIn r a) w) s
    | .device => deviceCall s { addr := a, width := w, write := none }
    | .coprocLocal => deviceCall s { addr := a, width := w, write := none }

/-- Bytes the core stores to a RAM region (R44, R58), with the set W of R207. -/
def State.storeRam (s : State) (a : Nat) (bs : List Byte) : State :=
  State.markWritten { s with mem := Memory.writeBytes s.mem a bs } a bs.length

/-- A whole access written to a dispatch region (R56, R58): one device call, and the word counts as written. -/
def deviceWrite (s : State) (a : Word) (w : Width) (v : Word) : Access :=
  match deviceCall s { addr := a, width := w, write := some (lowBits w v) } with
  | .busError t => .busError t
  | .ok x t => .ok x (t.markWritten a.toNat (bytesOf w))

/-- `MemWrite(a, n, v)` (R58): a store to ROM, or to no region, is a bus error and changes no byte (R54). -/
def memWrite (s : State) (a : Word) (w : Width) (v : Word) : Access :=
  match resolve s.par.regionMap a with
  | none => .busError s
  | some r =>
    match r.kind with
    | .ram => .ok 0#32 (s.storeRam a.toNat (bytesToStore v w))
    | .rom => .busError s
    | .device => deviceWrite s a w v
    | .coprocLocal => deviceWrite s a w v

/-! ## Advancing (R33 step 5) -/

/-- `PC <- NPC; NPC <- (if taken then target else NPC + 4); DELAY <- ...`. When the instruction is the delay slot of a
taken transfer, the transfer's target becomes PC here, and W is cleared (R207). -/
def State.sequence (s : State) (isTransfer taken : Bool) (target : Word) : State :=
  { s with
    pc := s.npc
    npc := if taken then target else s.npc + 4
    delay := isTransfer
    taken := taken
    smcW := if s.taken then [] else s.smcW }

/-- Step 5 after an instruction that is no control transfer. -/
def State.advance (s : State) : State := s.sequence false false 0#32

/-- Step 5 after a control transfer, taken or not. -/
def State.transfer (s : State) (taken : Bool) (target : Word) : State := s.sequence true taken target

/-! ## Exceptions (R178, R180) -/

/-- The causes of an exception, with what is recorded besides EPC (R178). -/
inductive Exn where
  | int
  | adEL (addr : Word)
  | adES (addr : Word)
  | ibe
  | dbe
  | sys
  | bp
  | ri
  | cpu (z : BitVec 2)
  | ov
  | tr
  deriving DecidableEq, Repr

/-- The cause codes (R178). -/
def Exn.code : Exn → BitVec 5
  | .int => 0#5
  | .adEL _ => 4#5
  | .adES _ => 5#5
  | .ibe => 6#5
  | .dbe => 7#5
  | .sys => 8#5
  | .bp => 9#5
  | .ri => 10#5
  | .cpu _ => 11#5
  | .ov => 12#5
  | .tr => 13#5

/-- Cause.CE: the coprocessor number of CpU, 0 for every other cause (R180). -/
def Exn.ce : Exn → BitVec 2
  | .cpu z => z
  | _ => 0#2

/-- The address an address error records in BadVAddr (R180). -/
def Exn.badAddr : Exn → Option Word
  | .adEL a => some a
  | .adES a => some a
  | _ => none

/-- The address saved in EPC: the victim's, or one word earlier when the victim is in a delay slot (R180, R182). -/
def State.victim (s : State) : Word := if s.delay then s.pc - 4 else s.pc

/-- Status[5:0] <- {Status[3:0], 0b00} (R180). -/
def Status.push (t : Status) : Status := { t with kuie := t.kuie.extractLsb' 0 4 ++ 0#2 }

/-- Status[3:0] <- Status[5:2], bits 5:4 unchanged (R174). -/
def Status.pop (t : Status) : Status := { t with kuie := t.kuie.extractLsb' 4 2 ++ t.kuie.extractLsb' 2 4 }

/-- The state exception entry leaves (R180); W is cleared (R207). -/
def State.enter (s : State) (e : Exn) : State :=
  { s with
    epc := s.victim
    cause := { bd := s.delay, ce := e.ce, ip := s.cause.ip, excCode := e.code }
    badVAddr := e.badAddr.getD s.badVAddr
    status := s.status.push
    llbit := false
    pc := s.par.excVector
    npc := s.par.excVector + 4
    delay := false
    taken := false
    smcW := [] }

/-- `TakeException(E, info)` (R180). `atFetch` says that E is AdEL or IBE and came from `Fetch(PC)`: such a fault at
EXC_VECTOR is a double fault (R183). -/
def takeException (e : Exn) (atFetch : Bool) (s : State) : Result :=
  if atFetch && decide (s.pc = s.par.excVector) then .fault .doubleFault else .next (s.enter e)

/-- `raise E(info)` of an instruction (R9): the current instruction is abandoned for the exception entry. -/
def raise (e : Exn) (s : State) : Result := takeException e false s

/-- The effect of RFE (R174): the status stack is popped and the reservation is lost. -/
def State.returnFromException (s : State) : State := { s with status := s.status.pop, llbit := false }

/-! ## The shapes the meanings share -/

/-- An instruction that writes one register and goes on. -/
def writeResult (r : RegIdx) (v : Word) (s : State) : Result := .next (s.setReg r v).advance

/-- The exact signed result is written, or Ov is raised and nothing is written (R89, R90). -/
def writeOrOverflow (r : RegIdx) (n : Int) (s : State) : Result :=
  if overflows n then raise .ov s else writeResult r (BitVec.ofInt 32 n) s

/-- HI and LO are written from a pair (HI, LO). -/
def writeHiLo (p : Word × Word) (s : State) : Result := .next (State.advance { s with hi := p.1, lo := p.2 })

/-- Tr is raised when the condition holds; otherwise the instruction does nothing (R160..R171). -/
def trapWhen (c : Bool) (s : State) : Result := if c then raise .tr s else .next s.advance

/-- The check of R33 before a control transfer is executed: one in a delay slot has no meaning (R124). -/
def unlessInSlot (s : State) (r : Result) : Result :=
  if s.delay then .fault (.unpredictable .branchInDelaySlot) else r

/-- A control transfer that writes no register. -/
def branchWhen (taken : Bool) (target : Word) (s : State) : Result :=
  unlessInSlot s (.next (s.transfer taken target))

/-- A control transfer that writes its link register with PC + 8, taken or not (R125). -/
def linkAndBranch (link : RegIdx) (taken : Bool) (target : Word) (s : State) : Result :=
  unlessInSlot s (.next ((s.setReg link s.linkValue).transfer taken target))

/-- A load (R139): the alignment is checked, the access is made, and the destination is written from the value read. -/
def loadAligned (w : Width) (extend : Word → Word) (rt : RegIdx) (ea : Word) (s : State) : Result :=
  if alignedTo ea w then
    match memRead s ea w with
    | .busError t => raise .dbe t
    | .ok v t => writeResult rt (extend v) t
  else raise (.adEL ea) s

/-- A store (R139): the alignment is checked, then the access is made. -/
def storeAligned (w : Width) (v : Word) (ea : Word) (s : State) : Result :=
  if alignedTo ea w then
    match memWrite s ea w v with
    | .busError t => raise .dbe t
    | .ok _ t => .next t.advance
  else raise (.adES ea) s

/-- The aligned word at the base of `ea` is read and merged with the old destination (R146, R147). -/
def loadMerged (merge : Word → Word) (rt : RegIdx) (ea : Word) (s : State) : Result :=
  match memRead s (wordBase ea) .word with
  | .busError t => raise .dbe t
  | .ok v t => writeResult rt (merge v) t

/-- Some bytes of one word are stored from `a` on (R151, R152): RAM only; a store to no region or to ROM is a bus error,
and a partial store to a dispatch region has no meaning (R153). -/
def storePart (a : Word) (bs : List Byte) (s : State) : Result :=
  match resolve s.par.regionMap (wordBase a) with
  | none => raise .dbe s
  | some r =>
    match r.kind with
    | .ram => .next (s.storeRam a.toNat bs).advance
    | .rom => raise .dbe s
    | .device => .fault (.unpredictable .partialDeviceStore)
    | .coprocLocal => .fault (.unpredictable .partialDeviceStore)

end Sys2Proof.Machine
end

