-- ==== Sys2Proof/Machine/Alu.lean ====
section
/-! DEFINITION. Arithmetic and logic (40_alu.md R88..R107). Every meaning reads its sources before it writes. -/

namespace Sys2Proof.Machine

/-! ## Register form -/

/-- ADD (R90). -/
def execAdd (rd rs rt : RegIdx) (s : State) : Result := writeOrOverflow rd (signedSum (s.reg rs) (s.reg rt)) s
/-- ADDU (R91). -/
def execAddu (rd rs rt : RegIdx) (s : State) : Result := writeResult rd (s.reg rs + s.reg rt) s
/-- SUB (R92). -/
def execSub (rd rs rt : RegIdx) (s : State) : Result := writeOrOverflow rd (signedDiff (s.reg rs) (s.reg rt)) s
/-- SUBU (R93). -/
def execSubu (rd rs rt : RegIdx) (s : State) : Result := writeResult rd (s.reg rs - s.reg rt) s
/-- AND (R94). -/
def execAnd (rd rs rt : RegIdx) (s : State) : Result := writeResult rd (s.reg rs &&& s.reg rt) s
/-- OR (R95). -/
def execOr (rd rs rt : RegIdx) (s : State) : Result := writeResult rd (s.reg rs ||| s.reg rt) s
/-- XOR (R96). -/
def execXor (rd rs rt : RegIdx) (s : State) : Result := writeResult rd (s.reg rs ^^^ s.reg rt) s
/-- NOR (R97). -/
def execNor (rd rs rt : RegIdx) (s : State) : Result := writeResult rd (~~~(s.reg rs ||| s.reg rt)) s
/-- SLT (R98). -/
def execSlt (rd rs rt : RegIdx) (s : State) : Result := writeResult rd (boolWord (ltSigned (s.reg rs) (s.reg rt))) s
/-- SLTU (R99). -/
def execSltu (rd rs rt : RegIdx) (s : State) : Result := writeResult rd (boolWord (ltUnsigned (s.reg rs) (s.reg rt))) s

/-! ## Immediate form -/

/-- ADDI (R100). -/
def execAddi (rt rs : RegIdx) (imm : BitVec 16) (s : State) : Result :=
  writeOrOverflow rt (signedSum (s.reg rs) (simm imm)) s
/-- ADDIU (R101). -/
def execAddiu (rt rs : RegIdx) (imm : BitVec 16) (s : State) : Result := writeResult rt (s.reg rs + simm imm) s
/-- SLTI (R102). -/
def execSlti (rt rs : RegIdx) (imm : BitVec 16) (s : State) : Result :=
  writeResult rt (boolWord (ltSigned (s.reg rs) (simm imm))) s
/-- SLTIU (R103): the immediate is sign-extended, then compared unsigned. -/
def execSltiu (rt rs : RegIdx) (imm : BitVec 16) (s : State) : Result :=
  writeResult rt (boolWord (ltUnsigned (s.reg rs) (simm imm))) s
/-- ANDI (R104). -/
def execAndi (rt rs : RegIdx) (imm : BitVec 16) (s : State) : Result := writeResult rt (s.reg rs &&& zimm imm) s
/-- ORI (R105). -/
def execOri (rt rs : RegIdx) (imm : BitVec 16) (s : State) : Result := writeResult rt (s.reg rs ||| zimm imm) s
/-- XORI (R106). -/
def execXori (rt rs : RegIdx) (imm : BitVec 16) (s : State) : Result := writeResult rt (s.reg rs ^^^ zimm imm) s
/-- LUI (R107). -/
def execLui (rt : RegIdx) (imm : BitVec 16) (s : State) : Result := writeResult rt (uimm imm) s

end Sys2Proof.Machine
end

