-- ==== Sys2Proof/Machine/Control.lean ====
section
/-! DEFINITION. Jumps and branches (41_control.md R122..R137). Each answers `branchInDelaySlot` when it stands in a delay
slot (R124), before it does anything. -/

namespace Sys2Proof.Machine

/-- J (R126). -/
def execJ (target : BitVec 26) (s : State) : Result := branchWhen true (s.jumpTarget target) s
/-- JAL (R127). -/
def execJal (target : BitVec 26) (s : State) : Result := linkAndBranch ra true (s.jumpTarget target) s
/-- JR (R128). -/
def execJr (rs : RegIdx) (s : State) : Result := branchWhen true (s.reg rs) s
/-- JALR (R129): rs = rd has no meaning; the target is read before the link is written. -/
def execJalr (rd rs : RegIdx) (s : State) : Result :=
  unlessInSlot s
    (if rs = rd then .fault (.unpredictable .jalrSameRegister) else linkAndBranch rd true (s.reg rs) s)
/-- BEQ (R130). -/
def execBeq (rs rt : RegIdx) (imm : BitVec 16) (s : State) : Result :=
  branchWhen (decide (s.reg rs = s.reg rt)) (s.branchTarget imm) s
/-- BNE (R131). -/
def execBne (rs rt : RegIdx) (imm : BitVec 16) (s : State) : Result :=
  branchWhen (decide (s.reg rs ≠ s.reg rt)) (s.branchTarget imm) s
/-- BLEZ (R132). -/
def execBlez (rs : RegIdx) (imm : BitVec 16) (s : State) : Result :=
  branchWhen (isNotPositive (s.reg rs)) (s.branchTarget imm) s
/-- BGTZ (R133). -/
def execBgtz (rs : RegIdx) (imm : BitVec 16) (s : State) : Result :=
  branchWhen (!isNotPositive (s.reg rs)) (s.branchTarget imm) s
/-- BLTZ (R134). -/
def execBltz (rs : RegIdx) (imm : BitVec 16) (s : State) : Result :=
  branchWhen (isNegative (s.reg rs)) (s.branchTarget imm) s
/-- BGEZ (R135). -/
def execBgez (rs : RegIdx) (imm : BitVec 16) (s : State) : Result :=
  branchWhen (!isNegative (s.reg rs)) (s.branchTarget imm) s
/-- BLTZAL (R136): rs = 31 has no meaning; the link is written whether or not the branch is taken. -/
def execBltzal (rs : RegIdx) (imm : BitVec 16) (s : State) : Result :=
  unlessInSlot s
    (if rs = ra then .fault (.unpredictable .linkSourceClash)
     else linkAndBranch ra (isNegative (s.reg rs)) (s.branchTarget imm) s)
/-- BGEZAL (R137). -/
def execBgezal (rs : RegIdx) (imm : BitVec 16) (s : State) : Result :=
  unlessInSlot s
    (if rs = ra then .fault (.unpredictable .linkSourceClash)
     else linkAndBranch ra (!isNegative (s.reg rs)) (s.branchTarget imm) s)

end Sys2Proof.Machine
end

