-- ==== Sys2Proof/Machine/Cop.lean ====
section
/-! DEFINITION. Coprocessor 0 (43_system_cop.md R172..R174) and the encodings of the coprocessors 1 to 3, which are
unusable whatever Status.CU holds (R175). -/

namespace Sys2Proof.Machine

/-! ## Coprocessor 0 -/

/-- The value a CP0 number reads as; none for an unimplemented number (R22, R28, R172). -/
def State.cp0Read (s : State) (n : RegIdx) : Option Word :=
  if n = 8#5 then some s.badVAddr
  else if n = 12#5 then some s.status.toWord
  else if n = 13#5 then some s.causeWord
  else if n = 14#5 then some s.epc
  else if n = 15#5 then some s.par.prid
  else none

/-- The state after a CP0 number is written; none for an unimplemented number (R23..R28, R173). Status takes its
implemented bits, Cause only IP[1:0], BadVAddr and PRId nothing. -/
def State.cp0Write (s : State) (n : RegIdx) (v : Word) : Option State :=
  if n = 12#5 then some { s with status := Status.ofWord v }
  else if n = 13#5 then some { s with cause := { s.cause with ip := v.extractLsb' 8 2 } }
  else if n = 14#5 then some { s with epc := v }
  else if n = 8#5 then some s
  else if n = 15#5 then some s
  else none

/-- MFC0 (R172). -/
def execMfc0 (rt rd : RegIdx) (s : State) : Result :=
  match s.cp0Read rd with
  | some v => writeResult rt v s
  | none => .fault (.unpredictable .unimplementedCp0)
/-- MTC0 (R173): the new value governs the very next step. -/
def execMtc0 (rt rd : RegIdx) (s : State) : Result :=
  match s.cp0Write rd (s.reg rt) with
  | some t => .next t.advance
  | none => .fault (.unpredictable .unimplementedCp0)
/-- RFE (R174). -/
def execRfe (s : State) : Result := .next s.returnFromException.advance

/-! ## Coprocessors 1 to 3 (R175): CpU with Cause.CE = z, and no access -/

/-- COP1 (R175). -/
def execCop1 (s : State) : Result := raise (.cpu 1#2) s
/-- COP2 (R175). -/
def execCop2 (s : State) : Result := raise (.cpu 2#2) s
/-- COP3 (R175). -/
def execCop3 (s : State) : Result := raise (.cpu 3#2) s
/-- LWC1 (R175). -/
def execLwc1 (s : State) : Result := raise (.cpu 1#2) s
/-- LWC2 (R175). -/
def execLwc2 (s : State) : Result := raise (.cpu 2#2) s
/-- LWC3 (R175). -/
def execLwc3 (s : State) : Result := raise (.cpu 3#2) s
/-- LDC1 (R175). -/
def execLdc1 (s : State) : Result := raise (.cpu 1#2) s
/-- LDC2 (R175). -/
def execLdc2 (s : State) : Result := raise (.cpu 2#2) s
/-- LDC3 (R175). -/
def execLdc3 (s : State) : Result := raise (.cpu 3#2) s
/-- SWC1 (R175). -/
def execSwc1 (s : State) : Result := raise (.cpu 1#2) s
/-- SWC2 (R175). -/
def execSwc2 (s : State) : Result := raise (.cpu 2#2) s
/-- SWC3 (R175). -/
def execSwc3 (s : State) : Result := raise (.cpu 3#2) s
/-- SDC1 (R175). -/
def execSdc1 (s : State) : Result := raise (.cpu 1#2) s
/-- SDC2 (R175). -/
def execSdc2 (s : State) : Result := raise (.cpu 2#2) s
/-- SDC3 (R175). -/
def execSdc3 (s : State) : Result := raise (.cpu 3#2) s

end Sys2Proof.Machine
end

