-- ==== Sys2Proof/Machine/LoadStore.lean ====
section
/-! DEFINITION. Loads, stores, LL, SC and SYNC (42_loadstore.md R139..R156). -/

namespace Sys2Proof.Machine

/-! ## Extension and merging -/

/-- `sext_32` of a byte read. -/
def signByte (v : Word) : Word := (v.extractLsb' 0 8).signExtend 32
/-- `sext_32` of a halfword read. -/
def signHalf (v : Word) : Word := (v.extractLsb' 0 16).signExtend 32
/-- LWL's result (R146): `(W << 8k) | (x[rt] & ((1 << 8k) - 1))`. -/
def mergeLeft (k : BitVec 2) (old w : Word) : Word :=
  (w <<< (8 * k.toNat)) ||| (old &&& ((1#32 <<< (8 * k.toNat)) - 1#32))
/-- LWR's result (R147), with `s = 8 * (3 - k)`: `(x[rt] & ~(0xFFFFFFFF >> s)) | (W >> s)`. -/
def mergeRight (k : BitVec 2) (old w : Word) : Word :=
  (old &&& ~~~(0xFFFFFFFF#32 >>> (8 * (3 - k.toNat)))) ||| (w >>> (8 * (3 - k.toNat)))

/-! ## Loads -/

/-- LB (R141). -/
def execLb (rt : RegIdx) (imm : BitVec 16) (rs : RegIdx) (s : State) : Result :=
  loadAligned .byte signByte rt (s.ea rs imm) s
/-- LBU (R142). -/
def execLbu (rt : RegIdx) (imm : BitVec 16) (rs : RegIdx) (s : State) : Result :=
  loadAligned .byte id rt (s.ea rs imm) s
/-- LH (R143). -/
def execLh (rt : RegIdx) (imm : BitVec 16) (rs : RegIdx) (s : State) : Result :=
  loadAligned .half signHalf rt (s.ea rs imm) s
/-- LHU (R144). -/
def execLhu (rt : RegIdx) (imm : BitVec 16) (rs : RegIdx) (s : State) : Result :=
  loadAligned .half id rt (s.ea rs imm) s
/-- LW (R145). -/
def execLw (rt : RegIdx) (imm : BitVec 16) (rs : RegIdx) (s : State) : Result :=
  loadAligned .word id rt (s.ea rs imm) s
/-- LWL (R146). -/
def execLwl (rt : RegIdx) (imm : BitVec 16) (rs : RegIdx) (s : State) : Result :=
  loadMerged (mergeLeft (byteInWord (s.ea rs imm)) (s.reg rt)) rt (s.ea rs imm) s
/-- LWR (R147). -/
def execLwr (rt : RegIdx) (imm : BitVec 16) (rs : RegIdx) (s : State) : Result :=
  loadMerged (mergeRight (byteInWord (s.ea rs imm)) (s.reg rt)) rt (s.ea rs imm) s

/-! ## Stores -/

/-- SB (R148). -/
def execSb (rt : RegIdx) (imm : BitVec 16) (rs : RegIdx) (s : State) : Result :=
  storeAligned .byte (s.reg rt) (s.ea rs imm) s
/-- SH (R149). -/
def execSh (rt : RegIdx) (imm : BitVec 16) (rs : RegIdx) (s : State) : Result :=
  storeAligned .half (s.reg rt) (s.ea rs imm) s
/-- SW (R150). -/
def execSw (rt : RegIdx) (imm : BitVec 16) (rs : RegIdx) (s : State) : Result :=
  storeAligned .word (s.reg rt) (s.ea rs imm) s
/-- SWL (R151): the 4 - k most significant bytes of x[rt] go to ea and up; with k = 0 it is a whole word's store. -/
def execSwl (rt : RegIdx) (imm : BitVec 16) (rs : RegIdx) (s : State) : Result :=
  let ea := s.ea rs imm
  let k := byteInWord ea
  if k = 0#2 then storeAligned .word (s.reg rt) (wordBase ea) s
  else storePart ea ((bytesToStore (s.reg rt) .word).take (4 - k.toNat)) s
/-- SWR (R152): the k + 1 least significant bytes of x[rt] go to A .. ea; with k = 3 it is a whole word's store. -/
def execSwr (rt : RegIdx) (imm : BitVec 16) (rs : RegIdx) (s : State) : Result :=
  let ea := s.ea rs imm
  let k := byteInWord ea
  if k = 3#2 then storeAligned .word (s.reg rt) (wordBase ea) s
  else storePart (wordBase ea) ((bytesToStore (s.reg rt) .word).drop (3 - k.toNat)) s

/-! ## LL, SC, SYNC -/

/-- The reservation LL makes (R154). -/
def State.reserve (s : State) (ea : Word) : State := { s with llbit := true, llAddr := ea, llForeign := false }

/-- LL (R154). -/
def execLl (rt : RegIdx) (imm : BitVec 16) (rs : RegIdx) (s : State) : Result :=
  let ea := s.ea rs imm
  if alignedTo ea .word then
    match memRead s ea .word with
    | .busError t => raise .dbe t
    | .ok v t => writeResult rt v (t.reserve ea)
  else raise (.adEL ea) s

/-- SC's success bit (R155), and the state after a draw where the spec makes one (log 11). -/
def State.scSuccess (s : State) (ea : Word) : Bool × State :=
  if s.llbit then
    if ea = s.llAddr ∧ s.llForeign = false then (true, s)
    else (Config.freeBit s.draws, { s with draws := s.draws + 1 })
  else (false, s)

/-- `x[rt] <- ok; LLbit <- 0` (R155). -/
def scFinish (rt : RegIdx) (ok : Bool) (s : State) : Result :=
  writeResult rt (boolWord ok) { s with llbit := false }

/-- SC (R155). -/
def execSc (rt : RegIdx) (imm : BitVec 16) (rs : RegIdx) (s : State) : Result :=
  let ea := s.ea rs imm
  if alignedTo ea .word then
    if (s.scSuccess ea).1 then
      match memWrite (s.scSuccess ea).2 ea .word (s.reg rt) with
      | .busError t => raise .dbe t
      | .ok _ t => scFinish rt true t
    else scFinish rt false (s.scSuccess ea).2
  else raise (.adES ea) s

/-- SYNC (R156): no operation. -/
def execSync (_stype : BitVec 5) (s : State) : Result := .next s.advance

end Sys2Proof.Machine
end

