-- ==== Sys2Proof/Machine/MulDiv.lean ====
section
/-! DEFINITION. Multiply, divide, and the moves of HI and LO (40_alu.md R114..R121). -/

namespace Sys2Proof.Machine

/-- MULT (R114). -/
def execMult (rs rt : RegIdx) (s : State) : Result := writeHiLo (mulSigned (s.reg rs) (s.reg rt)) s
/-- MULTU (R115). -/
def execMultu (rs rt : RegIdx) (s : State) : Result := writeHiLo (mulUnsigned (s.reg rs) (s.reg rt)) s
/-- DIV (R116). -/
def execDiv (rs rt : RegIdx) (s : State) : Result := writeHiLo (divSigned (s.reg rs) (s.reg rt)) s
/-- DIVU (R117). -/
def execDivu (rs rt : RegIdx) (s : State) : Result := writeHiLo (divUnsigned (s.reg rs) (s.reg rt)) s
/-- MFHI (R118). -/
def execMfhi (rd : RegIdx) (s : State) : Result := writeResult rd s.hi s
/-- MFLO (R119). -/
def execMflo (rd : RegIdx) (s : State) : Result := writeResult rd s.lo s
/-- MTHI (R120). -/
def execMthi (rs : RegIdx) (s : State) : Result := writeHiLo (s.reg rs, s.lo) s
/-- MTLO (R121). -/
def execMtlo (rs : RegIdx) (s : State) : Result := writeHiLo (s.hi, s.reg rs) s

end Sys2Proof.Machine
end

