-- ==== Sys2Proof/Machine/Shift.lean ====
section
/-! DEFINITION. Shifts (40_alu.md R108..R113). -/

namespace Sys2Proof.Machine

/-- SLL (R108). -/
def execSll (rd rt : RegIdx) (sa : BitVec 5) (s : State) : Result := writeResult rd (s.reg rt <<< sa.toNat) s
/-- SRL (R109). -/
def execSrl (rd rt : RegIdx) (sa : BitVec 5) (s : State) : Result := writeResult rd (s.reg rt >>> sa.toNat) s
/-- SRA (R110). -/
def execSra (rd rt : RegIdx) (sa : BitVec 5) (s : State) : Result := writeResult rd ((s.reg rt).sshiftRight sa.toNat) s
/-- SLLV (R111). -/
def execSllv (rd rt rs : RegIdx) (s : State) : Result := writeResult rd (s.reg rt <<< varShift (s.reg rs)) s
/-- SRLV (R112). -/
def execSrlv (rd rt rs : RegIdx) (s : State) : Result := writeResult rd (s.reg rt >>> varShift (s.reg rs)) s
/-- SRAV (R113). -/
def execSrav (rd rt rs : RegIdx) (s : State) : Result :=
  writeResult rd ((s.reg rt).sshiftRight (varShift (s.reg rs))) s

end Sys2Proof.Machine
end

