-- ==== Sys2Proof/Machine/System.lean ====
section
/-! DEFINITION. System calls, breakpoints and the conditional traps (43_system_cop.md R157..R171). Their code fields are
ignored by the hardware. -/

namespace Sys2Proof.Machine

/-- SYSCALL (R158). -/
def execSyscall (_code : BitVec 20) (s : State) : Result := raise .sys s
/-- BREAK (R159). -/
def execBrk (_code : BitVec 20) (s : State) : Result := raise .bp s

/-- TGE (R160). -/
def execTge (rs rt : RegIdx) (_code : BitVec 10) (s : State) : Result :=
  trapWhen (!ltSigned (s.reg rs) (s.reg rt)) s
/-- TGEU (R161). -/
def execTgeu (rs rt : RegIdx) (_code : BitVec 10) (s : State) : Result :=
  trapWhen (!ltUnsigned (s.reg rs) (s.reg rt)) s
/-- TLT (R162). -/
def execTlt (rs rt : RegIdx) (_code : BitVec 10) (s : State) : Result := trapWhen (ltSigned (s.reg rs) (s.reg rt)) s
/-- TLTU (R163). -/
def execTltu (rs rt : RegIdx) (_code : BitVec 10) (s : State) : Result :=
  trapWhen (ltUnsigned (s.reg rs) (s.reg rt)) s
/-- TEQ (R164). -/
def execTeq (rs rt : RegIdx) (_code : BitVec 10) (s : State) : Result :=
  trapWhen (decide (s.reg rs = s.reg rt)) s
/-- TNE (R165). -/
def execTne (rs rt : RegIdx) (_code : BitVec 10) (s : State) : Result :=
  trapWhen (decide (s.reg rs ≠ s.reg rt)) s

/-- TGEI (R166). -/
def execTgei (rs : RegIdx) (imm : BitVec 16) (s : State) : Result := trapWhen (!ltSigned (s.reg rs) (simm imm)) s
/-- TGEIU (R167): the immediate is sign-extended, then compared unsigned. -/
def execTgeiu (rs : RegIdx) (imm : BitVec 16) (s : State) : Result := trapWhen (!ltUnsigned (s.reg rs) (simm imm)) s
/-- TLTI (R168). -/
def execTlti (rs : RegIdx) (imm : BitVec 16) (s : State) : Result := trapWhen (ltSigned (s.reg rs) (simm imm)) s
/-- TLTIU (R169). -/
def execTltiu (rs : RegIdx) (imm : BitVec 16) (s : State) : Result := trapWhen (ltUnsigned (s.reg rs) (simm imm)) s
/-- TEQI (R170). -/
def execTeqi (rs : RegIdx) (imm : BitVec 16) (s : State) : Result := trapWhen (decide (s.reg rs = simm imm)) s
/-- TNEI (R171). -/
def execTnei (rs : RegIdx) (imm : BitVec 16) (s : State) : Result := trapWhen (decide (s.reg rs ≠ simm imm)) s

end Sys2Proof.Machine
end

