-- ==== Sys2Proof/Machine/Cycle.lean ====
section
/-! DEFINITION. The parts of the step cycle (10_state.md R33): interrupt sampling (60_exceptions.md R184), the fetch
(20_memory.md R59), and the step of a running core. `Step.lean` only calls them. -/

namespace Sys2Proof.Machine

/-- `Status.IEc = 1 and (Cause.IP[7:0] & Status.IM[7:0]) != 0` (R184). -/
def State.interruptPending (s : State) : Bool := s.status.iec && decide (s.ip &&& s.status.im ≠ 0#8)

/-- `IsControlTransfer(d)` (R33): "true for J, JAL, JR, JALR, BEQ, BNE, BLEZ, BGTZ, BLTZ, BGEZ, BLTZAL, BGEZAL and false
for every other instruction". -/
def isControlTransfer : Instr → Bool
  | .j _ | .jal _ | .jr _ | .jalr _ _ | .beq _ _ _ | .bne _ _ _ | .blez _ _ | .bgtz _ _ => true
  | .bltz _ _ | .bgez _ _ | .bltzal _ _ | .bgezal _ _ => true
  | _ => false

/-- What `Fetch(PC)` answers: the word, the exception it raises (R59), or the stop of R207. Each of the first two
carries the state after the fetch, which differs from the state before only where a device was called. -/
inductive Fetched where
  | word (w : Word) (s : State)
  | error (e : Exn) (s : State)
  | stale
  deriving DecidableEq, Repr

/-- The address of the next fetch is in the set W (R207). -/
def State.fetchIsStale (s : State) : Bool := decide (s.par.smcMode = .refuse) && s.smcW.contains s.pc.toNat

/-- `Fetch(PC)` (R59), with the stop of R207 when SMC_MODE = Refuse. The device call of a fetch from a dispatch region has
the effects of any device read, a DMA write of RAM among them: DESIGN CHOICE, log 33. -/
def fetch (s : State) : Fetched :=
  if alignedTo s.pc .word then
    if s.fetchIsStale then .stale
    else
      match memRead s s.pc .word with
      | .busError t => .error .ibe t
      | .ok w t => .word w t
  else .error (.adEL s.pc) s

/-- Decode and execute a fetched word (R33 steps 3 to 5): a Reserved word raises RI (R81). -/
def execWord (w : Word) (s : State) : Result :=
  match decode w with
  | .instr i => exec i s
  | .reserved => raise .ri s
  | .truncated => raise .ri s

/-- One step of a running core (R33). The device call of a fetch from a dispatch region is made before the instruction is
decoded (R62), and what it did stays done when that instruction then raises: DESIGN CHOICE, log 30 (R180 and R181 can be
read otherwise). When the instruction stops, log 27. -/
def stepRunning (s : State) : Result :=
  if s.interruptPending then takeException .int false s
  else
    match fetch s with
    | .stale => .fault (.unpredictable .staleCode)
    | .error e t => takeException e true t
    | .word w t => execWord w t

/-- The word stored where the next fetch reads it: in the RAM region, or in the ROM store behind the ROM window, that
contains PC; and PC taken out of the set W (R207). Where PC is in neither, nothing can be stored for the fetch. -/
def State.placeWord (s : State) (w : Word) : State :=
  let t : State := { s with smcW := s.smcW.filter fun x => x != s.pc.toNat }
  match resolve s.par.regionMap s.pc with
  | none => t
  | some r =>
    match r.kind with
    | .ram => { t with mem := storeValue s.mem s.pc.toNat .word w }
    | .rom =>
      { t with
        rom := { cells := storeValue s.rom.cells (offsetIn r s.pc) .word w,
                 size := max s.rom.size (offsetIn r s.pc + 4) } }
    | .device => t
    | .coprocLocal => t

end Sys2Proof.Machine
end

