-- ==== Sys2Proof/Machine/Step.lean ====
section
/-! DEFINITION. The step of the machine, and the state with a word placed where the step fetches. -/

namespace Sys2Proof.Machine

/-- `Step()` (10_state.md R33): "no step is enabled" from Halted (R30), answered by a fault that names the reason. -/
def step (s : State) : Host.Outcome State Fault Refusal :=
  match s.run with
  | .halted r => .fault (.notRunning r)
  | .running => stepRunning s

/-- The instruction whose bits are `w`, `nbits` of them given, stored where `step` fetches its next instruction. It
stands for the host's load of a program (log 5). -/
def State.withFetchWord (s : State) (nbits w : Nat) : State := s.placeWord (BitVec.ofNat 32 (w % 2 ^ nbits))

end Sys2Proof.Machine
end

