-- ==== Sys2Proof/Machine/Adapter.lean ====
section
/-! DEFINITION. The byte-order adapter (20_memory.md R46..R51): a direct region's buffer on a host of either byte order,
the XOR masks, the accesses through them, and `SwapWord`. The machine itself uses the bytes of R44, as R49 allows (log
20); what stands here is what R49 relates to them. -/

namespace Sys2Proof.Machine.Adapter

/-- The XOR masks (R46). -/
def mask : HostOrder → Width → Nat
  | .bigEndian, _ => 0
  | .littleEndian, .byte => 3
  | .littleEndian, .half => 2
  | .littleEndian, .word => 0

/-- A host-native load of N bits at a host byte offset. -/
def hostLoad (o : HostOrder) (buf : ByteStore) (h : Nat) (w : Width) : Word :=
  match o with
  | .bigEndian => valueAt buf h w
  | .littleEndian =>
    match w with
    | .byte => (Memory.read buf h).setWidth 32
    | .half => (Memory.read buf (h + 1) ++ Memory.read buf h).setWidth 32
    | .word => Memory.read buf (h + 3) ++ Memory.read buf (h + 2) ++ Memory.read buf (h + 1) ++ Memory.read buf h

/-- A host-native store of N bits at a host byte offset. -/
def hostStore (o : HostOrder) (buf : ByteStore) (h : Nat) (w : Width) (v : Word) : ByteStore :=
  match o with
  | .bigEndian => Memory.writeBytes buf h (bytesToStore v w)
  | .littleEndian => Memory.writeBytes buf h (bytesToStore v w).reverse

/-- The physical layout (R47): the buffer's 32-bit words are the host-native encodings of the target's words. -/
def Represents (o : HostOrder) (buf m : ByteStore) : Prop :=
  ∀ off, off % 4 = 0 → hostLoad o buf off .word = valueAt m off .word

/-- A direct-region read at a region offset (R48). -/
def read (o : HostOrder) (buf : ByteStore) (off : Nat) (w : Width) : Word := hostLoad o buf (off ^^^ mask o w) w

/-- A direct-region write at a region offset (R48). -/
def write (o : HostOrder) (buf : ByteStore) (off : Nat) (w : Width) (v : Word) : ByteStore :=
  hostStore o buf (off ^^^ mask o w) w v

/-- `SwapWord(x) = {x[7:0], x[15:8], x[23:16], x[31:24]}` (R50). -/
def swapWord (x : Word) : Word :=
  x.extractLsb' 0 8 ++ x.extractLsb' 8 8 ++ x.extractLsb' 16 8 ++ x.extractLsb' 24 8

end Sys2Proof.Machine.Adapter
end

