-- ==== Sys2Proof/Machine/HostOps.lean ====
section
/-! DEFINITION. What the host can do to the machine (00_scope.md R3): at initialisation map regions and load an image
(20_memory.md R39, R52; 70_reset_and_hazards.md R199), and between steps set the interrupt inputs (10_state.md R31), halt
(R35) and reset (R200). None of it happens inside a step. -/

namespace Sys2Proof.Machine

/-! ## Initialisation -/

/-- The configuration errors of `MapRegion` (R39): "fatal at initialization only, never at runtime". -/
inductive MapError where
  /-- `OverlapError`: the new region intersects an existing one -/
  | overlap
  /-- base or size no multiple of 4, or the region ends above 2^32 -/
  | badDescriptor
  deriving DecidableEq, Repr

/-- `MapRegion` (R39): the map with one more region, or the error. The regions do not overlap, so their order in the map
does not matter to `resolve`. -/
def mapRegion (m : List Region) (r : Region) : Except MapError (List Region) :=
  if regionOk r then if m.all (regionsDisjoint r) then .ok (r :: m) else .error .overlap else .error .badDescriptor

/-- `MapRegion` for every region of `REGION_MAP` in turn (R199). -/
def mapRegions (m : List Region) : List Region → Except MapError (List Region)
  | [] => .ok m
  | r :: rest =>
    match mapRegion m r with
    | .error e => .error e
    | .ok m' => mapRegions m' rest

/-- Byte `i` of a group of four. -/
def pick4 (i : Fin 4) (a b c d : Byte) : Byte :=
  match i with
  | 0 => a
  | 1 => b
  | 2 => c
  | 3 => d

/-- An image brought into canonical byte order, four bytes at a time; up to three bytes at the end stay as they are
(R52; log 21). -/
def normalise (f : RomFormat) : List Byte → List Byte
  | a :: b :: c :: d :: rest =>
    pick4 f.order0 a b c d :: pick4 f.order1 a b c d :: pick4 f.order2 a b c d :: pick4 f.order3 a b c d ::
      normalise f rest
  | tail => tail

/-- The ROM store of normalised bytes (R52, R53). -/
def romOfBytes (bs : List Byte) : Rom where
  cells := Memory.writeBytes [] 0 bs
  size := bs.length

/-- `LoadImage(bytes)` (R52): `none` is `FormatError`, for an image that is too small or has no recognised signature. -/
def readImage (p : Params) (bytes : List Byte) : Option Rom :=
  if bytes.length < p.romMinSize then none
  else
    match p.romSignatures.find? fun f => f.signature.isPrefixOf bytes with
    | none => none
    | some f => some (romOfBytes (normalise f bytes))

/-- `LoadImage` on the machine: "A failed load leaves any previously loaded state untouched" (R52). -/
def State.loadImage (s : State) (bytes : List Byte) : State :=
  match readImage s.par bytes with
  | none => s
  | some rom => { s with rom := rom }

/-- Why the machine does not start (R199). -/
inductive StartError where
  | map (e : MapError)
  | format
  deriving DecidableEq, Repr

/-- Power-on (R199): every region of `regions` is mapped, the image is loaded, and the core is in the reset state of
R198. -/
def powerOn (p : Params) (regions : List Region) (i : Init) (image : List Byte) : Except StartError State :=
  match mapRegions [] regions with
  | .error e => .error (.map e)
  | .ok m =>
    match readImage p image with
    | none => .error .format
    | some rom => .ok (State.atLaunch { p with regionMap := m } i rom)

/-! ## Between steps -/

/-- The outside drives the interrupt inputs to these levels (R31). -/
def State.setInt (s : State) (levels : BitVec 6) : State := { s with int := levels }

/-- RUN <- Halted(reason), and nothing else changes (R10, R35). -/
def State.halt (s : State) (reason : HaltReason) : State := { s with run := .halted reason }

/-- A halt request of the host (R35); a core that is Halted stays as it is (R30). -/
def State.hostHalt (s : State) : State :=
  match s.run with
  | .running => s.halt .hostHalt
  | .halted _ => s

/-- A reset request (R200): PC, NPC, DELAY, Status, Cause, LLbit and RUN take their reset values; everything else keeps
its contents, but for the registers when the host supplies new `INIT_*` values. W is kept (log 28). -/
def State.resetRequest (s : State) (i : Option Init) : State :=
  { s with
    gpr := match i with
      | none => s.gpr
      | some v => v.gpr.set 0 0#32
    hi := match i with
      | none => s.hi
      | some v => v.hi
    lo := match i with
      | none => s.lo
      | some v => v.lo
    pc := s.par.startPc
    npc := s.par.startPc + 4
    delay := false
    taken := false
    status := Status.zero
    cause := Cause.zero
    llbit := false
    run := .running }

/-- The reason RUN holds after a fault of a step (R10). -/
def Fault.reason : Fault → HaltReason
  | .doubleFault => .doubleFault
  | .unpredictable k => .unpredictable k
  | .notRunning r => r

/-- The machine after one step, stops included: a stop leaves the state before it, with RUN Halted (R10, R183; log 1). -/
def State.afterStep (s : State) : State :=
  match step s with
  | .next t => t
  | .fault f => s.halt f.reason
  | .refused _ => s

end Sys2Proof.Machine
end

