-- ==== Sys2Proof/Safety.lean ====
section
/-! DEFINITION. What counts as a safe run, in the terms claims use: final states and the end of a run
(70_reset_and_hazards.md R202), the moves of the machine and its host between two steps, the invariants of the state, and
what an instruction may write. -/

namespace Sys2Proof.Machine

/-! ## The end of a run (R202) -/

/-- A final state: Running at HALT_PC outside a delay slot with no interrupt enabled and pending, or halted by the
host. -/
def State.isFinal (s : State) : Bool :=
  match s.run with
  | .running => !s.delay && decide (s.pc = s.par.haltPc) && !s.interruptPending
  | .halted r => decide (r = .hostHalt)

/-- How a run of at most so many steps ends. -/
inductive RunEnd where
  /-- the first final state, before its step -/
  | final (s : State)
  /-- a stop: ended, never final -/
  | stopped (f : Fault)
  /-- no end within the steps allowed -/
  | unfinished (s : State)

/-- The run of R202, cut off after `fuel` steps. -/
def runToEnd : Nat → State → RunEnd
  | 0, s => if s.isFinal then .final s else .unfinished s
  | n + 1, s =>
    if s.isFinal then .final s
    else
      match step s with
      | .next t => runToEnd n t
      | .fault f => .stopped f
      | .refused _ => .unfinished s

/-! ## Moves of the machine and its host -/

/-- One move: a step of the core, or one thing the host does between steps (R31, R35, R200). -/
inductive Move : State → State → Prop where
  | step {s t : State} (h : Sys2Proof.Machine.step s = .next t) : Move s t
  | setInt (s : State) (levels : BitVec 6) : Move s (s.setInt levels)
  | halt (s : State) : Move s s.hostHalt
  | reset (s : State) (i : Option Init) : Move s (s.resetRequest i)

/-- States a machine reaches from one by moves. -/
inductive Reaches : State → State → Prop where
  | refl (s : State) : Reaches s s
  | tail {s t u : State} (h : Reaches s t) (m : Move t u) : Reaches s u

/-! ## Invariants -/

/-- The state is well formed: the region map is one that `MapRegion` can have built (R38, R39), the byte stores are
canonical, register 0's place holds 0 (R15), a taken transfer is pending only in a delay slot (R20), without one NPC is
the word after PC (R19, R33), and W is kept only when SMC_MODE = Refuse (R207). -/
structure Inv (s : State) : Prop where
  map_ok : mapOk s.par.regionMap = true
  mem_canonical : Memory.wf s.mem = true
  rom_canonical : Memory.canonicalFrom s.rom.size 0 s.rom.cells = true
  local_canonical : Memory.canonicalFrom s.vcop.localSize 0 s.vcop.localMem = true
  zero_reg : s.gpr[0] = 0#32
  taken_in_slot : s.taken = true → s.delay = true
  npc_follows : s.taken = false → s.npc = s.pc + 4
  coherent_has_no_w : s.par.smcMode = .coherent → s.smcW = []

/-- Every listed byte of RAM lies in a RAM region of the map (R42, R54, R58). -/
def MemInRam (s : State) : Prop :=
  ∀ a b, (a, b) ∈ s.mem → ∃ r ∈ s.par.regionMap, r.kind = .ram ∧ regionContains r a = true

/-- What `Fetch`, every load and every store leave alone, whatever a device does in the call: the core's own registers. -/
structure SameCore (s t : State) : Prop where
  gpr : t.gpr = s.gpr
  hi : t.hi = s.hi
  lo : t.lo = s.lo
  pc : t.pc = s.pc
  npc : t.npc = s.npc
  delay : t.delay = s.delay
  taken : t.taken = s.taken
  status : t.status = s.status
  cause : t.cause = s.cause
  epc : t.epc = s.epc
  badVAddr : t.badVAddr = s.badVAddr
  llbit : t.llbit = s.llbit
  llAddr : t.llAddr = s.llAddr
  run : t.run = s.run
  rom : t.rom = s.rom
  par : t.par = s.par

/-! ## What an instruction may write, for the frames -/

/-- The general register an instruction names as its destination (R16, R85). -/
def destination : Instr → Option RegIdx
  | .add rd _ _ | .addu rd _ _ | .sub rd _ _ | .subu rd _ _ | .and rd _ _ | .or rd _ _ | .xor rd _ _ => some rd
  | .nor rd _ _ | .slt rd _ _ | .sltu rd _ _ | .sll rd _ _ | .srl rd _ _ | .sra rd _ _ | .sllv rd _ _ => some rd
  | .srlv rd _ _ | .srav rd _ _ | .mfhi rd | .mflo rd | .jalr rd _ => some rd
  | .addi rt _ _ | .addiu rt _ _ | .slti rt _ _ | .sltiu rt _ _ | .andi rt _ _ | .ori rt _ _ | .xori rt _ _ => some rt
  | .lui rt _ | .lb rt _ _ | .lbu rt _ _ | .lh rt _ _ | .lhu rt _ _ | .lw rt _ _ | .lwl rt _ _ | .lwr rt _ _ => some rt
  | .ll rt _ _ | .sc rt _ _ | .mfc0 rt _ => some rt
  | .jal _ | .bltzal _ _ | .bgezal _ _ => some ra
  | .mult _ _ | .multu _ _ | .div _ _ | .divu _ _ | .mthi _ | .mtlo _ | .j _ | .jr _ | .beq _ _ _ => none
  | .bne _ _ _ | .blez _ _ | .bgtz _ _ | .bltz _ _ | .bgez _ _ | .sb _ _ _ | .sh _ _ _ | .sw _ _ _ => none
  | .swl _ _ _ | .swr _ _ _ | .sync _ | .syscall _ | .brk _ | .tge _ _ _ | .tgeu _ _ _ | .tlt _ _ _ => none
  | .tltu _ _ _ | .teq _ _ _ | .tne _ _ _ | .tgei _ _ | .tgeiu _ _ | .tlti _ _ | .tltiu _ _ => none
  | .teqi _ _ | .tnei _ _ | .mtc0 _ _ | .rfe | .cop1 | .cop2 | .cop3 | .lwc1 | .lwc2 | .lwc3 | .ldc1 => none
  | .ldc2 | .ldc3 | .swc1 | .swc2 | .swc3 | .sdc1 | .sdc2 | .sdc3 => none

/-- The loads (R139), with LL. -/
def isLoad : Instr → Bool
  | .lb _ _ _ | .lbu _ _ _ | .lh _ _ _ | .lhu _ _ _ | .lw _ _ _ | .lwl _ _ _ | .lwr _ _ _ | .ll _ _ _ => true
  | _ => false

/-- The address of the one access a load or a store makes (R139, R146, R151): the aligned word for LWL, LWR, SWL, SWR. -/
def accessAddress (s : State) : Instr → Option Word
  | .lb _ imm rs | .lbu _ imm rs | .lh _ imm rs | .lhu _ imm rs | .lw _ imm rs | .ll _ imm rs => some (s.ea rs imm)
  | .sb _ imm rs | .sh _ imm rs | .sw _ imm rs | .sc _ imm rs => some (s.ea rs imm)
  | .lwl _ imm rs | .lwr _ imm rs | .swl _ imm rs | .swr _ imm rs => some (wordBase (s.ea rs imm))
  | _ => none

/-- The bytes a store stores to in this state: the address of the first, computed as its meaning computes it, and their
number (R148..R152, R155); none for an instruction that stores nothing. -/
def storeSpan (s : State) : Instr → Option (Word × Nat)
  | .sb _ imm rs => some (s.ea rs imm, 1)
  | .sh _ imm rs => some (s.ea rs imm, 2)
  | .sw _ imm rs => some (s.ea rs imm, 4)
  | .swl _ imm rs => some (s.ea rs imm, 4 - (byteInWord (s.ea rs imm)).toNat)
  | .swr _ imm rs => some (wordBase (s.ea rs imm), (byteInWord (s.ea rs imm)).toNat + 1)
  | .sc _ imm rs => some (s.ea rs imm, 4)
  | _ => none

/-- The instructions that write HI, LO or both, and no general register (R18). -/
def writesHiLo : Instr → Bool
  | .mult _ _ | .multu _ _ | .div _ _ | .divu _ _ | .mthi _ | .mtlo _ => true
  | _ => false

/-- The instructions that write the control registers themselves (R173, R174). -/
def writesCp0 : Instr → Bool
  | .mtc0 _ _ | .rfe => true
  | _ => false

/-- The region that contains the address is a direct one, or there is none (R38): no device is called. -/
def noDevice (s : State) (a : Word) : Prop :=
  ∀ r, resolve s.par.regionMap a = some r → r.kind.mode = .direct

end Sys2Proof.Machine
end

