-- ==== Sys2Proof/Certificates/Slice0/Obligations.lean ====
section
/-! DEFINITION. The statements for the provers. Each names the rule of spec/ it formalises; a statement about a value or a
behaviour the model chose names its log entry. A statement of an instruction's result begins with its encoding: the word
decodes to the instruction whatever its unused fields hold (R83). -/

section

open Sys2Proof Sys2Proof.Machine

/-! ## The step cycle -/

/-- A step runs the instruction its bytes decode to (R33 steps 2 to 5, R71): from RAM and from the ROM window. A fetch
from a device is in `Obligations.FetchRule`. -/
def Obligations.StepRunsDecodedInstruction : Prop :=
  ∀ (s : State) (i : Instr) (r : Region),
    s.run = .running → s.interruptPending = false → s.pc.toNat % 4 = 0 → s.fetchIsStale = false →
    resolve s.par.regionMap s.pc = some r →
    (r.kind = .ram → decodeBytes (Memory.readBytes s.mem s.pc.toNat 4) = .instr i → step s = exec i s) ∧
    (r.kind = .rom → offsetIn r s.pc + 4 ≤ s.rom.size →
      decodeBytes (Memory.readBytes s.rom.cells (offsetIn r s.pc) 4) = .instr i → step s = exec i s)

/-- R184: the interrupt is sampled before the fetch, from Status bit 0 and the bits 15:8 of Cause and Status; IP[7:2] are
the present levels; the core neither latches nor clears a line. Otherwise the step goes on with the fetch (R33); that it
executes the word in the state after the fetch, with what a device did in it, also when the instruction raises, is the
model's choice, log 30. -/
def Obligations.InterruptSampling : Prop :=
  ∀ (s : State), s.run = .running →
    s.causeWord.extractLsb' 10 6 = s.intLevels ∧
    ((s.status.toWord.getLsbD 0 = true ∧
        (s.causeWord.extractLsb' 8 8 &&& s.status.toWord.extractLsb' 8 8) ≠ 0#8) →
      step s = .next (s.enter .int) ∧ (s.enter .int).int = s.int ∧ (s.enter .int).intLevels = s.intLevels) ∧
    (¬ (s.status.toWord.getLsbD 0 = true ∧
        (s.causeWord.extractLsb' 8 8 &&& s.status.toWord.extractLsb' 8 8) ≠ 0#8) →
      (∀ w t, fetch s = .word w t → step s = execWord w t) ∧
        (∀ e t, fetch s = .error e t → step s = takeException e true t))

/-- R59: the fetch of a running core with no interrupt to take, from every kind of address, with SMC_MODE not stopping it
(R207). That a word from a dispatch region is executed in the state after the device call, also when it then raises, is the
model's choice, log 30 (R180 and R181 can be read otherwise), and so is that this call may write RAM by DMA, log 33 (R59:
"A fetch changes no memory"). -/
def Obligations.FetchRule : Prop :=
  ∀ (s : State), s.run = .running → s.interruptPending = false →
    (s.pc.toNat % 4 ≠ 0 → step s = takeException (.adEL s.pc) true s) ∧
    (s.pc.toNat % 4 = 0 → s.fetchIsStale = false →
      (resolve s.par.regionMap s.pc = none → step s = takeException .ibe true s) ∧
      (∀ r, resolve s.par.regionMap s.pc = some r →
        (r.kind = .rom → offsetIn r s.pc + 4 > s.rom.size → step s = takeException .ibe true s) ∧
        (r.kind = .rom → offsetIn r s.pc + 4 ≤ s.rom.size →
          step s = execWord (Memory.read s.rom.cells (offsetIn r s.pc) ++ Memory.read s.rom.cells (offsetIn r s.pc + 1) ++
            Memory.read s.rom.cells (offsetIn r s.pc + 2) ++ Memory.read s.rom.cells (offsetIn r s.pc + 3)) s) ∧
        (r.kind = .ram →
          step s = execWord (Memory.read s.mem s.pc.toNat ++ Memory.read s.mem (s.pc.toNat + 1) ++
            Memory.read s.mem (s.pc.toNat + 2) ++ Memory.read s.mem (s.pc.toNat + 3)) s) ∧
        (r.kind = .device ∨ r.kind = .coprocLocal →
          step s = match deviceCall s { addr := s.pc, width := .word, write := none } with
            | .busError t => takeException .ibe true t
            | .ok w t => execWord w t)))

/-- R183: an AdEL or IBE of the fetch at EXC_VECTOR stops the core and leaves registers and memory as they were before that
fetch; elsewhere, and for every exception of an instruction, the handler is entered. The model's choices: that the whole
state is as before, the record of a device call that faulted among it (log 27), with RUN Halted (log 1), and that the stop
does not depend on how PC came to EXC_VECTOR (log 23). -/
def Obligations.DoubleFault : Prop :=
  (∀ (s t : State) (e : Exn), s.run = .running → s.interruptPending = false → fetch s = .error e t →
    (s.pc = s.par.excVector →
      step s = .fault .doubleFault ∧ s.afterStep = { s with run := .halted .doubleFault }) ∧
    (s.pc ≠ s.par.excVector → step s = .next (t.enter e))) ∧
  ∀ (e : Exn) (s : State), raise e s = .next (s.enter e)

/-- R30, R35, R200: no step is enabled from Halted, a step leaves the core Running, a halt changes nothing but RUN, the
host's other moves keep Halted, and a reset request leaves it, with PC, NPC, DELAY, Status, Cause, LLbit and RUN at their
reset values and the rest as it was, but for the registers when the host gives new `INIT_*` values. The model's readings:
the fault `notRunning` (log 1), a halt request that keeps a Halted reason (log 1), and a reset request that keeps the
coprocessor and the record of the devices, which R200 does not name (logs 13 and 28). -/
def Obligations.HaltAndResetRequests : Prop :=
  (∀ (s : State) (r : HaltReason), s.run = .halted r →
    step s = .fault (.notRunning r) ∧ s.hostHalt = s ∧ ∀ levels, (s.setInt levels).run = .halted r) ∧
  (∀ (s t : State), step s = .next t → s.run = .running ∧ t.run = .running) ∧
  (∀ (s : State), s.run = .running → s.hostHalt = { s with run := .halted .hostHalt }) ∧
  (∀ (s : State) (i : Option Init),
    (s.resetRequest i).pc = s.par.startPc ∧ (s.resetRequest i).npc = s.par.startPc + 4 ∧
    (s.resetRequest i).delay = false ∧ (s.resetRequest i).status.toWord = 0#32 ∧
    (s.resetRequest i).causeWord = (0#16 ++ s.intLevels ++ 0#10) ∧ (s.resetRequest i).llbit = false ∧
    (s.resetRequest i).run = .running ∧ (s.resetRequest i).epc = s.epc ∧
    (s.resetRequest i).badVAddr = s.badVAddr ∧ (s.resetRequest i).llAddr = s.llAddr ∧
    (s.resetRequest i).mem = s.mem ∧ (s.resetRequest i).rom = s.rom ∧ (s.resetRequest i).par = s.par ∧
    (s.resetRequest i).vcop = s.vcop ∧ (s.resetRequest i).dev = s.dev) ∧
  (∀ (s : State) (r : RegIdx), (s.resetRequest none).reg r = s.reg r ∧ (s.resetRequest none).hi = s.hi ∧
    (s.resetRequest none).lo = s.lo) ∧
  ∀ (s : State) (i : Init) (r : Fin 32), (s.resetRequest (some i)).hi = i.hi ∧ (s.resetRequest (some i)).lo = i.lo ∧
    (r ≠ 0 → (s.resetRequest (some i)).reg (BitVec.ofFin r) = i.gpr[r])

/-- R180: everything taking an exception writes, and everything it leaves. `atFetch` says that the cause is AdEL or IBE of
a fetch. -/
def Obligations.ExceptionEntry : Prop :=
  (∀ (e : Exn) (s : State), takeException e true s =
    if s.pc = s.par.excVector then .fault .doubleFault else takeException e false s) ∧
  ∀ (e : Exn) (s : State), ∃ t, takeException e false s = .next t ∧
    t.epc = (if s.delay then s.pc - 4 else s.pc) ∧
    t.causeWord.getLsbD 31 = s.delay ∧
    t.causeWord.extractLsb' 2 5 =
      (match e with
        | .int => 0#5 | .adEL _ => 4#5 | .adES _ => 5#5 | .ibe => 6#5 | .dbe => 7#5 | .sys => 8#5
        | .bp => 9#5 | .ri => 10#5 | .cpu _ => 11#5 | .ov => 12#5 | .tr => 13#5) ∧
    t.causeWord.extractLsb' 28 2 = (match e with | .cpu z => z | _ => 0#2) ∧
    t.badVAddr = (match e with | .adEL a => a | .adES a => a | _ => s.badVAddr) ∧
    t.status.toWord = (s.status.toWord &&& 0xFFFFFFC0#32) ||| ((s.status.toWord &&& 0x0000000F#32) <<< 2) ∧
    t.llbit = false ∧ t.pc = s.par.excVector ∧ t.npc = s.par.excVector + 4 ∧ t.delay = false ∧
    t.causeWord.extractLsb' 8 8 = s.causeWord.extractLsb' 8 8 ∧
    t.gpr = s.gpr ∧ t.hi = s.hi ∧ t.lo = s.lo ∧ t.mem = s.mem ∧ t.rom = s.rom ∧ t.llAddr = s.llAddr ∧
    t.llForeign = s.llForeign ∧ t.run = s.run ∧ t.int = s.int ∧ t.vcop = s.vcop ∧ t.dev = s.dev ∧ t.par = s.par

/-- R33 step 5 and R181: an instruction that answers a next state has either gone on (NPC to PC, NPC + 4 to NPC but for a
transfer, DELAY set exactly by a transfer), or entered an exception from the state before it, with no effect of its own but
the record of a device call that faulted, and a draw. R181 says that such a call was made; that it leaves the coprocessor
and the interrupt lines alone is the model's choice, log 24. -/
def Obligations.ExecAdvancesOrEntersPrecisely : Prop :=
  ∀ (i : Instr) (s t : State), exec i s = .next t →
    (t.pc = s.npc ∧ t.delay = isControlTransfer i ∧ (isControlTransfer i = false → t.npc = s.npc + 4)) ∨
    ∃ e d n, t = State.enter { s with dev := d, draws := n } e ∧ (d = s.dev ∨ e = .dbe ∧ ∃ c, d = c :: s.dev)

/-- R122: the instruction at PC + 4 runs after a branch or jump, and after it the transfer's target (or PC + 8), unless
that instruction raises, and then the handler runs and EPC names the branch. -/
def Obligations.DelaySlotLaw : Prop :=
  ∀ (s t u : State) (i j : Instr), Inv s → isControlTransfer i = true → isControlTransfer j = false →
    exec i s = .next t → exec j t = .next u →
    t.pc = s.pc + 4 ∧ (t.taken = false → t.npc = s.pc + 8) ∧
      (u.pc = t.npc ∧ u.delay = false ∨ u.pc = s.par.excVector ∧ u.epc = s.pc)

/-- R182: an exception in a delay slot is reported against the branch, whatever its cause; one elsewhere against the
instruction itself. -/
def Obligations.DelaySlotReporting : Prop :=
  (∀ (s t : State) (i : Instr) (e : Exn), Inv s → isControlTransfer i = true → exec i s = .next t →
    (t.enter e).epc = s.pc ∧ (t.enter e).causeWord.getLsbD 31 = true ∧ (t.enter e).pc = s.par.excVector ∧
      (t.enter e).npc = s.par.excVector + 4) ∧
  ∀ (s : State) (e : Exn), s.delay = false →
    (s.enter e).epc = s.pc ∧ (s.enter e).causeWord.getLsbD 31 = false

/-! ## State -/

/-- R15: register 0 reads 0 and a write to it is discarded, for every instruction; a write of another register is read
back and touches no other. -/
def Obligations.RegisterZero : Prop :=
  (∀ (s : State), s.reg 0#5 = 0#32) ∧
  (∀ (s : State) (v : Word), s.setReg 0#5 v = s) ∧
  (∀ (s : State) (r q : RegIdx) (v : Word), r ≠ 0#5 →
    (s.setReg r v).reg q = (if q = r then v else s.reg q)) ∧
  ∀ (i : Instr) (s t : State), exec i s = .next t → t.reg 0#5 = 0#32

/-- The reset values of 70_reset_and_hazards.md R198, for every launch: parameters, `INIT_*` and ROM image. The values
the spec leaves unspecified (EPC, BadVAddr, LLAddr) are the model's choice, log 3, and are not stated here; neither are the
`INIT_*` of `State.reset`, log 2. -/
def Obligations.ResetState : Prop :=
  (∀ (p : Params) (i : Init) (rom : Rom),
    let s := State.atLaunch p i rom
    s.pc = p.startPc ∧ s.npc = p.startPc + 4 ∧ s.delay = false ∧ s.status.toWord = 0#32 ∧
    s.causeWord = (0#16 ++ s.intLevels ++ 0#10) ∧ s.cp0Read 15#5 = some p.prid ∧ s.llbit = false ∧
    s.run = .running ∧ s.reg 0#5 = 0#32 ∧ s.hi = i.hi ∧ s.lo = i.lo ∧ s.mem = i.ram ∧ s.rom = rom ∧
    s.par.regionMap = p.regionMap ∧ ∀ r : Fin 32, r ≠ 0 → s.reg (BitVec.ofFin r) = i.gpr[r]) ∧
  State.reset = State.atLaunch Params.default Init.default romAtReset

/-! ## Decoding and encoding -/

/-- Decoding an encoded instruction gives it back, for every instruction with every operand value. -/
def Obligations.DecodeOfEncode : Prop := ∀ (i : Instr), decode (encode i) = .instr i

/-- Encoding a decoded instruction gives back its word on the bits the instruction uses (R72, R83): no used bit of a word
is dropped, and the ignored bits are the only ones that are. -/
def Obligations.EncodeOfDecode : Prop :=
  ∀ (w : Word) (i : Instr), decode w = .instr i → encode i = w &&& usedBits i

/-- The decoder follows the opcode table (R76 to R80): a word decodes to an instruction exactly of the row whose match it
has under the row's mask, so a word that decodes to `Reserved` is in no row. -/
def Obligations.DecodeFollowsOpcodeTable : Prop :=
  ∀ (w : Word),
    (∀ i, decode w = .instr i → w &&& (tableRow i).2 = (tableRow i).1) ∧
    (∀ i, w &&& (tableRow i).2 = (tableRow i).1 → ∃ j, decode w = .instr j ∧ tableRow j = tableRow i)

/-- Words written out from the spec's encodings and examples decode to the instructions they stand for. -/
def Obligations.KnownWords : Prop :=
  decode 0x3C08000A#32 = .instr (.lui 8#5 0x000A#16) ∧
  decode 0x03E00008#32 = .instr (.jr 31#5) ∧
  decode 0x0080F809#32 = .instr (.jalr 31#5 4#5) ∧
  decode 0x10220003#32 = .instr (.beq 1#5 2#5 0x0003#16) ∧
  decode 0x04110004#32 = .instr (.bgezal 0#5 0x0004#16) ∧
  decode 0x401A7000#32 = .instr (.mfc0 26#5 14#5) ∧
  decode 0x40886000#32 = .instr (.mtc0 8#5 12#5) ∧
  decode 0x42000010#32 = .instr .rfe ∧
  decode 0x8D0AFF00#32 = .instr (.lw 10#5 0xFF00#16 8#5) ∧
  decode 0x01285004#32 = .instr (.sllv 10#5 8#5 9#5) ∧
  decode 0x44000000#32 = .instr .cop1 ∧
  decode 0x0000000C#32 = .instr (.syscall 0#20) ∧
  decode 0x00000001#32 = .reserved

/-- R81: a word that decodes to `Reserved` raises RI with no other effect, also when it is fetched by a step. That the device
call of a fetch from a dispatch region stays made when the word it answers is `Reserved` is the model's choice, log 30. -/
def Obligations.ReservedWordRaisesRi : Prop :=
  ∀ (w : Word), decode w = .reserved →
    (∀ (s : State), execWord w s = .next (s.enter .ri)) ∧
    ∀ (s t : State), s.run = .running → s.interruptPending = false → fetch s = .word w t →
      step s = .next (t.enter .ri)

/-! ## Arithmetic, logic, shifts -/

/-- R91, R93 to R99: the register forms that never raise. -/
def Obligations.AluRegisterResults : Prop :=
  ∀ (rd rs rt : RegIdx) (s : State),
    let word := fun (sa : BitVec 5) (f : BitVec 6) (i : Instr) => decode (rWord rs rt rd sa f) = .instr i
    (∀ sa, word sa 0x21#6 (.addu rd rs rt) ∧ word sa 0x23#6 (.subu rd rs rt) ∧ word sa 0x24#6 (.and rd rs rt) ∧
      word sa 0x25#6 (.or rd rs rt) ∧ word sa 0x26#6 (.xor rd rs rt) ∧ word sa 0x27#6 (.nor rd rs rt) ∧
      word sa 0x2A#6 (.slt rd rs rt) ∧ word sa 0x2B#6 (.sltu rd rs rt)) ∧
    let x := s.reg rs
    let y := s.reg rt
    exec (.addu rd rs rt) s = .next (s.setReg rd (BitVec.ofNat 32 (x.toNat + y.toNat))).advance ∧
    exec (.subu rd rs rt) s = .next (s.setReg rd (BitVec.ofInt 32 ((x.toNat : Int) - y.toNat))).advance ∧
    exec (.and rd rs rt) s = .next (s.setReg rd (x &&& y)).advance ∧
    exec (.or rd rs rt) s = .next (s.setReg rd (x ||| y)).advance ∧
    exec (.xor rd rs rt) s = .next (s.setReg rd (x ^^^ y)).advance ∧
    exec (.nor rd rs rt) s = .next (s.setReg rd (~~~(x ||| y))).advance ∧
    exec (.slt rd rs rt) s = .next (s.setReg rd (if x.toInt < y.toInt then 1#32 else 0#32)).advance ∧
    exec (.sltu rd rs rt) s = .next (s.setReg rd (if x.toNat < y.toNat then 1#32 else 0#32)).advance

/-- R90, R92, R100: ADD, SUB and ADDI write the exact signed result when it fits, and raise Ov, writing nothing, when it
does not. -/
def Obligations.OverflowTraps : Prop :=
  ∀ (rd rs rt : RegIdx) (imm : BitVec 16) (s : State),
    (∀ sa, decode (rWord rs rt rd sa 0x20#6) = .instr (.add rd rs rt) ∧
      decode (rWord rs rt rd sa 0x22#6) = .instr (.sub rd rs rt) ∧
      decode (iWord 0x08#6 rs rt imm) = .instr (.addi rt rs imm)) ∧
    let sum := (s.reg rs).toInt + (s.reg rt).toInt
    let diff := (s.reg rs).toInt - (s.reg rt).toInt
    let sumi := (s.reg rs).toInt + imm.toInt
    (-2 ^ 31 ≤ sum ∧ sum ≤ 2 ^ 31 - 1 →
      exec (.add rd rs rt) s = .next (s.setReg rd (BitVec.ofInt 32 sum)).advance) ∧
    (¬ (-2 ^ 31 ≤ sum ∧ sum ≤ 2 ^ 31 - 1) → exec (.add rd rs rt) s = .next (s.enter .ov)) ∧
    (-2 ^ 31 ≤ diff ∧ diff ≤ 2 ^ 31 - 1 →
      exec (.sub rd rs rt) s = .next (s.setReg rd (BitVec.ofInt 32 diff)).advance) ∧
    (¬ (-2 ^ 31 ≤ diff ∧ diff ≤ 2 ^ 31 - 1) → exec (.sub rd rs rt) s = .next (s.enter .ov)) ∧
    (-2 ^ 31 ≤ sumi ∧ sumi ≤ 2 ^ 31 - 1 →
      exec (.addi rt rs imm) s = .next (s.setReg rt (BitVec.ofInt 32 sumi)).advance) ∧
    (¬ (-2 ^ 31 ≤ sumi ∧ sumi ≤ 2 ^ 31 - 1) → exec (.addi rt rs imm) s = .next (s.enter .ov))

/-- R101 to R107: the immediate forms that never raise. -/
def Obligations.AluImmediateResults : Prop :=
  ∀ (rt rs : RegIdx) (imm : BitVec 16) (s : State),
    let word := fun (op : BitVec 6) (i : Instr) => decode (iWord op rs rt imm) = .instr i
    (word 0x09#6 (.addiu rt rs imm) ∧ word 0x0A#6 (.slti rt rs imm) ∧ word 0x0B#6 (.sltiu rt rs imm) ∧
      word 0x0C#6 (.andi rt rs imm) ∧ word 0x0D#6 (.ori rt rs imm) ∧ word 0x0E#6 (.xori rt rs imm) ∧
      word 0x0F#6 (.lui rt imm)) ∧
    let x := s.reg rs
    let simm := imm.signExtend 32
    let zimm := imm.setWidth 32
    exec (.addiu rt rs imm) s = .next (s.setReg rt (BitVec.ofInt 32 (x.toInt + imm.toInt))).advance ∧
    exec (.slti rt rs imm) s = .next (s.setReg rt (if x.toInt < imm.toInt then 1#32 else 0#32)).advance ∧
    exec (.sltiu rt rs imm) s = .next (s.setReg rt (if x.toNat < simm.toNat then 1#32 else 0#32)).advance ∧
    exec (.andi rt rs imm) s = .next (s.setReg rt (x &&& zimm)).advance ∧
    exec (.ori rt rs imm) s = .next (s.setReg rt (x ||| zimm)).advance ∧
    exec (.xori rt rs imm) s = .next (s.setReg rt (x ^^^ zimm)).advance ∧
    exec (.lui rt imm) s = .next (s.setReg rt (imm ++ 0#16)).advance

/-- R108 to R113: the shifts as multiplication and division by a power of two, the variable ones by x[rs] mod 32. -/
def Obligations.ShiftResults : Prop :=
  ∀ (rd rt rs : RegIdx) (sa : BitVec 5) (s : State),
    let word := fun (f : BitVec 6) (i : Instr) => decode (rWord rs rt rd sa f) = .instr i
    (word 0x00#6 (.sll rd rt sa) ∧ word 0x02#6 (.srl rd rt sa) ∧ word 0x03#6 (.sra rd rt sa) ∧
      word 0x04#6 (.sllv rd rt rs) ∧ word 0x06#6 (.srlv rd rt rs) ∧ word 0x07#6 (.srav rd rt rs)) ∧
    let x := s.reg rt
    let v := (s.reg rs).toNat % 32
    exec (.sll rd rt sa) s = .next (s.setReg rd (BitVec.ofNat 32 (x.toNat * 2 ^ sa.toNat))).advance ∧
    exec (.srl rd rt sa) s = .next (s.setReg rd (BitVec.ofNat 32 (x.toNat / 2 ^ sa.toNat))).advance ∧
    exec (.sra rd rt sa) s = .next (s.setReg rd (BitVec.ofInt 32 (x.toInt / 2 ^ sa.toNat))).advance ∧
    exec (.sllv rd rt rs) s = .next (s.setReg rd (BitVec.ofNat 32 (x.toNat * 2 ^ v))).advance ∧
    exec (.srlv rd rt rs) s = .next (s.setReg rd (BitVec.ofNat 32 (x.toNat / 2 ^ v))).advance ∧
    exec (.srav rd rt rs) s = .next (s.setReg rd (BitVec.ofInt 32 (x.toInt / 2 ^ v))).advance

/-! ## Multiply and divide -/

/-- R114, R115: the pair {HI, LO} is the exact 64-bit product, and nothing else but the sequencing changes. -/
def Obligations.MultiplyExactProduct : Prop :=
  ∀ (rs rt : RegIdx) (s : State),
    (∀ rd sa, decode (rWord rs rt rd sa 0x18#6) = .instr (.mult rs rt) ∧
      decode (rWord rs rt rd sa 0x19#6) = .instr (.multu rs rt)) ∧
    (∃ t, exec (.mult rs rt) s = .next t ∧ t = State.advance { s with hi := t.hi, lo := t.lo } ∧
      (t.hi ++ t.lo).toInt = (s.reg rs).toInt * (s.reg rt).toInt) ∧
    ∃ t, exec (.multu rs rt) s = .next t ∧ t = State.advance { s with hi := t.hi, lo := t.lo } ∧
      (t.hi ++ t.lo).toNat = (s.reg rs).toNat * (s.reg rt).toNat

/-- R116, R117, R89: for a zero divisor the configuration's function of the dividend, whatever it is (log 10); otherwise the
quotient truncated toward zero (floored, unsigned) and its remainder, mod 2^32; and on the registers the division law,
dividend = quotient * divisor + remainder with a remainder smaller than the divisor and of the dividend's sign, but for the
one wrapping quotient. -/
def Obligations.DivideResults : Prop :=
  ∀ (rs rt : RegIdx) (s : State),
    (∀ rd sa, decode (rWord rs rt rd sa 0x1A#6) = .instr (.div rs rt) ∧
      decode (rWord rs rt rd sa 0x1B#6) = .instr (.divu rs rt)) ∧
    let a := s.reg rs
    let b := s.reg rt
    (b = 0#32 →
      exec (.div rs rt) s = .next (State.advance { s with hi := (Config.div0S a).1, lo := (Config.div0S a).2 }) ∧
      exec (.divu rs rt) s = .next (State.advance { s with hi := (Config.div0U a).1, lo := (Config.div0U a).2 })) ∧
    (b ≠ 0#32 →
      (∃ t, exec (.div rs rt) s = .next t ∧ t = State.advance { s with hi := t.hi, lo := t.lo } ∧
        t.lo = BitVec.ofInt 32 (a.toInt.tdiv b.toInt) ∧
        t.hi = BitVec.ofInt 32 (a.toInt - a.toInt.tdiv b.toInt * b.toInt) ∧
        (¬ (a = 0x80000000#32 ∧ b = 0xFFFFFFFF#32) →
          a.toInt = t.lo.toInt * b.toInt + t.hi.toInt ∧ t.hi.toInt.natAbs < b.toInt.natAbs ∧
            (0 ≤ a.toInt → 0 ≤ t.hi.toInt) ∧ (a.toInt ≤ 0 → t.hi.toInt ≤ 0)) ∧
        (a = 0x80000000#32 ∧ b = 0xFFFFFFFF#32 → t.lo = 0x80000000#32 ∧ t.hi = 0#32)) ∧
      ∃ t, exec (.divu rs rt) s = .next t ∧ t = State.advance { s with hi := t.hi, lo := t.lo } ∧
        t.lo = BitVec.ofNat 32 (a.toNat / b.toNat) ∧ t.hi = BitVec.ofNat 32 (a.toNat % b.toNat) ∧
        a.toNat = t.lo.toNat * b.toNat + t.hi.toNat ∧ t.hi.toNat < b.toNat)

/-- R118 to R121: the moves of HI and LO. R118 and R119 read under R18, where a read of HI or LO that was never written
stops; that MFHI and MFLO complete in every state is the model's choice, log 2. -/
def Obligations.HiLoMoves : Prop :=
  ∀ (r : RegIdx) (s : State),
    (∀ x y sa, decode (rWord x y r sa 0x10#6) = .instr (.mfhi r) ∧ decode (rWord x y r sa 0x12#6) = .instr (.mflo r) ∧
      decode (rWord r x y sa 0x11#6) = .instr (.mthi r) ∧ decode (rWord r x y sa 0x13#6) = .instr (.mtlo r)) ∧
    exec (.mfhi r) s = .next (s.setReg r s.hi).advance ∧
    exec (.mflo r) s = .next (s.setReg r s.lo).advance ∧
    exec (.mthi r) s = .next (State.advance { s with hi := s.reg r }) ∧
    exec (.mtlo r) s = .next (State.advance { s with lo := s.reg r })

/-! ## Branches and jumps -/

/-- R126 to R129 and R136, R137: the jumps and the linking branches outside a delay slot, with PC + 8 in the link register
whether or not the branch is taken, and the encodings the spec refuses. -/
def Obligations.JumpsAndLinks : Prop :=
  ∀ (s : State) (target : BitVec 26) (rs rd : RegIdx) (imm : BitVec 16), s.delay = false →
    (∀ x y sa, decode (jWord 0x02#6 target) = .instr (.j target) ∧
      decode (jWord 0x03#6 target) = .instr (.jal target) ∧ decode (rWord rs x y sa 0x08#6) = .instr (.jr rs) ∧
      decode (rWord rs x rd sa 0x09#6) = .instr (.jalr rd rs) ∧
      decode (iWord 0x01#6 rs 0x10#5 imm) = .instr (.bltzal rs imm) ∧
      decode (iWord 0x01#6 rs 0x11#5 imm) = .instr (.bgezal rs imm)) ∧
    let j := (s.pc + 4).extractLsb' 28 4 ++ target ++ 0#2
    let b := s.pc + 4 + (imm ++ 0#2).signExtend 32
    exec (.j target) s = .next (s.transfer true j) ∧
    exec (.jal target) s = .next ((s.setReg 31#5 (s.pc + 8)).transfer true j) ∧
    exec (.jr rs) s = .next (s.transfer true (s.reg rs)) ∧
    (rs ≠ rd → exec (.jalr rd rs) s = .next ((s.setReg rd (s.pc + 8)).transfer true (s.reg rs))) ∧
    exec (.jalr rs rs) s = .fault (.unpredictable .jalrSameRegister) ∧
    (rs ≠ 31#5 → exec (.bltzal rs imm) s =
      .next ((s.setReg 31#5 (s.pc + 8)).transfer (decide ((s.reg rs).toInt < 0)) b)) ∧
    (rs ≠ 31#5 → exec (.bgezal rs imm) s =
      .next ((s.setReg 31#5 (s.pc + 8)).transfer (decide (0 ≤ (s.reg rs).toInt)) b)) ∧
    exec (.bltzal 31#5 imm) s = .fault (.unpredictable .linkSourceClash) ∧
    exec (.bgezal 31#5 imm) s = .fault (.unpredictable .linkSourceClash)

/-- R130 to R135: the conditional branches outside a delay slot. -/
def Obligations.ConditionalBranches : Prop :=
  ∀ (s : State) (rs rt : RegIdx) (imm : BitVec 16), s.delay = false →
    let word := fun (op : BitVec 6) (rt : RegIdx) (i : Instr) => decode (iWord op rs rt imm) = .instr i
    (word 0x04#6 rt (.beq rs rt imm) ∧ word 0x05#6 rt (.bne rs rt imm) ∧ word 0x06#6 rt (.blez rs imm) ∧
      word 0x07#6 rt (.bgtz rs imm) ∧ word 0x01#6 0x00#5 (.bltz rs imm) ∧ word 0x01#6 0x01#5 (.bgez rs imm)) ∧
    let b := s.pc + 4 + (imm ++ 0#2).signExtend 32
    exec (.beq rs rt imm) s = .next (s.transfer (decide (s.reg rs = s.reg rt)) b) ∧
    exec (.bne rs rt imm) s = .next (s.transfer (decide (s.reg rs ≠ s.reg rt)) b) ∧
    exec (.blez rs imm) s = .next (s.transfer (decide ((s.reg rs).toInt ≤ 0)) b) ∧
    exec (.bgtz rs imm) s = .next (s.transfer (decide (0 < (s.reg rs).toInt)) b) ∧
    exec (.bltz rs imm) s = .next (s.transfer (decide ((s.reg rs).toInt < 0)) b) ∧
    exec (.bgez rs imm) s = .next (s.transfer (decide (0 ≤ (s.reg rs).toInt)) b)

/-- Step 5 of R33 as `State.transfer` and `State.advance` do it: PC, NPC and DELAY, and nothing else but the bookkeeping of
R207 (log 17). -/
def Obligations.SequencingRule : Prop :=
  ∀ (s : State) (taken : Bool) (target : Word),
    (s.transfer taken target).pc = s.npc ∧
    (s.transfer taken target).npc = (if taken then target else s.npc + 4) ∧
    (s.transfer taken target).delay = true ∧
    s.transfer taken target = { s with
      pc := (s.transfer taken target).pc, npc := (s.transfer taken target).npc, delay := true, taken := taken,
      smcW := (s.transfer taken target).smcW } ∧
    s.advance.pc = s.npc ∧ s.advance.npc = s.npc + 4 ∧ s.advance.delay = false ∧
    s.advance = { s with
      pc := s.advance.pc, npc := s.advance.npc, delay := false, taken := false, smcW := s.advance.smcW }

/-- R124: a control transfer in the delay slot of another one stops, before it does anything; and every stop of a step under
`Unpredictable` (R10) leaves the state as it was, with RUN Halted: that is the model's reading, log 1, and for what a device
did in the fetch of the instruction that stops its choice, log 27. -/
def Obligations.TransferInDelaySlotStops : Prop :=
  (∀ (i : Instr) (s : State), isControlTransfer i = true → s.delay = true →
    exec i s = .fault (.unpredictable .branchInDelaySlot)) ∧
  ∀ (s : State) (k : Unpredictable), step s = .fault (.unpredictable k) →
    s.afterStep = { s with run := .halted (.unpredictable k) }

/-! ## Memory -/

/-- R44, R45: the value of an access is the number its bytes make big-endian, a write puts byte i of the value at `a + i`
and changes no other byte, and accesses of different widths see the same bytes. -/
def Obligations.MemoryIsBigEndian : Prop :=
  ∀ (m : ByteStore) (a : Nat) (v : Word), Memory.wf m = true → a + 4 ≤ 2 ^ 32 →
    (valueAt m a .byte).toNat = (Memory.read m a).toNat ∧
    (valueAt m a .half).toNat = (Memory.read m a).toNat * 2 ^ 8 + (Memory.read m (a + 1)).toNat ∧
    (valueAt m a .word).toNat = (Memory.read m a).toNat * 2 ^ 24 + (Memory.read m (a + 1)).toNat * 2 ^ 16 +
      (Memory.read m (a + 2)).toNat * 2 ^ 8 + (Memory.read m (a + 3)).toNat ∧
    (∀ w : Width,
      (∀ i, i < bytesOf w →
        Memory.read (storeValue m a w v) (a + i) = v.extractLsb' (8 * (bytesOf w - 1 - i)) 8) ∧
      (∀ x, x < a ∨ a + bytesOf w ≤ x → Memory.read (storeValue m a w v) x = Memory.read m x) ∧
      valueAt (storeValue m a w v) a w = lowBits w v ∧
      Memory.wf (storeValue m a w v) = true) ∧
    valueAt (storeValue m a .word 0x11223344#32) a .byte = 0x11#32 ∧
    valueAt (storeValue m a .word 0x11223344#32) (a + 3) .byte = 0x44#32 ∧
    valueAt (storeValue m a .word 0x11223344#32) (a + 2) .half = 0x3344#32

/-- R57: a read by the core. -/
def Obligations.MemReadRule : Prop :=
  ∀ (s : State) (a : Word) (w : Width),
    (resolve s.par.regionMap a = none → memRead s a w = .busError s) ∧
    ∀ r, resolve s.par.regionMap a = some r →
      (r.kind = .rom → offsetIn r a + bytesOf w > s.rom.size → memRead s a w = .busError s) ∧
      (r.kind = .rom → offsetIn r a + bytesOf w ≤ s.rom.size →
        memRead s a w = .ok (valueAt s.rom.cells (offsetIn r a) w) s) ∧
      (r.kind = .ram → memRead s a w = .ok (valueAt s.mem a.toNat w) s) ∧
      (r.kind = .device ∨ r.kind = .coprocLocal →
        memRead s a w = deviceCall s { addr := a, width := w, write := none })

/-- R58, with R54: a write by the core. A store to ROM or to no region is a bus error; a write that raises changes no
memory byte; a write to RAM is the write of R44. The model's choices: a write that a device answers with `DeviceFault` leaves
the whole coprocessor alone (log 24), and the words a store to a dispatch region touches enter W (log 17). -/
def Obligations.MemWriteRule : Prop :=
  ∀ (s : State) (a : Word) (w : Width) (v : Word),
    (resolve s.par.regionMap a = none → memWrite s a w v = .busError s) ∧
    (∀ r, resolve s.par.regionMap a = some r →
      (r.kind = .rom → memWrite s a w v = .busError s) ∧
      (r.kind = .ram → ∃ t, memWrite s a w v = .ok 0#32 t ∧ t.mem = storeValue s.mem a.toNat w v ∧
        t = { s with mem := t.mem, smcW := t.smcW }) ∧
      (r.kind = .device ∨ r.kind = .coprocLocal → memWrite s a w v =
        match deviceCall s { addr := a, width := w, write := some (lowBits w v) } with
        | .busError t => .busError t
        | .ok x t => .ok x (t.markWritten a.toNat (bytesOf w)))) ∧
    (∀ t, memWrite s a w v = .busError t → t.mem = s.mem ∧ t.rom = s.rom ∧ t.vcop = s.vcop)

/-- R39 and R40: a map built by `MapRegion` stays sound, an overlap is refused, `Resolve` finds the one region that
contains an address, and an aligned access lies in one region. The model's readings: a size under 4 is refused too, and a
bad descriptor is refused as `badDescriptor`, also when it overlaps (log 26). -/
def Obligations.RegionsResolveUniquely : Prop :=
  (∀ (m m' : List Region) (r : Region), mapOk m = true → mapRegion m r = .ok m' → mapOk m' = true ∧ m' = r :: m) ∧
  (∀ (m : List Region) (r : Region),
    ¬ (r.base.toNat % 4 = 0 ∧ r.size % 4 = 0 ∧ 4 ≤ r.size ∧ r.base.toNat + r.size ≤ 2 ^ 32) →
    mapRegion m r = .error .badDescriptor) ∧
  (∀ (m : List Region) (r q : Region) (a : Nat), regionOk r = true → q ∈ m → regionContains r a = true →
    regionContains q a = true → mapRegion m r = .error .overlap) ∧
  (∀ (m : List Region) (r : Region) (a : Word), mapOk m = true →
    (resolve m a = some r ↔ r ∈ m ∧ regionContains r a.toNat = true)) ∧
  ∀ (m : List Region) (a : Word) (w : Width) (i : Nat), mapOk m = true → a.toNat % bytesOf w = 0 → i < bytesOf w →
    resolve m (BitVec.ofNat 32 (a.toNat + i)) = resolve m a

/-! ## Loads and stores -/

/-- R141 to R145: the aligned loads. The alignment comes first, then the access, then the write of the register; from RAM
the instruction completes. -/
def Obligations.AlignedLoads : Prop :=
  ∀ (s : State) (rt rs : RegIdx) (imm : BitVec 16),
    let word := fun (op : BitVec 6) (i : Instr) => decode (iWord op rs rt imm) = .instr i
    (word 0x20#6 (.lb rt imm rs) ∧ word 0x24#6 (.lbu rt imm rs) ∧ word 0x21#6 (.lh rt imm rs) ∧
      word 0x25#6 (.lhu rt imm rs) ∧ word 0x23#6 (.lw rt imm rs)) ∧
    let a := s.reg rs + imm.signExtend 32
    let reads := fun (i : Instr) (w : Width) (extend : Word → Word) =>
      a.toNat % bytesOf w = 0 →
        (exec i s = match memRead s a w with
          | .busError t => .next (t.enter .dbe)
          | .ok v t => .next (t.setReg rt (extend v)).advance) ∧
        ∀ r, resolve s.par.regionMap a = some r → r.kind = .ram →
          exec i s = .next (s.setReg rt (extend (valueAt s.mem a.toNat w))).advance
    reads (.lb rt imm rs) .byte (fun v => (v.extractLsb' 0 8).signExtend 32) ∧
    reads (.lbu rt imm rs) .byte (fun v => v) ∧
    reads (.lh rt imm rs) .half (fun v => (v.extractLsb' 0 16).signExtend 32) ∧
    reads (.lhu rt imm rs) .half (fun v => v) ∧
    reads (.lw rt imm rs) .word (fun v => v) ∧
    (a.toNat % 2 ≠ 0 → exec (.lh rt imm rs) s = .next (s.enter (.adEL a)) ∧
      exec (.lhu rt imm rs) s = .next (s.enter (.adEL a))) ∧
    (a.toNat % 4 ≠ 0 → exec (.lw rt imm rs) s = .next (s.enter (.adEL a)))

/-- R146, R147: LWL and LWR make one aligned word access and fill the register from that end, never AdEL; from RAM they
complete. -/
def Obligations.UnalignedLoads : Prop :=
  ∀ (s : State) (rt rs : RegIdx) (imm : BitVec 16),
    let word := fun (op : BitVec 6) (i : Instr) => decode (iWord op rs rt imm) = .instr i
    (word 0x22#6 (.lwl rt imm rs) ∧ word 0x26#6 (.lwr rt imm rs)) ∧
    let a := s.reg rs + imm.signExtend 32
    let old := s.reg rt
    let left := fun w : Word =>
      if a.toNat % 4 = 0 then w
      else if a.toNat % 4 = 1 then w.extractLsb' 0 24 ++ old.extractLsb' 0 8
      else if a.toNat % 4 = 2 then w.extractLsb' 0 16 ++ old.extractLsb' 0 16
      else w.extractLsb' 0 8 ++ old.extractLsb' 0 24
    let right := fun w : Word =>
      if a.toNat % 4 = 3 then w
      else if a.toNat % 4 = 2 then old.extractLsb' 24 8 ++ w.extractLsb' 8 24
      else if a.toNat % 4 = 1 then old.extractLsb' 16 16 ++ w.extractLsb' 16 16
      else old.extractLsb' 8 24 ++ w.extractLsb' 24 8
    let base := BitVec.ofNat 32 (a.toNat / 4 * 4)
    (exec (.lwl rt imm rs) s = match memRead s base .word with
      | .busError t => .next (t.enter .dbe)
      | .ok v t => .next (t.setReg rt (left v)).advance) ∧
    (exec (.lwr rt imm rs) s = match memRead s base .word with
      | .busError t => .next (t.enter .dbe)
      | .ok v t => .next (t.setReg rt (right v)).advance) ∧
    ∀ r, resolve s.par.regionMap base = some r → r.kind = .ram →
      exec (.lwl rt imm rs) s = .next (s.setReg rt (left (valueAt s.mem base.toNat .word))).advance ∧
      exec (.lwr rt imm rs) s = .next (s.setReg rt (right (valueAt s.mem base.toNat .word))).advance

/-- R147's corner case: `lwl rt, n(b)` then `lwr rt, n+3(b)` loads the unaligned word at b + n from RAM. -/
def Obligations.LwlThenLwrLoadsUnalignedWord : Prop :=
  ∀ (s : State) (rt rs : RegIdx) (imm imm3 : BitVec 16) (r q : Region),
    rt ≠ 0#5 → rt ≠ rs → imm3.toInt = imm.toInt + 3 → (s.ea rs imm).toNat + 3 < 2 ^ 32 →
    resolve s.par.regionMap (wordBase (s.ea rs imm)) = some r → r.kind = .ram →
    resolve s.par.regionMap (wordBase (s.ea rs imm + 3)) = some q → q.kind = .ram →
    ∃ t u, exec (.lwl rt imm rs) s = .next t ∧ exec (.lwr rt imm3 rs) t = .next u ∧
      u.reg rt = Memory.read s.mem (s.ea rs imm).toNat ++ Memory.read s.mem ((s.ea rs imm).toNat + 1) ++
        Memory.read s.mem ((s.ea rs imm).toNat + 2) ++ Memory.read s.mem ((s.ea rs imm).toNat + 3)

/-- R148 to R150: the aligned stores. -/
def Obligations.AlignedStores : Prop :=
  ∀ (s : State) (rt rs : RegIdx) (imm : BitVec 16),
    let word := fun (op : BitVec 6) (i : Instr) => decode (iWord op rs rt imm) = .instr i
    (word 0x28#6 (.sb rt imm rs) ∧ word 0x29#6 (.sh rt imm rs) ∧ word 0x2B#6 (.sw rt imm rs)) ∧
    let a := s.reg rs + imm.signExtend 32
    let stores := fun (i : Instr) (w : Width) =>
      a.toNat % bytesOf w = 0 →
        (exec i s = match memWrite s a w (s.reg rt) with
          | .busError t => .next (t.enter .dbe)
          | .ok _ t => .next t.advance) ∧
        ∀ r, resolve s.par.regionMap a = some r → r.kind = .ram → ∃ t, exec i s = .next t ∧
          t.mem = storeValue s.mem a.toNat w (s.reg rt) ∧
          t = State.advance { s with mem := t.mem, smcW := t.smcW }
    stores (.sb rt imm rs) .byte ∧ stores (.sh rt imm rs) .half ∧ stores (.sw rt imm rs) .word ∧
    (a.toNat % 2 ≠ 0 → exec (.sh rt imm rs) s = .next (s.enter (.adES a))) ∧
    (a.toNat % 4 ≠ 0 → exec (.sw rt imm rs) s = .next (s.enter (.adES a)))

/-- R151 to R153: SWL and SWR. A whole word is a store of that word; fewer bytes go to RAM as the rule lists them, raise
DBE for ROM and for no region, and stop for a dispatch region. -/
def Obligations.UnalignedStores : Prop :=
  ∀ (s : State) (rt rs : RegIdx) (imm : BitVec 16),
    let word := fun (op : BitVec 6) (i : Instr) => decode (iWord op rs rt imm) = .instr i
    (word 0x2A#6 (.swl rt imm rs) ∧ word 0x2E#6 (.swr rt imm rs)) ∧
    let a := s.reg rs + imm.signExtend 32
    let k := a.toNat % 4
    let base := BitVec.ofNat 32 (a.toNat / 4 * 4)
    let v := s.reg rt
    let whole := match memWrite s base .word v with
      | .busError t => .next (t.enter .dbe)
      | .ok _ t => .next t.advance
    let part := fun (i : Instr) (first n shift : Nat) =>
      (resolve s.par.regionMap base = none → exec i s = .next (s.enter .dbe)) ∧
      ∀ r, resolve s.par.regionMap base = some r →
        (r.kind = .rom → exec i s = .next (s.enter .dbe)) ∧
        (r.kind = .device ∨ r.kind = .coprocLocal →
          exec i s = .fault (.unpredictable .partialDeviceStore)) ∧
        (r.kind = .ram → Memory.wf s.mem = true → ∃ t, exec i s = .next t ∧
          t = State.advance { s with mem := t.mem, smcW := t.smcW } ∧
          (∀ j, j < n → Memory.read t.mem (first + j) = v.extractLsb' (shift - 8 * j) 8) ∧
          (∀ x, x < first ∨ first + n ≤ x → Memory.read t.mem x = Memory.read s.mem x))
    (k = 0 → exec (.swl rt imm rs) s = whole) ∧
    (k ≠ 0 → part (.swl rt imm rs) a.toNat (4 - k) 24) ∧
    (k = 3 → exec (.swr rt imm rs) s = whole) ∧
    (k ≠ 3 → part (.swr rt imm rs) (a.toNat / 4 * 4) (k + 1) (8 * k))

/-- R152's corner case: `swl rt, n(b)` then `swr rt, n+3(b)` stores x[rt] at the unaligned address b + n of RAM, and no
other byte changes. -/
def Obligations.SwlThenSwrStoresUnalignedWord : Prop :=
  ∀ (s : State) (rt rs : RegIdx) (imm imm3 : BitVec 16) (r q : Region),
    imm3.toInt = imm.toInt + 3 → (s.ea rs imm).toNat + 3 < 2 ^ 32 → Memory.wf s.mem = true →
    resolve s.par.regionMap (wordBase (s.ea rs imm)) = some r → r.kind = .ram →
    resolve s.par.regionMap (wordBase (s.ea rs imm + 3)) = some q → q.kind = .ram →
    ∃ t u, exec (.swl rt imm rs) s = .next t ∧ exec (.swr rt imm3 rs) t = .next u ∧
      (∀ i, i < 4 → Memory.read u.mem ((s.ea rs imm).toNat + i) = (s.reg rt).extractLsb' (24 - 8 * i) 8) ∧
      ∀ x, x < (s.ea rs imm).toNat ∨ (s.ea rs imm).toNat + 4 ≤ x → Memory.read u.mem x = Memory.read s.mem x

/-- R154, R155: LL and SC. Where the spec leaves SC's success bit to a free choice, the statement holds for whichever bit
is drawn, and the draw advances a counter (log 11). `Foreign` as a bit that LL clears, the writes that set it, and the device
read of an LL coming before its reservation are the model's reading, log 19. -/
def Obligations.LoadLinkedStoreConditional : Prop :=
  ∀ (s : State) (rt rs : RegIdx) (imm : BitVec 16),
    let word := fun (op : BitVec 6) (i : Instr) => decode (iWord op rs rt imm) = .instr i
    (word 0x30#6 (.ll rt imm rs) ∧ word 0x38#6 (.sc rt imm rs)) ∧
    (∀ (b : Nat) (bs : List Byte), (s.foreignWrite b bs).llForeign = true ↔
      s.llForeign = true ∨ (bs ≠ [] ∧ b < s.llAddr.toNat + 4 ∧ s.llAddr.toNat < b + bs.length)) ∧
    (∀ (b : Nat) (bs : List Byte), (s.foreignLocal b bs).llForeign = true ↔
      s.llForeign = true ∨ ∃ r, resolve s.par.regionMap s.llAddr = some r ∧ r.kind = .coprocLocal ∧
        (bs ≠ [] ∧ b < offsetIn r s.llAddr + 4 ∧ offsetIn r s.llAddr < b + bs.length)) ∧
    let a := s.reg rs + imm.signExtend 32
    let fails := fun u : State => Host.Outcome.next (State.advance { u with gpr := gprSet u.gpr rt 0#32, llbit := false })
    let stores := fun u : State => match memWrite u a .word (s.reg rt) with
      | .busError t => Host.Outcome.next (t.enter .dbe)
      | .ok _ t => .next (State.advance { t with gpr := gprSet t.gpr rt 1#32, llbit := false })
    (a.toNat % 4 ≠ 0 → exec (.ll rt imm rs) s = .next (s.enter (.adEL a))) ∧
    (a.toNat % 4 = 0 →
      (exec (.ll rt imm rs) s = match memRead s a .word with
        | .busError t => .next (t.enter .dbe)
        | .ok v t =>
          .next (State.advance { t with gpr := gprSet t.gpr rt v, llbit := true, llAddr := a, llForeign := false })) ∧
      ∀ r, resolve s.par.regionMap a = some r → r.kind = .ram → ∃ t, exec (.ll rt imm rs) s = .next t ∧
        t.llbit = true ∧ t.llAddr = a ∧ (rt ≠ 0#5 → t.reg rt = valueAt s.mem a.toNat .word)) ∧
    (a.toNat % 4 ≠ 0 → exec (.sc rt imm rs) s = .next (s.enter (.adES a))) ∧
    (a.toNat % 4 = 0 →
      (s.llbit = false → exec (.sc rt imm rs) s = fails s) ∧
      (s.llbit = true → a = s.llAddr → s.llForeign = false → exec (.sc rt imm rs) s = stores s) ∧
      (s.llbit = true → ¬ (a = s.llAddr ∧ s.llForeign = false) → ∃ ok : Bool,
        exec (.sc rt imm rs) s =
          if ok then stores { s with draws := s.draws + 1 } else fails { s with draws := s.draws + 1 }))

/-- R155's corner case: LL then SC to the same RAM address always succeeds when nothing comes between them. -/
def Obligations.LlThenScSucceeds : Prop :=
  ∀ (s : State) (rt q rs : RegIdx) (imm : BitVec 16) (r : Region),
    (s.ea rs imm).toNat % 4 = 0 → resolve s.par.regionMap (s.ea rs imm) = some r → r.kind = .ram →
    Memory.wf s.mem = true → (q ≠ rs ∨ q = 0#5) → rt ≠ 0#5 →
    ∃ t u, exec (.ll q imm rs) s = .next t ∧ exec (.sc rt imm rs) t = .next u ∧
      u.reg rt = 1#32 ∧ u.llbit = false ∧ valueAt u.mem (s.ea rs imm).toNat .word = t.reg rt

/-! ## System, traps, coprocessor 0 -/

/-- R156, R158, R159: SYNC does nothing, SYSCALL and BREAK enter Sys and Bp, whatever their code fields hold. -/
def Obligations.SyncSyscallBreak : Prop :=
  ∀ (s : State) (stype : BitVec 5) (code : BitVec 20),
    (∀ x y z, decode (rWord x y z stype 0x0F#6) = .instr (.sync stype) ∧
      decode (specialCodeWord code 0x0C#6) = .instr (.syscall code) ∧
      decode (specialCodeWord code 0x0D#6) = .instr (.brk code)) ∧
    (∀ e ∈ [Exn.sys, Exn.bp], (s.enter e).epc = (if s.delay then s.pc - 4 else s.pc) ∧
      (s.enter e).causeWord.getLsbD 31 = s.delay ∧ (s.enter e).pc = s.par.excVector) ∧
    exec (.sync stype) s = .next s.advance ∧
    exec (.syscall code) s = .next (s.enter .sys) ∧ (s.enter .sys).causeWord.extractLsb' 2 5 = 8#5 ∧
    exec (.brk code) s = .next (s.enter .bp) ∧ (s.enter .bp).causeWord.extractLsb' 2 5 = 9#5

/-- R160 to R171: each trap raises Tr when its condition holds and does nothing otherwise. -/
def Obligations.ConditionalTraps : Prop :=
  ∀ (s : State) (rs rt : RegIdx) (code : BitVec 10) (imm : BitVec 16),
    let word := fun (f : BitVec 6) (i : Instr) => decode (trapWord rs rt code f) = .instr i
    let wordi := fun (sub : RegIdx) (i : Instr) => decode (iWord 0x01#6 rs sub imm) = .instr i
    (word 0x30#6 (.tge rs rt code) ∧ word 0x31#6 (.tgeu rs rt code) ∧ word 0x32#6 (.tlt rs rt code) ∧
      word 0x33#6 (.tltu rs rt code) ∧ word 0x34#6 (.teq rs rt code) ∧ word 0x36#6 (.tne rs rt code) ∧
      wordi 0x08#5 (.tgei rs imm) ∧ wordi 0x09#5 (.tgeiu rs imm) ∧ wordi 0x0A#5 (.tlti rs imm) ∧
      wordi 0x0B#5 (.tltiu rs imm) ∧ wordi 0x0C#5 (.teqi rs imm) ∧ wordi 0x0E#5 (.tnei rs imm)) ∧
    let x := s.reg rs
    let y := s.reg rt
    let z := imm.signExtend 32
    let traps := fun (i : Instr) (c : Prop) =>
      (c → exec i s = .next (s.enter .tr)) ∧ (¬ c → exec i s = .next s.advance)
    traps (.tge rs rt code) (x.toInt ≥ y.toInt) ∧ traps (.tgeu rs rt code) (x.toNat ≥ y.toNat) ∧
    traps (.tlt rs rt code) (x.toInt < y.toInt) ∧ traps (.tltu rs rt code) (x.toNat < y.toNat) ∧
    traps (.teq rs rt code) (x = y) ∧ traps (.tne rs rt code) (x ≠ y) ∧
    traps (.tgei rs imm) (x.toInt ≥ imm.toInt) ∧ traps (.tgeiu rs imm) (x.toNat ≥ z.toNat) ∧
    traps (.tlti rs imm) (x.toInt < imm.toInt) ∧ traps (.tltiu rs imm) (x.toNat < z.toNat) ∧
    traps (.teqi rs imm) (x = z) ∧ traps (.tnei rs imm) (x ≠ z)

/-- R172: MFC0 of every implemented register, and the stop for the others. -/
def Obligations.Mfc0Reads : Prop :=
  ∀ (s : State) (rt n : RegIdx),
    (∀ x : BitVec 11, decode (0x10#6 ++ 0x00#5 ++ rt ++ n ++ x) = .instr (.mfc0 rt n)) ∧
    exec (.mfc0 rt 8#5) s = .next (s.setReg rt s.badVAddr).advance ∧
    exec (.mfc0 rt 12#5) s =
      .next (s.setReg rt (s.status.cu ++ 0#12 ++ s.status.im ++ 0#2 ++ s.status.kuie)).advance ∧
    exec (.mfc0 rt 13#5) s =
      .next (s.setReg rt (BitVec.ofBool s.cause.bd ++ 0#1 ++ s.cause.ce ++ 0#12 ++ s.intLevels ++ s.cause.ip ++ 0#1 ++
        s.cause.excCode ++ 0#2)).advance ∧
    exec (.mfc0 rt 14#5) s = .next (s.setReg rt s.epc).advance ∧
    exec (.mfc0 rt 15#5) s = .next (s.setReg rt s.par.prid).advance ∧
    (n ∉ [8#5, 12#5, 13#5, 14#5, 15#5] → exec (.mfc0 rt n) s = .fault (.unpredictable .unimplementedCp0))

/-- R173: MTC0 with the write masks, as the registers are then read; and the stop for an unimplemented number. -/
def Obligations.Mtc0Writes : Prop :=
  ∀ (s : State) (rt n : RegIdx),
    (∀ x : BitVec 11, decode (0x10#6 ++ 0x04#5 ++ rt ++ n ++ x) = .instr (.mtc0 rt n)) ∧
    let v := s.reg rt
    (∃ t, exec (.mtc0 rt 12#5) s = .next t ∧ t.status.toWord = v &&& 0xF000FF3F#32 ∧
      t = State.advance { s with status := t.status }) ∧
    (∃ t, exec (.mtc0 rt 13#5) s = .next t ∧
      t.causeWord = (s.causeWord &&& ~~~0x00000300#32) ||| (v &&& 0x00000300#32) ∧
      t = State.advance { s with cause := t.cause }) ∧
    exec (.mtc0 rt 14#5) s = .next (State.advance { s with epc := v }) ∧
    exec (.mtc0 rt 8#5) s = .next s.advance ∧
    exec (.mtc0 rt 15#5) s = .next s.advance ∧
    (n ∉ [8#5, 12#5, 13#5, 14#5, 15#5] → exec (.mtc0 rt n) s = .fault (.unpredictable .unimplementedCp0))

/-- R174: RFE pops the status stack, leaves bits 5:4, and drops the reservation; so after an exception entry it gives back
the bits 3:0 the entry pushed (R187). -/
def Obligations.RfePopsStatus : Prop :=
  (∀ x : BitVec 19, decode (0x10#6 ++ 1#1 ++ x ++ 0x10#6) = .instr .rfe) ∧
  (∀ (s : State), ∃ t, exec .rfe s = .next t ∧
    t.status.toWord.extractLsb' 0 4 = s.status.toWord.extractLsb' 2 4 ∧
    t.status.toWord.extractLsb' 4 28 = s.status.toWord.extractLsb' 4 28 ∧
    t = State.advance { s with status := t.status, llbit := false }) ∧
  ∀ (s : State) (e : Exn), ∃ t, exec .rfe (s.enter e) = .next t ∧
    t.status.toWord.extractLsb' 0 4 = s.status.toWord.extractLsb' 0 4 ∧
    t.status.toWord.extractLsb' 4 2 = s.status.toWord.extractLsb' 2 2 ∧
    t.status.toWord.extractLsb' 8 24 = s.status.toWord.extractLsb' 8 24

/-- R175: every encoding of the coprocessors 1 to 3 raises CpU with CE = z, whatever Status holds, and makes no access. -/
def Obligations.CoprocessorsUnusable : Prop :=
  (∀ x : BitVec 26, decode (jWord 0x11#6 x) = .instr .cop1 ∧ decode (jWord 0x12#6 x) = .instr .cop2 ∧
      decode (jWord 0x13#6 x) = .instr .cop3 ∧ decode (jWord 0x31#6 x) = .instr .lwc1 ∧
      decode (jWord 0x32#6 x) = .instr .lwc2 ∧ decode (jWord 0x33#6 x) = .instr .lwc3 ∧
      decode (jWord 0x35#6 x) = .instr .ldc1 ∧ decode (jWord 0x36#6 x) = .instr .ldc2 ∧
      decode (jWord 0x37#6 x) = .instr .ldc3 ∧ decode (jWord 0x39#6 x) = .instr .swc1 ∧
      decode (jWord 0x3A#6 x) = .instr .swc2 ∧ decode (jWord 0x3B#6 x) = .instr .swc3 ∧
      decode (jWord 0x3D#6 x) = .instr .sdc1 ∧ decode (jWord 0x3E#6 x) = .instr .sdc2 ∧
      decode (jWord 0x3F#6 x) = .instr .sdc3) ∧
  ∀ (s : State),
    (∀ i ∈ [Instr.cop1, .lwc1, .ldc1, .swc1, .sdc1], exec i s = .next (s.enter (.cpu 1#2))) ∧
    (∀ i ∈ [Instr.cop2, .lwc2, .ldc2, .swc2, .sdc2], exec i s = .next (s.enter (.cpu 2#2))) ∧
    (∀ i ∈ [Instr.cop3, .lwc3, .ldc3, .swc3, .sdc3], exec i s = .next (s.enter (.cpu 3#2))) ∧
    (∀ z, (s.enter (.cpu z)).causeWord.extractLsb' 28 2 = z ∧ (s.enter (.cpu z)).causeWord.extractLsb' 2 5 = 11#5 ∧
      (s.enter (.cpu z)).mem = s.mem ∧ (s.enter (.cpu z)).dev = s.dev)

/-- R206: an MTC0 to Status that enables a pending interrupt causes it at the start of the very next step, with EPC the
next instruction to execute and Cause.BD = 0. -/
def Obligations.Mtc0EnablesInterruptAtOnce : Prop :=
  ∀ (s : State) (rt : RegIdx), s.run = .running → (s.reg rt).getLsbD 0 = true →
    (s.causeWord.extractLsb' 8 8 &&& (s.reg rt).extractLsb' 8 8) ≠ 0#8 →
    ∃ t u, exec (.mtc0 rt 12#5) s = .next t ∧ step t = .next u ∧ u.epc = s.npc ∧
      u.causeWord.getLsbD 31 = false ∧ u.causeWord.extractLsb' 2 5 = 0#5 ∧ u.pc = s.par.excVector

/-! ## Frames -/

/-- What an instruction that neither loads, stores, nor writes HI, LO or the control registers leaves unchanged when it
does not raise: everything but its destination register and the sequencing, every byte of memory among it. -/
def Obligations.RegisterInstructionsFrame : Prop :=
  ∀ (i : Instr) (s t : State), isLoad i = false → storeSpan s i = none → writesHiLo i = false → writesCp0 i = false →
    exec i s = .next t →
    (∃ e, t = s.enter e) ∨
    (∀ q, destination i ≠ some q → t.reg q = s.reg q) ∧
    (∀ a, Memory.read t.mem a = Memory.read s.mem a) ∧
    t = { s with gpr := t.gpr, pc := t.pc, npc := t.npc, delay := t.delay, taken := t.taken, smcW := t.smcW }

/-- What MULT, MULTU, DIV, DIVU, MTHI, MTLO, MTC0 and RFE leave unchanged: everything but HI and LO (MTHI leaves LO, MTLO
leaves HI), or the one control register (RFE: Status and LLbit), and the sequencing. -/
def Obligations.HiLoAndCp0Frame : Prop :=
  ∀ (i : Instr) (s t : State), exec i s = .next t →
    (writesHiLo i = true →
      (∀ q, t.reg q = s.reg q) ∧ (∀ a, Memory.read t.mem a = Memory.read s.mem a) ∧
      ((∃ r, i = .mthi r) → t.lo = s.lo) ∧ ((∃ r, i = .mtlo r) → t.hi = s.hi) ∧
      t = { s with hi := t.hi, lo := t.lo, pc := t.pc, npc := t.npc, delay := t.delay, taken := t.taken,
                   smcW := t.smcW }) ∧
    (writesCp0 i = true →
      (∀ q, t.reg q = s.reg q) ∧ (∀ a, Memory.read t.mem a = Memory.read s.mem a) ∧
      (∀ rt n, i = .mtc0 rt n → (n ≠ 12#5 → t.status = s.status) ∧ (n ≠ 13#5 → t.cause = s.cause) ∧
        (n ≠ 14#5 → t.epc = s.epc) ∧ t.llbit = s.llbit) ∧
      (i = .rfe → t.cause = s.cause ∧ t.epc = s.epc) ∧
      t = { s with status := t.status, cause := t.cause, epc := t.epc, llbit := t.llbit, pc := t.pc, npc := t.npc,
                   delay := t.delay, taken := t.taken, smcW := t.smcW })

/-- What the loads and LL leave unchanged: every register but the destination, HI, LO, the ROM, and, when they do not
raise, every control register and (LL aside) the reservation; and where no device is called, every byte of memory and the
devices. The model's choices: what a device may change in a call (log 12), and that a call answered with `DeviceFault` leaves
only its record and a draw (log 24). -/
def Obligations.LoadsFrame : Prop :=
  ∀ (i : Instr) (s t : State) (a : Word), isLoad i = true → accessAddress s i = some a → exec i s = .next t →
    (∀ q, destination i ≠ some q → t.reg q = s.reg q) ∧
    t.hi = s.hi ∧ t.lo = s.lo ∧ t.rom = s.rom ∧ t.par = s.par ∧ t.run = s.run ∧
    ((∃ e d n, t = State.enter { s with dev := d, draws := n } e) ∨
      t.status = s.status ∧ t.cause = s.cause ∧ t.epc = s.epc ∧ t.badVAddr = s.badVAddr ∧
      ((∀ rt imm rs, i ≠ .ll rt imm rs) → t.llbit = s.llbit ∧ t.llAddr = s.llAddr)) ∧
    (noDevice s a → (∀ x, Memory.read t.mem x = Memory.read s.mem x) ∧ t.vcop = s.vcop ∧ t.int = s.int ∧
      t.dev = s.dev)

/-- What the stores and SC leave unchanged: every register but SC's destination, HI, LO, the ROM, and, when they do not
raise, every control register; and where no device is called, the devices and every byte outside the bytes stored, whose
address is computed as the meaning computes it. The model's choices: what a device may change in a call (log 12), and that a
call answered with `DeviceFault` leaves only its record and a draw (log 24). -/
def Obligations.StoresFrame : Prop :=
  ∀ (i : Instr) (s t : State) (first access : Word) (n : Nat), storeSpan s i = some (first, n) →
    accessAddress s i = some access → exec i s = .next t →
    (∀ q, destination i ≠ some q → t.reg q = s.reg q) ∧
    t.hi = s.hi ∧ t.lo = s.lo ∧ t.rom = s.rom ∧ t.par = s.par ∧ t.run = s.run ∧ t.llAddr = s.llAddr ∧
    ((∃ e d n, t = State.enter { s with dev := d, draws := n } e) ∨
      t.status = s.status ∧ t.cause = s.cause ∧ t.epc = s.epc ∧ t.badVAddr = s.badVAddr ∧
      ((∀ rt imm rs, i ≠ .sc rt imm rs) → t.llbit = s.llbit)) ∧
    (noDevice s access →
      (∀ x, x < first.toNat ∨ first.toNat + n ≤ x → Memory.read t.mem x = Memory.read s.mem x) ∧
      t.vcop = s.vcop ∧ t.int = s.int ∧ t.dev = s.dev)

/-- Where instructions stop (R10): every instruction answers a next state in every state, but for five situations the spec
refuses (R28, R124, R129, R136, R137, R153). No instruction is refused. The spec has a sixth, `UnwrittenRegister`, the read
of a register that was never written (R17, R18, D7); the model does not have it: its choice, log 2. -/
def Obligations.ExecStopsOnlyWhereNamed : Prop :=
  ∀ (i : Instr) (s : State),
    (∃ t, exec i s = .next t) ∨
    (isControlTransfer i = true ∧ s.delay = true ∧ exec i s = .fault (.unpredictable .branchInDelaySlot)) ∨
    (∃ r, i = .jalr r r ∧ exec i s = .fault (.unpredictable .jalrSameRegister)) ∨
    (∃ imm, (i = .bltzal 31#5 imm ∨ i = .bgezal 31#5 imm) ∧ exec i s = .fault (.unpredictable .linkSourceClash)) ∨
    (∃ rt n, (i = .mfc0 rt n ∨ i = .mtc0 rt n) ∧ implementedCp0 n = false ∧
      exec i s = .fault (.unpredictable .unimplementedCp0)) ∨
    (∃ rt imm rs r, (i = .swl rt imm rs ∧ byteInWord (s.ea rs imm) ≠ 0#2 ∨
        i = .swr rt imm rs ∧ byteInWord (s.ea rs imm) ≠ 3#2) ∧
      resolve s.par.regionMap (wordBase (s.ea rs imm)) = some r ∧ r.kind.mode = .dispatch ∧
      exec i s = .fault (.unpredictable .partialDeviceStore))

/-- R190, R157, R175: no instruction's behaviour depends on the mode bits, the coprocessor-usable bits or any other part of
Status, but for reading Status: executed with another Status, it does the same to everything else. -/
def Obligations.StatusChangesNoBehaviour : Prop :=
  ∀ (i : Instr) (s t : State) (other : Status), (∀ rt, i ≠ .mfc0 rt 12#5) → exec i s = .next t →
    ∃ u, exec i { s with status := other } = .next u ∧ u = { t with status := u.status }

/-! ## Invariants -/

/-- Every step keeps the invariant. -/
def Obligations.InvariantKeptByStep : Prop := ∀ (s t : State), Inv s → step s = .next t → Inv t

/-- The invariant holds after reset, and after every launch with a sound map, canonical contents and a ROM within its
size. -/
def Obligations.InvariantAtReset : Prop :=
  Inv State.reset ∧
  ∀ (p : Params) (i : Init) (rom : Rom), mapOk p.regionMap = true → Memory.wf i.ram = true →
    Memory.canonicalFrom rom.size 0 rom.cells = true → Inv (State.atLaunch p i rom)

/-- R42, R54: every step keeps the ROM, the map and the other parameters, and writes bytes of RAM regions only. -/
def Obligations.StepsWriteRamOnly : Prop :=
  ∀ (s t : State), step s = .next t →
    t.rom = s.rom ∧ t.par = s.par ∧ (Inv s → MemInRam s → MemInRam t)

/-! ## Devices and the vector coprocessor -/

/-- R194: a DMA request that is in range copies its bytes and no others, one that is not changes no byte of either space
and shows in the status register; neither touches the core's registers. A write of the word at LLAddr, in RAM or in a window
of the local memory, is foreign to the reservation (R155; log 19). A write that the DMA registers of `VCOP_REGS` take as the
start of a request carries out the request they hold. The model's choices: a request in range clears the failure bit, the
bytes of the ROM window beyond the image are free values, and a request of no bytes is held to the ranges by its addresses,
so that one whose address lies outside them sets the failure bit (log 15); a request is of any number of bytes (log 32); the layout of the DMA registers (log 14). -/
def Obligations.DmaAllOrNothing : Prop :=
  (∀ (s : State) (dir : DmaDir) (main loc len : Nat), Inv s →
    let inRange := (∃ r ∈ s.par.regionMap, r.base.toNat ≤ main ∧ main + len ≤ r.base.toNat + r.size ∧
        (r.kind = .ram ∨ r.kind = .rom ∧ dir = .mainToLocal)) ∧
      loc + len ≤ s.vcop.localSize
    let t := s.dma dir main loc len
    SameCore s t ∧
    (¬ inRange → t.mem = s.mem ∧ t.vcop.localMem = s.vcop.localMem ∧ t.vcop.dmaError = true) ∧
    (inRange → t.vcop.dmaError = false ∧
      (dir = .mainToLocal → t.mem = s.mem ∧
        (∀ j r, j < len → resolve s.par.regionMap (BitVec.ofNat 32 (main + j)) = some r →
          (r.kind = .ram → Memory.read t.vcop.localMem (loc + j) = Memory.read s.mem (main + j)) ∧
          (r.kind = .rom → main + j - r.base.toNat < s.rom.size →
            Memory.read t.vcop.localMem (loc + j) = Memory.read s.rom.cells (main + j - r.base.toNat))) ∧
        (∀ x, x < loc ∨ loc + len ≤ x → Memory.read t.vcop.localMem x = Memory.read s.vcop.localMem x) ∧
        (t.llForeign = true ↔ s.llForeign = true ∨ ∃ r, resolve s.par.regionMap s.llAddr = some r ∧
          r.kind = .coprocLocal ∧ 0 < len ∧ loc < offsetIn r s.llAddr + 4 ∧ offsetIn r s.llAddr < loc + len)) ∧
      (dir = .localToMain → t.vcop.localMem = s.vcop.localMem ∧
        (∀ j, j < len → Memory.read t.mem (main + j) = Memory.read s.vcop.localMem (loc + j)) ∧
        (∀ x, x < main ∨ main + len ≤ x → Memory.read t.mem x = Memory.read s.mem x) ∧
        (t.llForeign = true ↔
          s.llForeign = true ∨ (0 < len ∧ main < s.llAddr.toNat + 4 ∧ s.llAddr.toNat < main + len))))) ∧
  ∀ (s : State) (c : DevCall) (reply : DevReply) (l : DmaLayout) (dir : DmaDir),
    s.par.vcopRegs.dma = some l → l.started c = some dir → startsRun s.par c = false →
    (∀ r, resolve s.par.regionMap c.addr = some r → r.kind ≠ .coprocLocal) →
    let t := s.afterDeviceCall c reply
    let main := (l.main.written c).getD s.vcop.dmaMain
    let loc := (l.loc.written c).getD s.vcop.dmaLocal
    let blocks := match l.count with
      | none => 1
      | some f => (f.written c).getD s.vcop.dmaCount
    let u := State.dma { s with draws := s.draws + 1 } dir main loc (blocks * l.blockSize)
    t.mem = u.mem ∧ t.vcop.localMem = u.vcop.localMem ∧ t.vcop.dmaError = u.vcop.dmaError ∧ t.llForeign = u.llForeign

/-- R55, R56, R62, R193, R195: an access to a dispatch region is one device call, on record; whatever the device answers,
the core's registers stay. A call that starts a run has the run complete, with the status bit set and the enabled interrupt
asserted; outside a run the coprocessor's registers and microcode address stay, and its local memory but for DMA and a store
through a window. A read of the status register shows the completion and the failure bit (R193, R194), and an access
through a window is made on the local memory (R42). The model's choices: a call answered with `DeviceFault` leaves nothing
but its record (log 24); what a device may change in a call, and the cut of a value to the width (log 12); which write
starts a run, the layout of the registers, and whether the oracle's answer enables the interrupt (log 14); the local
address of an access through a window (log 31); that the registers stay below 2 ^ width (log 13). -/
def Obligations.DeviceCallsAndRuns : Prop :=
  ∀ (s : State) (c : DevCall) (reply : DevReply),
    (reply.fault = true → s.answerCall c reply = .busError { s with dev := c :: s.dev, draws := s.draws + 1 }) ∧
    (reply.fault = false → ∃ v t, s.answerCall c reply = .ok v t ∧
      SameCore s t ∧ t.dev = c :: s.dev ∧ t.int = reply.int ∧
      -- the value
      (∀ r, resolve s.par.regionMap c.addr = some r → r.kind = .coprocLocal →
        offsetIn r c.addr + bytesOf c.width ≤ s.vcop.localSize →
        v = valueAt s.vcop.localMem (offsetIn r c.addr) c.width) ∧
      ((∀ r, resolve s.par.regionMap c.addr = some r → r.kind ≠ .coprocLocal) →
        (∀ l, s.par.vcopRegs.status = some l → c.addr = l.addr → c.width = .word → l.doneBit ≠ l.failBit →
          v.getLsbD l.doneBit.val = s.vcop.done ∧ v.getLsbD l.failBit.val = s.vcop.dmaError ∧
          ∀ i : Fin 32, i ≠ l.doneBit → i ≠ l.failBit → v.getLsbD i.val = reply.value.getLsbD i.val) ∧
        ((∀ l, s.par.vcopRegs.status = some l → c.addr ≠ l.addr) → v = lowBits c.width reply.value)) ∧
      -- a run
      (startsRun s.par c = true → t.vcop.done = true ∧
        ((match s.par.vcopRegs.irqEnable with
          | none => reply.irqEnable = true
          | some f => (f.written c).getD s.vcop.irqEnabled.toNat ≠ 0) →
          t.vcop.irq = true ∧ ∀ l, s.par.vcopIrqLine = some l → t.intLevels.getLsbD l.val = true)) ∧
      -- outside a run
      (startsRun s.par c = false → t.vcop.regs = s.vcop.regs ∧ t.vcop.microPc = s.vcop.microPc ∧
        ((∀ l, s.par.vcopRegs.dma = some l → l.started c = none) →
          (∀ r, resolve s.par.regionMap c.addr = some r → r.kind = .coprocLocal →
            offsetIn r c.addr + bytesOf c.width ≤ s.vcop.localSize →
            t.mem = s.mem ∧ t.vcop.localMem =
              match c.write with
              | none => s.vcop.localMem
              | some w => storeValue s.vcop.localMem (offsetIn r c.addr) c.width w) ∧
          (s.par.vcopRegs.dma ≠ none → (∀ r, resolve s.par.regionMap c.addr = some r → r.kind ≠ .coprocLocal) →
            t.mem = s.mem ∧ t.vcop.localMem = s.vcop.localMem))) ∧
      -- what no call changes
      t.vcop.localSize = s.vcop.localSize ∧ t.vcop.regWidth = s.vcop.regWidth ∧
      t.vcop.regs.length = s.vcop.regs.length ∧
      ((∀ x ∈ s.vcop.regs, x < 2 ^ s.vcop.regWidth) → ∀ x ∈ t.vcop.regs, x < 2 ^ t.vcop.regWidth))

/-! ## The adapter, images, self-modifying code -/

/-- R49: on a host of either byte order, the accesses through the adapter's masks return and store what the architectural
bytes of R44 give. -/
def Obligations.AdapterLaw : Prop :=
  ∀ (o : HostOrder) (buf m : ByteStore), Memory.wf buf = true → Memory.wf m = true → Adapter.Represents o buf m →
    ∀ (off : Nat) (w : Width) (v : Word), off % bytesOf w = 0 → off + bytesOf w ≤ 2 ^ 32 →
      Adapter.read o buf off w = valueAt m off w ∧
      Adapter.Represents o (Adapter.write o buf off w v) (storeValue m off w v) ∧
      Adapter.read o (Adapter.write o buf off w v) off w = lowBits w v

/-- R52: an image that is too small or has no recognised signature is a `FormatError` and leaves the state untouched; a
recognised one replaces the ROM store and nothing else. The model's choice: a signature is a prefix of the image, log 21. -/
def Obligations.FailedLoadLeavesState : Prop :=
  ∀ (s : State) (bytes : List Byte),
    ((bytes.length < s.par.romMinSize ∨ ∀ f ∈ s.par.romSignatures, ¬ f.signature <+: bytes) →
      readImage s.par bytes = none ∧ s.loadImage bytes = s) ∧
    (¬ bytes.length < s.par.romMinSize → (∃ f ∈ s.par.romSignatures, f.signature <+: bytes) →
      ∃ rom, readImage s.par bytes = some rom ∧ rom.size = bytes.length ∧ s.loadImage bytes = { s with rom := rom })

/-- R207: with SMC_MODE = Refuse a fetch from a word in W stops; with Coherent none does. W gains the words a store
touches, those that show a write of the local memory in a window among them, is emptied by an exception entry and when a
taken transfer's target becomes PC, and is kept otherwise. What enters W and where the check stands: log 17. -/
def Obligations.StaleCodeRefused : Prop :=
  (∀ (s : State), s.run = .running → s.interruptPending = false → s.pc.toNat % 4 = 0 →
    s.par.smcMode = .refuse → s.pc.toNat ∈ s.smcW → step s = .fault (.unpredictable .staleCode)) ∧
  (∀ (s : State), s.par.smcMode = .coherent → step s ≠ .fault (.unpredictable .staleCode)) ∧
  (∀ (s : State) (a : Nat) (bs : List Byte) (x : Nat), s.par.smcMode = .refuse → bs ≠ [] →
    (x ∈ (s.storeRam a bs).smcW ↔ x ∈ s.smcW ∨ (x % 4 = 0 ∧ a < x + 4 ∧ x < a + bs.length))) ∧
  (∀ (s : State) (loc : Nat) (bs : List Byte) (x : Nat), s.par.smcMode = .refuse →
    (x ∈ (s.storeLocal loc bs).smcW ↔ x ∈ s.smcW ∨ (x % 4 = 0 ∧ ∃ r ∈ s.par.regionMap, r.kind = .coprocLocal ∧
      ∃ j, j < bs.length ∧ loc + j < r.size ∧ x ≤ r.base.toNat + loc + j ∧ r.base.toNat + loc + j < x + 4))) ∧
  (∀ (s : State) (e : Exn), (s.enter e).smcW = []) ∧
  ∀ (s : State) (taken : Bool) (target : Word),
    (s.taken = true → s.advance.smcW = [] ∧ (s.transfer taken target).smcW = []) ∧
    (s.taken = false → s.advance.smcW = s.smcW ∧ (s.transfer taken target).smcW = s.smcW)

end
end

