-- ==== Sys2Proof/Laws/Encoding.lean ====
section
/-! SUPPORT. The fields of each word format (30_encoding.md R72, R73): what every field function reads from a word that a
format builds. -/

namespace Sys2Proof

set_option linter.unusedSimpArgs false

/-! ## R-format -/

section
variable (rs rt rd : RegIdx) (sa : BitVec 5) (funct : BitVec 6)

@[simp] theorem opOf_rWord : opOf (rWord rs rt rd sa funct) = 0x00#6 := by
  simp (disch := decide) only [opOf, rWord, BitVec.extractLsb'_append_eq_of_le,
    BitVec.extractLsb'_append_eq_of_add_le, Nat.reduceSub, BitVec.extractLsb'_eq_self]
@[simp] theorem rsOf_rWord : rsOf (rWord rs rt rd sa funct) = rs := by
  simp (disch := decide) only [rsOf, rWord, BitVec.extractLsb'_append_eq_of_le,
    BitVec.extractLsb'_append_eq_of_add_le, Nat.reduceSub, BitVec.extractLsb'_eq_self]
@[simp] theorem rtOf_rWord : rtOf (rWord rs rt rd sa funct) = rt := by
  simp (disch := decide) only [rtOf, rWord, BitVec.extractLsb'_append_eq_of_le,
    BitVec.extractLsb'_append_eq_of_add_le, Nat.reduceSub, BitVec.extractLsb'_eq_self]
@[simp] theorem rdOf_rWord : rdOf (rWord rs rt rd sa funct) = rd := by
  simp (disch := decide) only [rdOf, rWord, BitVec.extractLsb'_append_eq_of_le,
    BitVec.extractLsb'_append_eq_of_add_le, Nat.reduceSub, BitVec.extractLsb'_eq_self]
@[simp] theorem saOf_rWord : saOf (rWord rs rt rd sa funct) = sa := by
  simp (disch := decide) only [saOf, rWord, BitVec.extractLsb'_append_eq_of_le,
    BitVec.extractLsb'_append_eq_of_add_le, Nat.reduceSub, BitVec.extractLsb'_eq_self]
@[simp] theorem functOf_rWord : functOf (rWord rs rt rd sa funct) = funct := by
  simp (disch := decide) only [functOf, rWord, BitVec.extractLsb'_append_eq_of_le,
    BitVec.extractLsb'_append_eq_of_add_le, Nat.reduceSub, BitVec.extractLsb'_eq_self]

end

/-! ## I-format -/

section
variable (op : BitVec 6) (rs rt : RegIdx) (imm : BitVec 16)

@[simp] theorem opOf_iWord : opOf (iWord op rs rt imm) = op := by
  simp (disch := decide) only [opOf, iWord, BitVec.extractLsb'_append_eq_of_le,
    BitVec.extractLsb'_append_eq_of_add_le, Nat.reduceSub, BitVec.extractLsb'_eq_self]
@[simp] theorem rsOf_iWord : rsOf (iWord op rs rt imm) = rs := by
  simp (disch := decide) only [rsOf, iWord, BitVec.extractLsb'_append_eq_of_le,
    BitVec.extractLsb'_append_eq_of_add_le, Nat.reduceSub, BitVec.extractLsb'_eq_self]
@[simp] theorem rtOf_iWord : rtOf (iWord op rs rt imm) = rt := by
  simp (disch := decide) only [rtOf, iWord, BitVec.extractLsb'_append_eq_of_le,
    BitVec.extractLsb'_append_eq_of_add_le, Nat.reduceSub, BitVec.extractLsb'_eq_self]
@[simp] theorem immOf_iWord : immOf (iWord op rs rt imm) = imm := by
  simp (disch := decide) only [immOf, iWord, BitVec.extractLsb'_append_eq_of_le,
    BitVec.extractLsb'_append_eq_of_add_le, Nat.reduceSub, BitVec.extractLsb'_eq_self]

end

/-! ## J-format -/

@[simp] theorem opOf_jWord (op : BitVec 6) (t : BitVec 26) : opOf (jWord op t) = op := by
  simp (disch := decide) only [opOf, jWord, BitVec.extractLsb'_append_eq_of_le,
    BitVec.extractLsb'_append_eq_of_add_le, Nat.reduceSub, BitVec.extractLsb'_eq_self]
@[simp] theorem targetOf_jWord (op : BitVec 6) (t : BitVec 26) : targetOf (jWord op t) = t := by
  simp (disch := decide) only [targetOf, jWord, BitVec.extractLsb'_append_eq_of_le,
    BitVec.extractLsb'_append_eq_of_add_le, Nat.reduceSub, BitVec.extractLsb'_eq_self]

/-! ## SYSCALL, BREAK, the register traps -/

@[simp] theorem opOf_specialCodeWord (c : BitVec 20) (f : BitVec 6) : opOf (specialCodeWord c f) = 0x00#6 := by
  simp (disch := decide) only [opOf, specialCodeWord, BitVec.extractLsb'_append_eq_of_le,
    BitVec.extractLsb'_append_eq_of_add_le, Nat.reduceSub, BitVec.extractLsb'_eq_self]
@[simp] theorem code20Of_specialCodeWord (c : BitVec 20) (f : BitVec 6) : code20Of (specialCodeWord c f) = c := by
  simp (disch := decide) only [code20Of, specialCodeWord, BitVec.extractLsb'_append_eq_of_le,
    BitVec.extractLsb'_append_eq_of_add_le, Nat.reduceSub, BitVec.extractLsb'_eq_self]
@[simp] theorem functOf_specialCodeWord (c : BitVec 20) (f : BitVec 6) : functOf (specialCodeWord c f) = f := by
  simp (disch := decide) only [functOf, specialCodeWord, BitVec.extractLsb'_append_eq_of_le,
    BitVec.extractLsb'_append_eq_of_add_le, Nat.reduceSub, BitVec.extractLsb'_eq_self]

section
variable (rs rt : RegIdx) (c : BitVec 10) (f : BitVec 6)

@[simp] theorem opOf_trapWord : opOf (trapWord rs rt c f) = 0x00#6 := by
  simp (disch := decide) only [opOf, trapWord, BitVec.extractLsb'_append_eq_of_le,
    BitVec.extractLsb'_append_eq_of_add_le, Nat.reduceSub, BitVec.extractLsb'_eq_self]
@[simp] theorem rsOf_trapWord : rsOf (trapWord rs rt c f) = rs := by
  simp (disch := decide) only [rsOf, trapWord, BitVec.extractLsb'_append_eq_of_le,
    BitVec.extractLsb'_append_eq_of_add_le, Nat.reduceSub, BitVec.extractLsb'_eq_self]
@[simp] theorem rtOf_trapWord : rtOf (trapWord rs rt c f) = rt := by
  simp (disch := decide) only [rtOf, trapWord, BitVec.extractLsb'_append_eq_of_le,
    BitVec.extractLsb'_append_eq_of_add_le, Nat.reduceSub, BitVec.extractLsb'_eq_self]
@[simp] theorem code10Of_trapWord : code10Of (trapWord rs rt c f) = c := by
  simp (disch := decide) only [code10Of, trapWord, BitVec.extractLsb'_append_eq_of_le,
    BitVec.extractLsb'_append_eq_of_add_le, Nat.reduceSub, BitVec.extractLsb'_eq_self]
@[simp] theorem functOf_trapWord : functOf (trapWord rs rt c f) = f := by
  simp (disch := decide) only [functOf, trapWord, BitVec.extractLsb'_append_eq_of_le,
    BitVec.extractLsb'_append_eq_of_add_le, Nat.reduceSub, BitVec.extractLsb'_eq_self]

end

/-! ## MFC0, MTC0 -/

section
variable (sub rt rd : RegIdx)

@[simp] theorem opOf_cop0MoveWord : opOf (cop0MoveWord sub rt rd) = 0x10#6 := by
  simp (disch := decide) only [opOf, cop0MoveWord, BitVec.extractLsb'_append_eq_of_le,
    BitVec.extractLsb'_append_eq_of_add_le, Nat.reduceSub, BitVec.extractLsb'_eq_self]
@[simp] theorem rsOf_cop0MoveWord : rsOf (cop0MoveWord sub rt rd) = sub := by
  simp (disch := decide) only [rsOf, cop0MoveWord, BitVec.extractLsb'_append_eq_of_le,
    BitVec.extractLsb'_append_eq_of_add_le, Nat.reduceSub, BitVec.extractLsb'_eq_self]
@[simp] theorem rtOf_cop0MoveWord : rtOf (cop0MoveWord sub rt rd) = rt := by
  simp (disch := decide) only [rtOf, cop0MoveWord, BitVec.extractLsb'_append_eq_of_le,
    BitVec.extractLsb'_append_eq_of_add_le, Nat.reduceSub, BitVec.extractLsb'_eq_self]
@[simp] theorem rdOf_cop0MoveWord : rdOf (cop0MoveWord sub rt rd) = rd := by
  simp (disch := decide) only [rdOf, cop0MoveWord, BitVec.extractLsb'_append_eq_of_le,
    BitVec.extractLsb'_append_eq_of_add_le, Nat.reduceSub, BitVec.extractLsb'_eq_self]

end

/-- `co` is the top bit of `rs`. -/
theorem coOf_eq (w : Word) : coOf w = (rsOf w).extractLsb' 4 1 := by
  apply BitVec.eq_of_getElem_eq
  intro i hi
  simp [coOf, rsOf, BitVec.getElem_extractLsb', BitVec.getLsbD_extractLsb', show 4 + i < 5 by omega,
    show 25 + i = 21 + (4 + i) by omega]

/-! ## A word's bits under the masks of the opcode table -/

theorem and_mask_op (w : Word) : w &&& 0xFC000000#32 = opOf w ++ 0#26 := by
  apply BitVec.eq_of_getLsbD_eq
  intro i hi
  simp only [opOf, BitVec.getLsbD_append, BitVec.getLsbD_and, BitVec.getLsbD_extractLsb']
  interval_cases i <;> simp

theorem and_mask_op_funct (w : Word) : w &&& 0xFC00003F#32 = opOf w ++ 0#20 ++ functOf w := by
  apply BitVec.eq_of_getLsbD_eq
  intro i hi
  simp only [opOf, functOf, BitVec.getLsbD_append, BitVec.getLsbD_and, BitVec.getLsbD_extractLsb']
  interval_cases i <;> simp

theorem and_mask_op_rt (w : Word) : w &&& 0xFC1F0000#32 = opOf w ++ 0#5 ++ rtOf w ++ 0#16 := by
  apply BitVec.eq_of_getLsbD_eq
  intro i hi
  simp only [opOf, rtOf, BitVec.getLsbD_append, BitVec.getLsbD_and, BitVec.getLsbD_extractLsb']
  interval_cases i <;> simp

theorem and_mask_op_rs (w : Word) : w &&& 0xFFE00000#32 = opOf w ++ rsOf w ++ 0#21 := by
  apply BitVec.eq_of_getLsbD_eq
  intro i hi
  simp only [opOf, rsOf, BitVec.getLsbD_append, BitVec.getLsbD_and, BitVec.getLsbD_extractLsb']
  interval_cases i <;> simp

/-! What a row's mask leaves of each format. -/

theorem mask_rWord (rs rt rd : RegIdx) (sa : BitVec 5) (funct : BitVec 6) :
    rWord rs rt rd sa funct &&& 0xFC00003F#32 = 0#26 ++ funct := by
  simp [and_mask_op_funct]
theorem mask_specialCodeWord (code : BitVec 20) (funct : BitVec 6) :
    specialCodeWord code funct &&& 0xFC00003F#32 = 0#26 ++ funct := by
  simp [and_mask_op_funct]
theorem mask_trapWord (rs rt : RegIdx) (code : BitVec 10) (funct : BitVec 6) :
    trapWord rs rt code funct &&& 0xFC00003F#32 = 0#26 ++ funct := by
  simp [and_mask_op_funct]
theorem mask_iWord (op : BitVec 6) (rs rt : RegIdx) (imm : BitVec 16) :
    iWord op rs rt imm &&& 0xFC000000#32 = op ++ 0#26 := by
  simp [and_mask_op]
theorem mask_jWord (op : BitVec 6) (target : BitVec 26) : jWord op target &&& 0xFC000000#32 = op ++ 0#26 := by
  simp [and_mask_op]
theorem mask_regimmWord (rs sub : RegIdx) (imm : BitVec 16) :
    iWord 0x01#6 rs sub imm &&& 0xFC1F0000#32 = 0x01#6 ++ 0#5 ++ sub ++ 0#16 := by
  simp [and_mask_op_rt]
theorem mask_cop0MoveWord (sub rt rd : RegIdx) :
    cop0MoveWord sub rt rd &&& 0xFFE00000#32 = 0x10#6 ++ sub ++ 0#21 := by
  simp [and_mask_op_rs]

end Sys2Proof
end

