-- ==== Sys2Proof/Laws/Exec.lean ====
section
/-! SUPPORT. The dispatch, one equation per instruction, so that no proof unfolds the whole of `exec`. -/

namespace Sys2Proof.Machine

theorem exec_add (rd rs rt : RegIdx) (s : State) : exec (.add rd rs rt) s = execAdd rd rs rt s := rfl
theorem exec_addu (rd rs rt : RegIdx) (s : State) : exec (.addu rd rs rt) s = execAddu rd rs rt s := rfl
theorem exec_sub (rd rs rt : RegIdx) (s : State) : exec (.sub rd rs rt) s = execSub rd rs rt s := rfl
theorem exec_subu (rd rs rt : RegIdx) (s : State) : exec (.subu rd rs rt) s = execSubu rd rs rt s := rfl
theorem exec_and (rd rs rt : RegIdx) (s : State) : exec (.and rd rs rt) s = execAnd rd rs rt s := rfl
theorem exec_or (rd rs rt : RegIdx) (s : State) : exec (.or rd rs rt) s = execOr rd rs rt s := rfl
theorem exec_xor (rd rs rt : RegIdx) (s : State) : exec (.xor rd rs rt) s = execXor rd rs rt s := rfl
theorem exec_nor (rd rs rt : RegIdx) (s : State) : exec (.nor rd rs rt) s = execNor rd rs rt s := rfl
theorem exec_slt (rd rs rt : RegIdx) (s : State) : exec (.slt rd rs rt) s = execSlt rd rs rt s := rfl
theorem exec_sltu (rd rs rt : RegIdx) (s : State) : exec (.sltu rd rs rt) s = execSltu rd rs rt s := rfl
theorem exec_addi (rt rs : RegIdx) (imm : BitVec 16) (s : State) : exec (.addi rt rs imm) s = execAddi rt rs imm s := rfl
theorem exec_addiu (rt rs : RegIdx) (imm : BitVec 16) (s : State) : exec (.addiu rt rs imm) s = execAddiu rt rs imm s := rfl
theorem exec_slti (rt rs : RegIdx) (imm : BitVec 16) (s : State) : exec (.slti rt rs imm) s = execSlti rt rs imm s := rfl
theorem exec_sltiu (rt rs : RegIdx) (imm : BitVec 16) (s : State) : exec (.sltiu rt rs imm) s = execSltiu rt rs imm s := rfl
theorem exec_andi (rt rs : RegIdx) (imm : BitVec 16) (s : State) : exec (.andi rt rs imm) s = execAndi rt rs imm s := rfl
theorem exec_ori (rt rs : RegIdx) (imm : BitVec 16) (s : State) : exec (.ori rt rs imm) s = execOri rt rs imm s := rfl
theorem exec_xori (rt rs : RegIdx) (imm : BitVec 16) (s : State) : exec (.xori rt rs imm) s = execXori rt rs imm s := rfl
theorem exec_lui (rt : RegIdx) (imm : BitVec 16) (s : State) : exec (.lui rt imm) s = execLui rt imm s := rfl
theorem exec_sll (rd rt : RegIdx) (sa : BitVec 5) (s : State) : exec (.sll rd rt sa) s = execSll rd rt sa s := rfl
theorem exec_srl (rd rt : RegIdx) (sa : BitVec 5) (s : State) : exec (.srl rd rt sa) s = execSrl rd rt sa s := rfl
theorem exec_sra (rd rt : RegIdx) (sa : BitVec 5) (s : State) : exec (.sra rd rt sa) s = execSra rd rt sa s := rfl
theorem exec_sllv (rd rt rs : RegIdx) (s : State) : exec (.sllv rd rt rs) s = execSllv rd rt rs s := rfl
theorem exec_srlv (rd rt rs : RegIdx) (s : State) : exec (.srlv rd rt rs) s = execSrlv rd rt rs s := rfl
theorem exec_srav (rd rt rs : RegIdx) (s : State) : exec (.srav rd rt rs) s = execSrav rd rt rs s := rfl
theorem exec_mult (rs rt : RegIdx) (s : State) : exec (.mult rs rt) s = execMult rs rt s := rfl
theorem exec_multu (rs rt : RegIdx) (s : State) : exec (.multu rs rt) s = execMultu rs rt s := rfl
theorem exec_div (rs rt : RegIdx) (s : State) : exec (.div rs rt) s = execDiv rs rt s := rfl
theorem exec_divu (rs rt : RegIdx) (s : State) : exec (.divu rs rt) s = execDivu rs rt s := rfl
theorem exec_mfhi (rd : RegIdx) (s : State) : exec (.mfhi rd) s = execMfhi rd s := rfl
theorem exec_mflo (rd : RegIdx) (s : State) : exec (.mflo rd) s = execMflo rd s := rfl
theorem exec_mthi (rs : RegIdx) (s : State) : exec (.mthi rs) s = execMthi rs s := rfl
theorem exec_mtlo (rs : RegIdx) (s : State) : exec (.mtlo rs) s = execMtlo rs s := rfl
theorem exec_j (target : BitVec 26) (s : State) : exec (.j target) s = execJ target s := rfl
theorem exec_jal (target : BitVec 26) (s : State) : exec (.jal target) s = execJal target s := rfl
theorem exec_jr (rs : RegIdx) (s : State) : exec (.jr rs) s = execJr rs s := rfl
theorem exec_jalr (rd rs : RegIdx) (s : State) : exec (.jalr rd rs) s = execJalr rd rs s := rfl
theorem exec_beq (rs rt : RegIdx) (imm : BitVec 16) (s : State) : exec (.beq rs rt imm) s = execBeq rs rt imm s := rfl
theorem exec_bne (rs rt : RegIdx) (imm : BitVec 16) (s : State) : exec (.bne rs rt imm) s = execBne rs rt imm s := rfl
theorem exec_blez (rs : RegIdx) (imm : BitVec 16) (s : State) : exec (.blez rs imm) s = execBlez rs imm s := rfl
theorem exec_bgtz (rs : RegIdx) (imm : BitVec 16) (s : State) : exec (.bgtz rs imm) s = execBgtz rs imm s := rfl
theorem exec_bltz (rs : RegIdx) (imm : BitVec 16) (s : State) : exec (.bltz rs imm) s = execBltz rs imm s := rfl
theorem exec_bgez (rs : RegIdx) (imm : BitVec 16) (s : State) : exec (.bgez rs imm) s = execBgez rs imm s := rfl
theorem exec_bltzal (rs : RegIdx) (imm : BitVec 16) (s : State) : exec (.bltzal rs imm) s = execBltzal rs imm s := rfl
theorem exec_bgezal (rs : RegIdx) (imm : BitVec 16) (s : State) : exec (.bgezal rs imm) s = execBgezal rs imm s := rfl
theorem exec_lb (rt : RegIdx) (imm : BitVec 16) (rs : RegIdx) (s : State) : exec (.lb rt imm rs) s = execLb rt imm rs s := rfl
theorem exec_lbu (rt : RegIdx) (imm : BitVec 16) (rs : RegIdx) (s : State) : exec (.lbu rt imm rs) s = execLbu rt imm rs s := rfl
theorem exec_lh (rt : RegIdx) (imm : BitVec 16) (rs : RegIdx) (s : State) : exec (.lh rt imm rs) s = execLh rt imm rs s := rfl
theorem exec_lhu (rt : RegIdx) (imm : BitVec 16) (rs : RegIdx) (s : State) : exec (.lhu rt imm rs) s = execLhu rt imm rs s := rfl
theorem exec_lw (rt : RegIdx) (imm : BitVec 16) (rs : RegIdx) (s : State) : exec (.lw rt imm rs) s = execLw rt imm rs s := rfl
theorem exec_lwl (rt : RegIdx) (imm : BitVec 16) (rs : RegIdx) (s : State) : exec (.lwl rt imm rs) s = execLwl rt imm rs s := rfl
theorem exec_lwr (rt : RegIdx) (imm : BitVec 16) (rs : RegIdx) (s : State) : exec (.lwr rt imm rs) s = execLwr rt imm rs s := rfl
theorem exec_sb (rt : RegIdx) (imm : BitVec 16) (rs : RegIdx) (s : State) : exec (.sb rt imm rs) s = execSb rt imm rs s := rfl
theorem exec_sh (rt : RegIdx) (imm : BitVec 16) (rs : RegIdx) (s : State) : exec (.sh rt imm rs) s = execSh rt imm rs s := rfl
theorem exec_sw (rt : RegIdx) (imm : BitVec 16) (rs : RegIdx) (s : State) : exec (.sw rt imm rs) s = execSw rt imm rs s := rfl
theorem exec_swl (rt : RegIdx) (imm : BitVec 16) (rs : RegIdx) (s : State) : exec (.swl rt imm rs) s = execSwl rt imm rs s := rfl
theorem exec_swr (rt : RegIdx) (imm : BitVec 16) (rs : RegIdx) (s : State) : exec (.swr rt imm rs) s = execSwr rt imm rs s := rfl
theorem exec_ll (rt : RegIdx) (imm : BitVec 16) (rs : RegIdx) (s : State) : exec (.ll rt imm rs) s = execLl rt imm rs s := rfl
theorem exec_sc (rt : RegIdx) (imm : BitVec 16) (rs : RegIdx) (s : State) : exec (.sc rt imm rs) s = execSc rt imm rs s := rfl
theorem exec_sync (stype : BitVec 5) (s : State) : exec (.sync stype) s = execSync stype s := rfl
theorem exec_syscall (code : BitVec 20) (s : State) : exec (.syscall code) s = execSyscall code s := rfl
theorem exec_brk (code : BitVec 20) (s : State) : exec (.brk code) s = execBrk code s := rfl
theorem exec_tge (rs rt : RegIdx) (code : BitVec 10) (s : State) : exec (.tge rs rt code) s = execTge rs rt code s := rfl
theorem exec_tgeu (rs rt : RegIdx) (code : BitVec 10) (s : State) : exec (.tgeu rs rt code) s = execTgeu rs rt code s := rfl
theorem exec_tlt (rs rt : RegIdx) (code : BitVec 10) (s : State) : exec (.tlt rs rt code) s = execTlt rs rt code s := rfl
theorem exec_tltu (rs rt : RegIdx) (code : BitVec 10) (s : State) : exec (.tltu rs rt code) s = execTltu rs rt code s := rfl
theorem exec_teq (rs rt : RegIdx) (code : BitVec 10) (s : State) : exec (.teq rs rt code) s = execTeq rs rt code s := rfl
theorem exec_tne (rs rt : RegIdx) (code : BitVec 10) (s : State) : exec (.tne rs rt code) s = execTne rs rt code s := rfl
theorem exec_tgei (rs : RegIdx) (imm : BitVec 16) (s : State) : exec (.tgei rs imm) s = execTgei rs imm s := rfl
theorem exec_tgeiu (rs : RegIdx) (imm : BitVec 16) (s : State) : exec (.tgeiu rs imm) s = execTgeiu rs imm s := rfl
theorem exec_tlti (rs : RegIdx) (imm : BitVec 16) (s : State) : exec (.tlti rs imm) s = execTlti rs imm s := rfl
theorem exec_tltiu (rs : RegIdx) (imm : BitVec 16) (s : State) : exec (.tltiu rs imm) s = execTltiu rs imm s := rfl
theorem exec_teqi (rs : RegIdx) (imm : BitVec 16) (s : State) : exec (.teqi rs imm) s = execTeqi rs imm s := rfl
theorem exec_tnei (rs : RegIdx) (imm : BitVec 16) (s : State) : exec (.tnei rs imm) s = execTnei rs imm s := rfl
theorem exec_mfc0 (rt rd : RegIdx) (s : State) : exec (.mfc0 rt rd) s = execMfc0 rt rd s := rfl
theorem exec_mtc0 (rt rd : RegIdx) (s : State) : exec (.mtc0 rt rd) s = execMtc0 rt rd s := rfl
theorem exec_rfe (s : State) : exec (.rfe) s = execRfe s := rfl
theorem exec_cop1 (s : State) : exec (.cop1) s = execCop1 s := rfl
theorem exec_cop2 (s : State) : exec (.cop2) s = execCop2 s := rfl
theorem exec_cop3 (s : State) : exec (.cop3) s = execCop3 s := rfl
theorem exec_lwc1 (s : State) : exec (.lwc1) s = execLwc1 s := rfl
theorem exec_lwc2 (s : State) : exec (.lwc2) s = execLwc2 s := rfl
theorem exec_lwc3 (s : State) : exec (.lwc3) s = execLwc3 s := rfl
theorem exec_ldc1 (s : State) : exec (.ldc1) s = execLdc1 s := rfl
theorem exec_ldc2 (s : State) : exec (.ldc2) s = execLdc2 s := rfl
theorem exec_ldc3 (s : State) : exec (.ldc3) s = execLdc3 s := rfl
theorem exec_swc1 (s : State) : exec (.swc1) s = execSwc1 s := rfl
theorem exec_swc2 (s : State) : exec (.swc2) s = execSwc2 s := rfl
theorem exec_swc3 (s : State) : exec (.swc3) s = execSwc3 s := rfl
theorem exec_sdc1 (s : State) : exec (.sdc1) s = execSdc1 s := rfl
theorem exec_sdc2 (s : State) : exec (.sdc2) s = execSdc2 s := rfl
theorem exec_sdc3 (s : State) : exec (.sdc3) s = execSdc3 s := rfl

end Sys2Proof.Machine
end

