-- ==== Sys2Proof/Laws/Operands.lean ====
section
/-! SUPPORT. One lemma for each operand and each deciding computation: what it says as arithmetic, and the fields of the
words of Status and Cause. Later proofs cite these instead of unfolding. -/

namespace Sys2Proof.Machine

/-! ## Decisions (Flags.lean) -/

theorem overflows_iff (n : Int) : overflows n = true ↔ ¬ (-2 ^ 31 ≤ n ∧ n ≤ 2 ^ 31 - 1) := by
  simp only [overflows, Bool.or_eq_true, decide_eq_true_eq]; omega

theorem ltSigned_iff (a b : Word) : ltSigned a b = true ↔ a.toInt < b.toInt := by simp [ltSigned]

theorem ltUnsigned_iff (a b : Word) : ltUnsigned a b = true ↔ a.toNat < b.toNat := by simp [ltUnsigned]

theorem isNegative_iff (a : Word) : isNegative a = true ↔ a.toInt < 0 := by simp [isNegative]

theorem isNotPositive_iff (a : Word) : isNotPositive a = true ↔ a.toInt ≤ 0 := by simp [isNotPositive]

theorem not_isNegative (a : Word) : (!isNegative a) = decide (0 ≤ a.toInt) := by
  rw [isNegative, ← decide_not]; exact decide_eq_decide.2 (by omega)

theorem not_isNotPositive (a : Word) : (!isNotPositive a) = decide (0 < a.toInt) := by
  rw [isNotPositive, ← decide_not]; exact decide_eq_decide.2 (by omega)

theorem boolWord_of_iff {c : Bool} {p : Prop} [Decidable p] (h : c = true ↔ p) :
    boolWord c = if p then 1#32 else 0#32 := by
  cases c <;> simp_all [boolWord]

/-! ## Operands (Operands.lean) -/

theorem simm_toInt (imm : BitVec 16) : (simm imm).toInt = imm.toInt := by
  simp [simm, BitVec.toInt_signExtend_of_le]

theorem varShift_eq (v : Word) : varShift v = v.toNat % 32 := by simp [varShift]

theorem byteInWord_toNat (a : Word) : (byteInWord a).toNat = a.toNat % 4 := by simp [byteInWord]

theorem wordBase_toNat (a : Word) : (wordBase a).toNat = a.toNat / 4 * 4 := by
  have h := a.isLt
  simp only [wordBase, BitVec.toNat_append, BitVec.extractLsb'_toNat, BitVec.toNat_ofNat, Nat.shiftLeft_eq,
    Nat.shiftRight_eq_div_pow]
  rw [Nat.mod_eq_of_lt (by omega)]
  simp

theorem alignedTo_iff (a : Word) (w : Width) : alignedTo a w = true ↔ a.toNat % bytesOf w = 0 := by
  have h (n : Nat) : (a.extractLsb' 0 n == 0#n) = true ↔ a.toNat % 2 ^ n = 0 := by
    rw [beq_iff_eq]
    constructor
    · intro e
      have := congrArg BitVec.toNat e
      simpa using this
    · intro e
      apply BitVec.eq_of_toNat_eq
      simpa using e
  cases w
  · simp [alignedTo, bytesOf, Nat.mod_one]
  · exact h 1
  · exact h 2

theorem jumpTarget_eq (s : State) (target : BitVec 26) :
    s.jumpTarget target = (s.pc + 4).extractLsb' 28 4 ++ target ++ 0#2 := by
  unfold State.jumpTarget jidx
  apply BitVec.eq_of_getLsbD_eq
  intro i hi
  simp only [BitVec.getLsbD_append]
  interval_cases i <;> simp

/-! ## Status and Cause as words (R23, R24) -/

/-- A field of a word joined from two parts, in the lower part. -/
theorem extract_append_low {m n : Nat} (a : BitVec m) (b : BitVec n) (i k : Nat) (h : i + k ≤ n) :
    (a ++ b).extractLsb' i k = b.extractLsb' i k := by
  apply BitVec.eq_of_getLsbD_eq
  intro j hj
  simp only [BitVec.getLsbD_extractLsb', BitVec.getLsbD_append]
  rw [if_pos (by omega)]

/-- A field of a word joined from two parts, in the upper part. -/
theorem extract_append_high {m n : Nat} (a : BitVec m) (b : BitVec n) (i k : Nat) (h : n ≤ i) :
    (a ++ b).extractLsb' i k = a.extractLsb' (i - n) k := by
  apply BitVec.eq_of_getLsbD_eq
  intro j hj
  simp only [BitVec.getLsbD_extractLsb', BitVec.getLsbD_append]
  rw [if_neg (by omega), show i + j - n = i - n + j by omega]

@[simp] theorem Status.toWord_kuie (t : Status) : t.toWord.extractLsb' 0 6 = t.kuie := by
  rw [Status.toWord, extract_append_low _ _ _ _ (by omega)]; simp

@[simp] theorem Status.toWord_im (t : Status) : t.toWord.extractLsb' 8 8 = t.im := by
  rw [Status.toWord, extract_append_high _ _ _ _ (by omega), extract_append_high _ _ _ _ (by omega),
    extract_append_low _ _ _ _ (by omega)]
  simp

@[simp] theorem Status.toWord_cu (t : Status) : t.toWord.extractLsb' 28 4 = t.cu := by
  rw [Status.toWord, extract_append_high _ _ _ _ (by omega), extract_append_high _ _ _ _ (by omega),
    extract_append_high _ _ _ _ (by omega), extract_append_high _ _ _ _ (by omega)]
  simp

theorem Status.toWord_iec (t : Status) : t.toWord.getLsbD 0 = t.iec := by
  simp only [Status.toWord, Status.iec, BitVec.getLsbD_append]
  rfl

@[simp] theorem State.causeWord_ip (s : State) : s.causeWord.extractLsb' 8 8 = s.ip := by
  rw [State.causeWord, extract_append_high _ _ _ _ (by omega), extract_append_high _ _ _ _ (by omega),
    extract_append_high _ _ _ _ (by omega)]
  apply BitVec.eq_of_getLsbD_eq
  intro i hi
  simp only [BitVec.getLsbD_extractLsb', BitVec.getLsbD_append, State.ip]
  interval_cases i <;> simp

@[simp] theorem State.causeWord_int (s : State) : s.causeWord.extractLsb' 10 6 = s.intLevels := by
  rw [State.causeWord, extract_append_high _ _ _ _ (by omega), extract_append_high _ _ _ _ (by omega),
    extract_append_high _ _ _ _ (by omega), extract_append_high _ _ _ _ (by omega),
    extract_append_low _ _ _ _ (by omega)]
  simp

@[simp] theorem State.causeWord_excCode (s : State) : s.causeWord.extractLsb' 2 5 = s.cause.excCode := by
  rw [State.causeWord, extract_append_high _ _ _ _ (by omega), extract_append_low _ _ _ _ (by omega)]
  simp

@[simp] theorem State.causeWord_ce (s : State) : s.causeWord.extractLsb' 28 2 = s.cause.ce := by
  rw [State.causeWord, extract_append_high _ _ _ _ (by omega), extract_append_high _ _ _ _ (by omega),
    extract_append_high _ _ _ _ (by omega), extract_append_high _ _ _ _ (by omega),
    extract_append_high _ _ _ _ (by omega), extract_append_high _ _ _ _ (by omega),
    extract_append_low _ _ _ _ (by omega)]
  simp

@[simp] theorem State.causeWord_bd (s : State) : s.causeWord.getLsbD 31 = s.cause.bd := by
  simp only [State.causeWord, BitVec.getLsbD_append]
  cases s.cause.bd <;> rfl

end Sys2Proof.Machine
end

