-- ==== Sys2Proof/Laws/Memory.lean ====
section
/-! SUPPORT. The laws of the byte store: a read after a write, and every operation keeps the canonical form. -/

namespace Sys2Proof.Machine.Memory

/-! ## Reads after writes -/

theorem read_cons (a : Nat) (b : Byte) (m : ByteStore) (x : Nat) (h : read m a = unlisted) :
    read (cons a b m) x = if x = a then b else read m x := by
  unfold cons
  split
  · next e => split
              · next hx => rw [hx, h, e]
              · rfl
  · simp only [read]
    by_cases hx : a = x
    · simp [hx]
    · simp [hx, Ne.symm hx]

theorem canonicalFrom_mono {bound lo lo' : Nat} {m : ByteStore} (h : canonicalFrom bound lo m = true) (hl : lo' ≤ lo) :
    canonicalFrom bound lo' m = true := by
  cases m with
  | nil => rfl
  | cons c m =>
    obtain ⟨k, b⟩ := c
    simp only [canonicalFrom, Bool.and_eq_true, decide_eq_true_eq] at h ⊢
    exact ⟨⟨⟨by omega, h.1.1.2⟩, h.1.2⟩, h.2⟩

/-- Below its first address a canonical store lists nothing. -/
theorem read_below {bound lo : Nat} {m : ByteStore} (h : canonicalFrom bound lo m = true) {a : Nat} (ha : a < lo) :
    read m a = unlisted := by
  induction m generalizing lo with
  | nil => rfl
  | cons c m ih =>
    obtain ⟨k, b⟩ := c
    simp only [canonicalFrom, Bool.and_eq_true, decide_eq_true_eq] at h
    have : ¬ k = a := by omega
    simp only [read, this, if_false]
    exact ih h.2 (by omega)

/-- Two addresses: a byte read after a byte written, in a canonical store. -/
theorem read_write {bound lo : Nat} {m : ByteStore} (h : canonicalFrom bound lo m = true) (a : Nat) (b : Byte) (x : Nat) :
    read (write m a b) x = if x = a then b else read m x := by
  induction m generalizing lo with
  | nil => exact read_cons a b [] x rfl
  | cons c m ih =>
    obtain ⟨k, v⟩ := c
    simp only [canonicalFrom, Bool.and_eq_true, decide_eq_true_eq] at h
    simp only [write]
    split
    · next hlt =>
      apply read_cons
      have : ¬ k = a := by omega
      simp only [read, this, if_false]
      exact read_below h.2 (by omega)
    · split
      · next hk =>
        subst hk
        rw [read_cons _ _ _ _ (read_below h.2 (by omega))]
        by_cases hx : x = a
        · simp [hx]
        · simp [read, hx, Ne.symm hx]
      · next hlt hne =>
        simp only [read]
        by_cases hx : k = x
        · have : ¬ x = a := by omega
          simp [hx, this]
        · simp only [hx, if_false]
          exact ih h.2

/-! ## The canonical form -/

theorem canonicalFrom_cons {bound lo a : Nat} {b : Byte} {m : ByteStore} (h : canonicalFrom bound (a + 1) m = true)
    (hl : lo ≤ a) (ha : a < bound) : canonicalFrom bound lo (cons a b m) = true := by
  unfold cons
  split
  · exact canonicalFrom_mono h (by omega)
  · next hb => simp only [canonicalFrom, Bool.and_eq_true, decide_eq_true_eq]; exact ⟨⟨⟨hl, ha⟩, hb⟩, h⟩

/-- A byte written below the bound keeps the canonical form. -/
theorem write_canonicalFrom {bound lo : Nat} {m : ByteStore} (h : canonicalFrom bound lo m = true) {a : Nat} (b : Byte)
    (hl : lo ≤ a) (ha : a < bound) : canonicalFrom bound lo (write m a b) = true := by
  induction m generalizing lo with
  | nil => exact canonicalFrom_cons rfl hl ha
  | cons c m ih =>
    obtain ⟨k, v⟩ := c
    simp only [write]
    split
    · next hlt =>
      refine canonicalFrom_cons ?_ hl ha
      simp only [canonicalFrom, Bool.and_eq_true, decide_eq_true_eq] at h ⊢
      exact ⟨⟨⟨by omega, h.1.1.2⟩, h.1.2⟩, h.2⟩
    · simp only [canonicalFrom, Bool.and_eq_true, decide_eq_true_eq] at h
      split
      · next hk => subst hk; exact canonicalFrom_cons h.2 hl ha
      · next hlt hne =>
        simp only [canonicalFrom, Bool.and_eq_true, decide_eq_true_eq]
        exact ⟨⟨⟨h.1.1.1, h.1.1.2⟩, h.1.2⟩, ih h.2 (by omega)⟩

/-- Consecutive bytes written below the bound keep the canonical form. -/
theorem writeBytes_canonicalFrom {bound : Nat} {m : ByteStore} (h : canonicalFrom bound 0 m = true) {a : Nat}
    (bs : List Byte) (ha : a + bs.length ≤ bound) : canonicalFrom bound 0 (writeBytes m a bs) = true := by
  induction bs generalizing m a with
  | nil => exact h
  | cons b bs ih =>
    simp only [List.length_cons] at ha
    exact ih (write_canonicalFrom h b (Nat.zero_le a) (by omega)) (by omega)

/-- A canonical store may be bounded higher. -/
theorem canonicalFrom_bound {bound bound' lo : Nat} {m : ByteStore} (h : canonicalFrom bound lo m = true)
    (hb : bound ≤ bound') : canonicalFrom bound' lo m = true := by
  induction m generalizing lo with
  | nil => rfl
  | cons c m ih =>
    obtain ⟨k, v⟩ := c
    simp only [canonicalFrom, Bool.and_eq_true, decide_eq_true_eq] at h ⊢
    exact ⟨⟨⟨h.1.1.1, by omega⟩, h.1.2⟩, ih h.2⟩

/-- Memory keeps its canonical form under a write of bytes inside the 2^32 addresses. -/
theorem writeBytes_wf {m : ByteStore} (h : wf m = true) {a : Nat} (bs : List Byte) (ha : a + bs.length ≤ 2 ^ 32) :
    wf (writeBytes m a bs) = true := writeBytes_canonicalFrom h bs ha

/-- A byte read after consecutive bytes were written, in a store that keeps its canonical form. -/
theorem read_writeBytes {bound : Nat} {m : ByteStore} (h : canonicalFrom bound 0 m = true) (a : Nat) (bs : List Byte)
    (ha : a + bs.length ≤ bound) (x : Nat) :
    read (writeBytes m a bs) x = if a ≤ x then (bs[x - a]?).getD (read m x) else read m x := by
  induction bs generalizing m a with
  | nil => simp [writeBytes]
  | cons b bs ih =>
    simp only [List.length_cons] at ha
    rw [writeBytes, ih (write_canonicalFrom h b (Nat.zero_le a) (by omega)) (a + 1) (by omega), read_write h]
    by_cases hx : a ≤ x
    · by_cases he : x = a
      · subst he; simp
      · have h1 : a + 1 ≤ x := by omega
        have h2 : x - a = x - (a + 1) + 1 := by omega
        simp [hx, he, h1, h2]
    · have h1 : ¬ a + 1 ≤ x := by omega
      have h2 : ¬ x = a := by omega
      simp [hx, h1, h2]

theorem read_cons_ne (a : Nat) (b : Byte) (m : ByteStore) {x : Nat} (h : x ≠ a) : read (cons a b m) x = read m x := by
  unfold cons
  split
  · rfl
  · simp [read, Ne.symm h]

/-- Another address reads as before a byte's write, in every store, canonical or not. -/
theorem read_write_ne (m : ByteStore) {a : Nat} (b : Byte) {x : Nat} (h : x ≠ a) : read (write m a b) x = read m x := by
  induction m with
  | nil => exact read_cons_ne a b [] h
  | cons c m ih =>
    obtain ⟨k, v⟩ := c
    simp only [write]
    split
    · exact read_cons_ne a b _ h
    · split
      · next hk =>
        subst hk
        rw [read_cons_ne _ _ _ h]
        simp [read, Ne.symm h]
      · simp only [read, ih]

/-- A byte outside the bytes written reads as before, in every store. -/
theorem read_writeBytes_outside (m : ByteStore) {a : Nat} (bs : List Byte) {x : Nat} (hx : x < a ∨ a + bs.length ≤ x) :
    read (writeBytes m a bs) x = read m x := by
  induction bs generalizing m a with
  | nil => rfl
  | cons b bs ih =>
    simp only [List.length_cons] at hx
    rw [writeBytes, ih (write m a b) (by omega), read_write_ne m b (by omega)]

@[simp] theorem readBytes_length (m : ByteStore) (a n : Nat) : (readBytes m a n).length = n := by
  induction n generalizing a with
  | zero => rfl
  | succ n ih => simp [readBytes, ih]

theorem readBytes_getElem? (m : ByteStore) (a n i : Nat) :
    (readBytes m a n)[i]? = if i < n then some (read m (a + i)) else none := by
  induction n generalizing a i with
  | zero => simp [readBytes]
  | succ n ih =>
    cases i with
    | zero => simp [readBytes]
    | succ i => simp [readBytes, ih, Nat.add_assoc, Nat.add_comm 1 i]

end Sys2Proof.Machine.Memory

namespace Sys2Proof.Machine

@[simp] theorem bytesToStore_length (v : Word) (w : Width) : (bytesToStore v w).length = bytesOf w := by
  cases w <;> rfl

@[simp] theorem State.mainBytes_length (s : State) (a n : Nat) : (s.mainBytes a n).length = n := by
  induction n generalizing a with
  | zero => rfl
  | succ n ih => simp [State.mainBytes, ih]

end Sys2Proof.Machine
end

