-- ==== Sys2Proof/Laws/State.lean ====
section
/-! SUPPORT. One lemma for each field of State under each named update of it, true by rfl, so that no proof unfolds a record
update; and what the register accessor reads after each. -/

namespace Sys2Proof.Machine

/-! ## setReg -/

@[simp] theorem State.setReg_gpr (s : State) (r : RegIdx) (v : Word) : (s.setReg r v).gpr = gprSet s.gpr r v := rfl
@[simp] theorem State.setReg_hi (s : State) (r : RegIdx) (v : Word) : (s.setReg r v).hi = s.hi := rfl
@[simp] theorem State.setReg_lo (s : State) (r : RegIdx) (v : Word) : (s.setReg r v).lo = s.lo := rfl
@[simp] theorem State.setReg_pc (s : State) (r : RegIdx) (v : Word) : (s.setReg r v).pc = s.pc := rfl
@[simp] theorem State.setReg_npc (s : State) (r : RegIdx) (v : Word) : (s.setReg r v).npc = s.npc := rfl
@[simp] theorem State.setReg_delay (s : State) (r : RegIdx) (v : Word) : (s.setReg r v).delay = s.delay := rfl
@[simp] theorem State.setReg_status (s : State) (r : RegIdx) (v : Word) : (s.setReg r v).status = s.status := rfl
@[simp] theorem State.setReg_cause (s : State) (r : RegIdx) (v : Word) : (s.setReg r v).cause = s.cause := rfl
@[simp] theorem State.setReg_epc (s : State) (r : RegIdx) (v : Word) : (s.setReg r v).epc = s.epc := rfl
@[simp] theorem State.setReg_badVAddr (s : State) (r : RegIdx) (v : Word) : (s.setReg r v).badVAddr = s.badVAddr := rfl
@[simp] theorem State.setReg_llbit (s : State) (r : RegIdx) (v : Word) : (s.setReg r v).llbit = s.llbit := rfl
@[simp] theorem State.setReg_llAddr (s : State) (r : RegIdx) (v : Word) : (s.setReg r v).llAddr = s.llAddr := rfl
@[simp] theorem State.setReg_llForeign (s : State) (r : RegIdx) (v : Word) : (s.setReg r v).llForeign = s.llForeign := rfl
@[simp] theorem State.setReg_run (s : State) (r : RegIdx) (v : Word) : (s.setReg r v).run = s.run := rfl
@[simp] theorem State.setReg_int (s : State) (r : RegIdx) (v : Word) : (s.setReg r v).int = s.int := rfl
@[simp] theorem State.setReg_mem (s : State) (r : RegIdx) (v : Word) : (s.setReg r v).mem = s.mem := rfl
@[simp] theorem State.setReg_rom (s : State) (r : RegIdx) (v : Word) : (s.setReg r v).rom = s.rom := rfl
@[simp] theorem State.setReg_vcop (s : State) (r : RegIdx) (v : Word) : (s.setReg r v).vcop = s.vcop := rfl
@[simp] theorem State.setReg_dev (s : State) (r : RegIdx) (v : Word) : (s.setReg r v).dev = s.dev := rfl
@[simp] theorem State.setReg_smcW (s : State) (r : RegIdx) (v : Word) : (s.setReg r v).smcW = s.smcW := rfl
@[simp] theorem State.setReg_taken (s : State) (r : RegIdx) (v : Word) : (s.setReg r v).taken = s.taken := rfl
@[simp] theorem State.setReg_draws (s : State) (r : RegIdx) (v : Word) : (s.setReg r v).draws = s.draws := rfl
@[simp] theorem State.setReg_par (s : State) (r : RegIdx) (v : Word) : (s.setReg r v).par = s.par := rfl

/-! ## sequence -/

@[simp] theorem State.sequence_gpr (s : State) (c k : Bool) (x : Word) : (s.sequence c k x).gpr = s.gpr := rfl
@[simp] theorem State.sequence_hi (s : State) (c k : Bool) (x : Word) : (s.sequence c k x).hi = s.hi := rfl
@[simp] theorem State.sequence_lo (s : State) (c k : Bool) (x : Word) : (s.sequence c k x).lo = s.lo := rfl
@[simp] theorem State.sequence_pc (s : State) (c k : Bool) (x : Word) : (s.sequence c k x).pc = s.npc := rfl
@[simp] theorem State.sequence_npc (s : State) (c k : Bool) (x : Word) : (s.sequence c k x).npc = if k then x else s.npc + 4 := rfl
@[simp] theorem State.sequence_delay (s : State) (c k : Bool) (x : Word) : (s.sequence c k x).delay = c := rfl
@[simp] theorem State.sequence_status (s : State) (c k : Bool) (x : Word) : (s.sequence c k x).status = s.status := rfl
@[simp] theorem State.sequence_cause (s : State) (c k : Bool) (x : Word) : (s.sequence c k x).cause = s.cause := rfl
@[simp] theorem State.sequence_epc (s : State) (c k : Bool) (x : Word) : (s.sequence c k x).epc = s.epc := rfl
@[simp] theorem State.sequence_badVAddr (s : State) (c k : Bool) (x : Word) : (s.sequence c k x).badVAddr = s.badVAddr := rfl
@[simp] theorem State.sequence_llbit (s : State) (c k : Bool) (x : Word) : (s.sequence c k x).llbit = s.llbit := rfl
@[simp] theorem State.sequence_llAddr (s : State) (c k : Bool) (x : Word) : (s.sequence c k x).llAddr = s.llAddr := rfl
@[simp] theorem State.sequence_llForeign (s : State) (c k : Bool) (x : Word) : (s.sequence c k x).llForeign = s.llForeign := rfl
@[simp] theorem State.sequence_run (s : State) (c k : Bool) (x : Word) : (s.sequence c k x).run = s.run := rfl
@[simp] theorem State.sequence_int (s : State) (c k : Bool) (x : Word) : (s.sequence c k x).int = s.int := rfl
@[simp] theorem State.sequence_mem (s : State) (c k : Bool) (x : Word) : (s.sequence c k x).mem = s.mem := rfl
@[simp] theorem State.sequence_rom (s : State) (c k : Bool) (x : Word) : (s.sequence c k x).rom = s.rom := rfl
@[simp] theorem State.sequence_vcop (s : State) (c k : Bool) (x : Word) : (s.sequence c k x).vcop = s.vcop := rfl
@[simp] theorem State.sequence_dev (s : State) (c k : Bool) (x : Word) : (s.sequence c k x).dev = s.dev := rfl
@[simp] theorem State.sequence_smcW (s : State) (c k : Bool) (x : Word) : (s.sequence c k x).smcW = if s.taken then [] else s.smcW := rfl
@[simp] theorem State.sequence_taken (s : State) (c k : Bool) (x : Word) : (s.sequence c k x).taken = k := rfl
@[simp] theorem State.sequence_draws (s : State) (c k : Bool) (x : Word) : (s.sequence c k x).draws = s.draws := rfl
@[simp] theorem State.sequence_par (s : State) (c k : Bool) (x : Word) : (s.sequence c k x).par = s.par := rfl

/-! ## advance -/

@[simp] theorem State.advance_gpr (s : State) : s.advance.gpr = s.gpr := rfl
@[simp] theorem State.advance_hi (s : State) : s.advance.hi = s.hi := rfl
@[simp] theorem State.advance_lo (s : State) : s.advance.lo = s.lo := rfl
@[simp] theorem State.advance_pc (s : State) : s.advance.pc = s.npc := rfl
@[simp] theorem State.advance_npc (s : State) : s.advance.npc = s.npc + 4 := rfl
@[simp] theorem State.advance_delay (s : State) : s.advance.delay = false := rfl
@[simp] theorem State.advance_status (s : State) : s.advance.status = s.status := rfl
@[simp] theorem State.advance_cause (s : State) : s.advance.cause = s.cause := rfl
@[simp] theorem State.advance_epc (s : State) : s.advance.epc = s.epc := rfl
@[simp] theorem State.advance_badVAddr (s : State) : s.advance.badVAddr = s.badVAddr := rfl
@[simp] theorem State.advance_llbit (s : State) : s.advance.llbit = s.llbit := rfl
@[simp] theorem State.advance_llAddr (s : State) : s.advance.llAddr = s.llAddr := rfl
@[simp] theorem State.advance_llForeign (s : State) : s.advance.llForeign = s.llForeign := rfl
@[simp] theorem State.advance_run (s : State) : s.advance.run = s.run := rfl
@[simp] theorem State.advance_int (s : State) : s.advance.int = s.int := rfl
@[simp] theorem State.advance_mem (s : State) : s.advance.mem = s.mem := rfl
@[simp] theorem State.advance_rom (s : State) : s.advance.rom = s.rom := rfl
@[simp] theorem State.advance_vcop (s : State) : s.advance.vcop = s.vcop := rfl
@[simp] theorem State.advance_dev (s : State) : s.advance.dev = s.dev := rfl
@[simp] theorem State.advance_smcW (s : State) : s.advance.smcW = if s.taken then [] else s.smcW := rfl
@[simp] theorem State.advance_taken (s : State) : s.advance.taken = false := rfl
@[simp] theorem State.advance_draws (s : State) : s.advance.draws = s.draws := rfl
@[simp] theorem State.advance_par (s : State) : s.advance.par = s.par := rfl

/-! ## transfer -/

@[simp] theorem State.transfer_gpr (s : State) (k : Bool) (x : Word) : (s.transfer k x).gpr = s.gpr := rfl
@[simp] theorem State.transfer_hi (s : State) (k : Bool) (x : Word) : (s.transfer k x).hi = s.hi := rfl
@[simp] theorem State.transfer_lo (s : State) (k : Bool) (x : Word) : (s.transfer k x).lo = s.lo := rfl
@[simp] theorem State.transfer_pc (s : State) (k : Bool) (x : Word) : (s.transfer k x).pc = s.npc := rfl
@[simp] theorem State.transfer_npc (s : State) (k : Bool) (x : Word) : (s.transfer k x).npc = if k then x else s.npc + 4 := rfl
@[simp] theorem State.transfer_delay (s : State) (k : Bool) (x : Word) : (s.transfer k x).delay = true := rfl
@[simp] theorem State.transfer_status (s : State) (k : Bool) (x : Word) : (s.transfer k x).status = s.status := rfl
@[simp] theorem State.transfer_cause (s : State) (k : Bool) (x : Word) : (s.transfer k x).cause = s.cause := rfl
@[simp] theorem State.transfer_epc (s : State) (k : Bool) (x : Word) : (s.transfer k x).epc = s.epc := rfl
@[simp] theorem State.transfer_badVAddr (s : State) (k : Bool) (x : Word) : (s.transfer k x).badVAddr = s.badVAddr := rfl
@[simp] theorem State.transfer_llbit (s : State) (k : Bool) (x : Word) : (s.transfer k x).llbit = s.llbit := rfl
@[simp] theorem State.transfer_llAddr (s : State) (k : Bool) (x : Word) : (s.transfer k x).llAddr = s.llAddr := rfl
@[simp] theorem State.transfer_llForeign (s : State) (k : Bool) (x : Word) : (s.transfer k x).llForeign = s.llForeign := rfl
@[simp] theorem State.transfer_run (s : State) (k : Bool) (x : Word) : (s.transfer k x).run = s.run := rfl
@[simp] theorem State.transfer_int (s : State) (k : Bool) (x : Word) : (s.transfer k x).int = s.int := rfl
@[simp] theorem State.transfer_mem (s : State) (k : Bool) (x : Word) : (s.transfer k x).mem = s.mem := rfl
@[simp] theorem State.transfer_rom (s : State) (k : Bool) (x : Word) : (s.transfer k x).rom = s.rom := rfl
@[simp] theorem State.transfer_vcop (s : State) (k : Bool) (x : Word) : (s.transfer k x).vcop = s.vcop := rfl
@[simp] theorem State.transfer_dev (s : State) (k : Bool) (x : Word) : (s.transfer k x).dev = s.dev := rfl
@[simp] theorem State.transfer_smcW (s : State) (k : Bool) (x : Word) : (s.transfer k x).smcW = if s.taken then [] else s.smcW := rfl
@[simp] theorem State.transfer_taken (s : State) (k : Bool) (x : Word) : (s.transfer k x).taken = k := rfl
@[simp] theorem State.transfer_draws (s : State) (k : Bool) (x : Word) : (s.transfer k x).draws = s.draws := rfl
@[simp] theorem State.transfer_par (s : State) (k : Bool) (x : Word) : (s.transfer k x).par = s.par := rfl

/-! ## enter -/

@[simp] theorem State.enter_gpr (s : State) (e : Exn) : (s.enter e).gpr = s.gpr := rfl
@[simp] theorem State.enter_hi (s : State) (e : Exn) : (s.enter e).hi = s.hi := rfl
@[simp] theorem State.enter_lo (s : State) (e : Exn) : (s.enter e).lo = s.lo := rfl
@[simp] theorem State.enter_pc (s : State) (e : Exn) : (s.enter e).pc = s.par.excVector := rfl
@[simp] theorem State.enter_npc (s : State) (e : Exn) : (s.enter e).npc = s.par.excVector + 4 := rfl
@[simp] theorem State.enter_delay (s : State) (e : Exn) : (s.enter e).delay = false := rfl
@[simp] theorem State.enter_status (s : State) (e : Exn) : (s.enter e).status = s.status.push := rfl
@[simp] theorem State.enter_cause (s : State) (e : Exn) : (s.enter e).cause = { bd := s.delay, ce := e.ce, ip := s.cause.ip, excCode := e.code } := rfl
@[simp] theorem State.enter_epc (s : State) (e : Exn) : (s.enter e).epc = s.victim := rfl
@[simp] theorem State.enter_badVAddr (s : State) (e : Exn) : (s.enter e).badVAddr = e.badAddr.getD s.badVAddr := rfl
@[simp] theorem State.enter_llbit (s : State) (e : Exn) : (s.enter e).llbit = false := rfl
@[simp] theorem State.enter_llAddr (s : State) (e : Exn) : (s.enter e).llAddr = s.llAddr := rfl
@[simp] theorem State.enter_llForeign (s : State) (e : Exn) : (s.enter e).llForeign = s.llForeign := rfl
@[simp] theorem State.enter_run (s : State) (e : Exn) : (s.enter e).run = s.run := rfl
@[simp] theorem State.enter_int (s : State) (e : Exn) : (s.enter e).int = s.int := rfl
@[simp] theorem State.enter_mem (s : State) (e : Exn) : (s.enter e).mem = s.mem := rfl
@[simp] theorem State.enter_rom (s : State) (e : Exn) : (s.enter e).rom = s.rom := rfl
@[simp] theorem State.enter_vcop (s : State) (e : Exn) : (s.enter e).vcop = s.vcop := rfl
@[simp] theorem State.enter_dev (s : State) (e : Exn) : (s.enter e).dev = s.dev := rfl
@[simp] theorem State.enter_smcW (s : State) (e : Exn) : (s.enter e).smcW = [] := rfl
@[simp] theorem State.enter_taken (s : State) (e : Exn) : (s.enter e).taken = false := rfl
@[simp] theorem State.enter_draws (s : State) (e : Exn) : (s.enter e).draws = s.draws := rfl
@[simp] theorem State.enter_par (s : State) (e : Exn) : (s.enter e).par = s.par := rfl

/-! ## returnFromException -/

@[simp] theorem State.returnFromException_gpr (s : State) : s.returnFromException.gpr = s.gpr := rfl
@[simp] theorem State.returnFromException_hi (s : State) : s.returnFromException.hi = s.hi := rfl
@[simp] theorem State.returnFromException_lo (s : State) : s.returnFromException.lo = s.lo := rfl
@[simp] theorem State.returnFromException_pc (s : State) : s.returnFromException.pc = s.pc := rfl
@[simp] theorem State.returnFromException_npc (s : State) : s.returnFromException.npc = s.npc := rfl
@[simp] theorem State.returnFromException_delay (s : State) : s.returnFromException.delay = s.delay := rfl
@[simp] theorem State.returnFromException_status (s : State) : s.returnFromException.status = s.status.pop := rfl
@[simp] theorem State.returnFromException_cause (s : State) : s.returnFromException.cause = s.cause := rfl
@[simp] theorem State.returnFromException_epc (s : State) : s.returnFromException.epc = s.epc := rfl
@[simp] theorem State.returnFromException_badVAddr (s : State) : s.returnFromException.badVAddr = s.badVAddr := rfl
@[simp] theorem State.returnFromException_llbit (s : State) : s.returnFromException.llbit = false := rfl
@[simp] theorem State.returnFromException_llAddr (s : State) : s.returnFromException.llAddr = s.llAddr := rfl
@[simp] theorem State.returnFromException_llForeign (s : State) : s.returnFromException.llForeign = s.llForeign := rfl
@[simp] theorem State.returnFromException_run (s : State) : s.returnFromException.run = s.run := rfl
@[simp] theorem State.returnFromException_int (s : State) : s.returnFromException.int = s.int := rfl
@[simp] theorem State.returnFromException_mem (s : State) : s.returnFromException.mem = s.mem := rfl
@[simp] theorem State.returnFromException_rom (s : State) : s.returnFromException.rom = s.rom := rfl
@[simp] theorem State.returnFromException_vcop (s : State) : s.returnFromException.vcop = s.vcop := rfl
@[simp] theorem State.returnFromException_dev (s : State) : s.returnFromException.dev = s.dev := rfl
@[simp] theorem State.returnFromException_smcW (s : State) : s.returnFromException.smcW = s.smcW := rfl
@[simp] theorem State.returnFromException_taken (s : State) : s.returnFromException.taken = s.taken := rfl
@[simp] theorem State.returnFromException_draws (s : State) : s.returnFromException.draws = s.draws := rfl
@[simp] theorem State.returnFromException_par (s : State) : s.returnFromException.par = s.par := rfl

/-! ## markWritten -/

@[simp] theorem State.markWritten_gpr (s : State) (a n : Nat) : (s.markWritten a n).gpr = s.gpr := rfl
@[simp] theorem State.markWritten_hi (s : State) (a n : Nat) : (s.markWritten a n).hi = s.hi := rfl
@[simp] theorem State.markWritten_lo (s : State) (a n : Nat) : (s.markWritten a n).lo = s.lo := rfl
@[simp] theorem State.markWritten_pc (s : State) (a n : Nat) : (s.markWritten a n).pc = s.pc := rfl
@[simp] theorem State.markWritten_npc (s : State) (a n : Nat) : (s.markWritten a n).npc = s.npc := rfl
@[simp] theorem State.markWritten_delay (s : State) (a n : Nat) : (s.markWritten a n).delay = s.delay := rfl
@[simp] theorem State.markWritten_status (s : State) (a n : Nat) : (s.markWritten a n).status = s.status := rfl
@[simp] theorem State.markWritten_cause (s : State) (a n : Nat) : (s.markWritten a n).cause = s.cause := rfl
@[simp] theorem State.markWritten_epc (s : State) (a n : Nat) : (s.markWritten a n).epc = s.epc := rfl
@[simp] theorem State.markWritten_badVAddr (s : State) (a n : Nat) : (s.markWritten a n).badVAddr = s.badVAddr := rfl
@[simp] theorem State.markWritten_llbit (s : State) (a n : Nat) : (s.markWritten a n).llbit = s.llbit := rfl
@[simp] theorem State.markWritten_llAddr (s : State) (a n : Nat) : (s.markWritten a n).llAddr = s.llAddr := rfl
@[simp] theorem State.markWritten_llForeign (s : State) (a n : Nat) : (s.markWritten a n).llForeign = s.llForeign := rfl
@[simp] theorem State.markWritten_run (s : State) (a n : Nat) : (s.markWritten a n).run = s.run := rfl
@[simp] theorem State.markWritten_int (s : State) (a n : Nat) : (s.markWritten a n).int = s.int := rfl
@[simp] theorem State.markWritten_mem (s : State) (a n : Nat) : (s.markWritten a n).mem = s.mem := rfl
@[simp] theorem State.markWritten_rom (s : State) (a n : Nat) : (s.markWritten a n).rom = s.rom := rfl
@[simp] theorem State.markWritten_vcop (s : State) (a n : Nat) : (s.markWritten a n).vcop = s.vcop := rfl
@[simp] theorem State.markWritten_dev (s : State) (a n : Nat) : (s.markWritten a n).dev = s.dev := rfl
@[simp] theorem State.markWritten_taken (s : State) (a n : Nat) : (s.markWritten a n).taken = s.taken := rfl
@[simp] theorem State.markWritten_draws (s : State) (a n : Nat) : (s.markWritten a n).draws = s.draws := rfl
@[simp] theorem State.markWritten_par (s : State) (a n : Nat) : (s.markWritten a n).par = s.par := rfl

/-! ## storeRam -/

@[simp] theorem State.storeRam_gpr (s : State) (a : Nat) (bs : List Byte) : (s.storeRam a bs).gpr = s.gpr := rfl
@[simp] theorem State.storeRam_hi (s : State) (a : Nat) (bs : List Byte) : (s.storeRam a bs).hi = s.hi := rfl
@[simp] theorem State.storeRam_lo (s : State) (a : Nat) (bs : List Byte) : (s.storeRam a bs).lo = s.lo := rfl
@[simp] theorem State.storeRam_pc (s : State) (a : Nat) (bs : List Byte) : (s.storeRam a bs).pc = s.pc := rfl
@[simp] theorem State.storeRam_npc (s : State) (a : Nat) (bs : List Byte) : (s.storeRam a bs).npc = s.npc := rfl
@[simp] theorem State.storeRam_delay (s : State) (a : Nat) (bs : List Byte) : (s.storeRam a bs).delay = s.delay := rfl
@[simp] theorem State.storeRam_status (s : State) (a : Nat) (bs : List Byte) : (s.storeRam a bs).status = s.status := rfl
@[simp] theorem State.storeRam_cause (s : State) (a : Nat) (bs : List Byte) : (s.storeRam a bs).cause = s.cause := rfl
@[simp] theorem State.storeRam_epc (s : State) (a : Nat) (bs : List Byte) : (s.storeRam a bs).epc = s.epc := rfl
@[simp] theorem State.storeRam_badVAddr (s : State) (a : Nat) (bs : List Byte) : (s.storeRam a bs).badVAddr = s.badVAddr := rfl
@[simp] theorem State.storeRam_llbit (s : State) (a : Nat) (bs : List Byte) : (s.storeRam a bs).llbit = s.llbit := rfl
@[simp] theorem State.storeRam_llAddr (s : State) (a : Nat) (bs : List Byte) : (s.storeRam a bs).llAddr = s.llAddr := rfl
@[simp] theorem State.storeRam_llForeign (s : State) (a : Nat) (bs : List Byte) : (s.storeRam a bs).llForeign = s.llForeign := rfl
@[simp] theorem State.storeRam_run (s : State) (a : Nat) (bs : List Byte) : (s.storeRam a bs).run = s.run := rfl
@[simp] theorem State.storeRam_int (s : State) (a : Nat) (bs : List Byte) : (s.storeRam a bs).int = s.int := rfl
@[simp] theorem State.storeRam_mem (s : State) (a : Nat) (bs : List Byte) : (s.storeRam a bs).mem = Memory.writeBytes s.mem a bs := rfl
@[simp] theorem State.storeRam_rom (s : State) (a : Nat) (bs : List Byte) : (s.storeRam a bs).rom = s.rom := rfl
@[simp] theorem State.storeRam_vcop (s : State) (a : Nat) (bs : List Byte) : (s.storeRam a bs).vcop = s.vcop := rfl
@[simp] theorem State.storeRam_dev (s : State) (a : Nat) (bs : List Byte) : (s.storeRam a bs).dev = s.dev := rfl
@[simp] theorem State.storeRam_taken (s : State) (a : Nat) (bs : List Byte) : (s.storeRam a bs).taken = s.taken := rfl
@[simp] theorem State.storeRam_draws (s : State) (a : Nat) (bs : List Byte) : (s.storeRam a bs).draws = s.draws := rfl
@[simp] theorem State.storeRam_par (s : State) (a : Nat) (bs : List Byte) : (s.storeRam a bs).par = s.par := rfl

/-! ## reserve -/

@[simp] theorem State.reserve_gpr (s : State) (a : Word) : (s.reserve a).gpr = s.gpr := rfl
@[simp] theorem State.reserve_hi (s : State) (a : Word) : (s.reserve a).hi = s.hi := rfl
@[simp] theorem State.reserve_lo (s : State) (a : Word) : (s.reserve a).lo = s.lo := rfl
@[simp] theorem State.reserve_pc (s : State) (a : Word) : (s.reserve a).pc = s.pc := rfl
@[simp] theorem State.reserve_npc (s : State) (a : Word) : (s.reserve a).npc = s.npc := rfl
@[simp] theorem State.reserve_delay (s : State) (a : Word) : (s.reserve a).delay = s.delay := rfl
@[simp] theorem State.reserve_status (s : State) (a : Word) : (s.reserve a).status = s.status := rfl
@[simp] theorem State.reserve_cause (s : State) (a : Word) : (s.reserve a).cause = s.cause := rfl
@[simp] theorem State.reserve_epc (s : State) (a : Word) : (s.reserve a).epc = s.epc := rfl
@[simp] theorem State.reserve_badVAddr (s : State) (a : Word) : (s.reserve a).badVAddr = s.badVAddr := rfl
@[simp] theorem State.reserve_llbit (s : State) (a : Word) : (s.reserve a).llbit = true := rfl
@[simp] theorem State.reserve_llAddr (s : State) (a : Word) : (s.reserve a).llAddr = a := rfl
@[simp] theorem State.reserve_llForeign (s : State) (a : Word) : (s.reserve a).llForeign = false := rfl
@[simp] theorem State.reserve_run (s : State) (a : Word) : (s.reserve a).run = s.run := rfl
@[simp] theorem State.reserve_int (s : State) (a : Word) : (s.reserve a).int = s.int := rfl
@[simp] theorem State.reserve_mem (s : State) (a : Word) : (s.reserve a).mem = s.mem := rfl
@[simp] theorem State.reserve_rom (s : State) (a : Word) : (s.reserve a).rom = s.rom := rfl
@[simp] theorem State.reserve_vcop (s : State) (a : Word) : (s.reserve a).vcop = s.vcop := rfl
@[simp] theorem State.reserve_dev (s : State) (a : Word) : (s.reserve a).dev = s.dev := rfl
@[simp] theorem State.reserve_smcW (s : State) (a : Word) : (s.reserve a).smcW = s.smcW := rfl
@[simp] theorem State.reserve_taken (s : State) (a : Word) : (s.reserve a).taken = s.taken := rfl
@[simp] theorem State.reserve_draws (s : State) (a : Word) : (s.reserve a).draws = s.draws := rfl
@[simp] theorem State.reserve_par (s : State) (a : Word) : (s.reserve a).par = s.par := rfl

/-! ## storeLocal -/

@[simp] theorem State.storeLocal_gpr (s : State) (loc : Nat) (bs : List Byte) : (s.storeLocal loc bs).gpr = s.gpr :=
  rfl
@[simp] theorem State.storeLocal_hi (s : State) (loc : Nat) (bs : List Byte) : (s.storeLocal loc bs).hi = s.hi := rfl
@[simp] theorem State.storeLocal_lo (s : State) (loc : Nat) (bs : List Byte) : (s.storeLocal loc bs).lo = s.lo := rfl
@[simp] theorem State.storeLocal_pc (s : State) (loc : Nat) (bs : List Byte) : (s.storeLocal loc bs).pc = s.pc := rfl
@[simp] theorem State.storeLocal_npc (s : State) (loc : Nat) (bs : List Byte) : (s.storeLocal loc bs).npc = s.npc :=
  rfl
@[simp] theorem State.storeLocal_delay (s : State) (loc : Nat) (bs : List Byte) :
    (s.storeLocal loc bs).delay = s.delay := rfl
@[simp] theorem State.storeLocal_status (s : State) (loc : Nat) (bs : List Byte) :
    (s.storeLocal loc bs).status = s.status := rfl
@[simp] theorem State.storeLocal_cause (s : State) (loc : Nat) (bs : List Byte) :
    (s.storeLocal loc bs).cause = s.cause := rfl
@[simp] theorem State.storeLocal_epc (s : State) (loc : Nat) (bs : List Byte) : (s.storeLocal loc bs).epc = s.epc :=
  rfl
@[simp] theorem State.storeLocal_badVAddr (s : State) (loc : Nat) (bs : List Byte) :
    (s.storeLocal loc bs).badVAddr = s.badVAddr := rfl
@[simp] theorem State.storeLocal_llbit (s : State) (loc : Nat) (bs : List Byte) :
    (s.storeLocal loc bs).llbit = s.llbit := rfl
@[simp] theorem State.storeLocal_llAddr (s : State) (loc : Nat) (bs : List Byte) :
    (s.storeLocal loc bs).llAddr = s.llAddr := rfl
@[simp] theorem State.storeLocal_llForeign (s : State) (loc : Nat) (bs : List Byte) :
    (s.storeLocal loc bs).llForeign = s.llForeign := rfl
@[simp] theorem State.storeLocal_run (s : State) (loc : Nat) (bs : List Byte) : (s.storeLocal loc bs).run = s.run :=
  rfl
@[simp] theorem State.storeLocal_int (s : State) (loc : Nat) (bs : List Byte) : (s.storeLocal loc bs).int = s.int :=
  rfl
@[simp] theorem State.storeLocal_mem (s : State) (loc : Nat) (bs : List Byte) : (s.storeLocal loc bs).mem = s.mem :=
  rfl
@[simp] theorem State.storeLocal_rom (s : State) (loc : Nat) (bs : List Byte) : (s.storeLocal loc bs).rom = s.rom :=
  rfl
@[simp] theorem State.storeLocal_vcop (s : State) (loc : Nat) (bs : List Byte) :
    (s.storeLocal loc bs).vcop = { s.vcop with localMem := Memory.writeBytes s.vcop.localMem loc bs } := rfl
@[simp] theorem State.storeLocal_dev (s : State) (loc : Nat) (bs : List Byte) : (s.storeLocal loc bs).dev = s.dev :=
  rfl
@[simp] theorem State.storeLocal_taken (s : State) (loc : Nat) (bs : List Byte) :
    (s.storeLocal loc bs).taken = s.taken := rfl
@[simp] theorem State.storeLocal_draws (s : State) (loc : Nat) (bs : List Byte) :
    (s.storeLocal loc bs).draws = s.draws := rfl
@[simp] theorem State.storeLocal_par (s : State) (loc : Nat) (bs : List Byte) : (s.storeLocal loc bs).par = s.par :=
  rfl

/-! ## foreignLocal -/

@[simp] theorem State.foreignLocal_gpr (s : State) (loc : Nat) (bs : List Byte) : (s.foreignLocal loc bs).gpr = s.gpr :=
  rfl
@[simp] theorem State.foreignLocal_hi (s : State) (loc : Nat) (bs : List Byte) : (s.foreignLocal loc bs).hi = s.hi :=
  rfl
@[simp] theorem State.foreignLocal_lo (s : State) (loc : Nat) (bs : List Byte) : (s.foreignLocal loc bs).lo = s.lo :=
  rfl
@[simp] theorem State.foreignLocal_pc (s : State) (loc : Nat) (bs : List Byte) : (s.foreignLocal loc bs).pc = s.pc :=
  rfl
@[simp] theorem State.foreignLocal_npc (s : State) (loc : Nat) (bs : List Byte) : (s.foreignLocal loc bs).npc = s.npc :=
  rfl
@[simp] theorem State.foreignLocal_delay (s : State) (loc : Nat) (bs : List Byte) :
    (s.foreignLocal loc bs).delay = s.delay := rfl
@[simp] theorem State.foreignLocal_status (s : State) (loc : Nat) (bs : List Byte) :
    (s.foreignLocal loc bs).status = s.status := rfl
@[simp] theorem State.foreignLocal_cause (s : State) (loc : Nat) (bs : List Byte) :
    (s.foreignLocal loc bs).cause = s.cause := rfl
@[simp] theorem State.foreignLocal_epc (s : State) (loc : Nat) (bs : List Byte) : (s.foreignLocal loc bs).epc = s.epc :=
  rfl
@[simp] theorem State.foreignLocal_badVAddr (s : State) (loc : Nat) (bs : List Byte) :
    (s.foreignLocal loc bs).badVAddr = s.badVAddr := rfl
@[simp] theorem State.foreignLocal_llbit (s : State) (loc : Nat) (bs : List Byte) :
    (s.foreignLocal loc bs).llbit = s.llbit := rfl
@[simp] theorem State.foreignLocal_llAddr (s : State) (loc : Nat) (bs : List Byte) :
    (s.foreignLocal loc bs).llAddr = s.llAddr := rfl
@[simp] theorem State.foreignLocal_llForeign (s : State) (loc : Nat) (bs : List Byte) :
    (s.foreignLocal loc bs).llForeign = (s.llForeign || s.reservesLocal loc bs.length) := rfl
@[simp] theorem State.foreignLocal_run (s : State) (loc : Nat) (bs : List Byte) : (s.foreignLocal loc bs).run = s.run :=
  rfl
@[simp] theorem State.foreignLocal_int (s : State) (loc : Nat) (bs : List Byte) : (s.foreignLocal loc bs).int = s.int :=
  rfl
@[simp] theorem State.foreignLocal_mem (s : State) (loc : Nat) (bs : List Byte) : (s.foreignLocal loc bs).mem = s.mem :=
  rfl
@[simp] theorem State.foreignLocal_rom (s : State) (loc : Nat) (bs : List Byte) : (s.foreignLocal loc bs).rom = s.rom :=
  rfl
@[simp] theorem State.foreignLocal_vcop (s : State) (loc : Nat) (bs : List Byte) :
    (s.foreignLocal loc bs).vcop = { s.vcop with localMem := Memory.writeBytes s.vcop.localMem loc bs } := rfl
@[simp] theorem State.foreignLocal_dev (s : State) (loc : Nat) (bs : List Byte) : (s.foreignLocal loc bs).dev = s.dev :=
  rfl
@[simp] theorem State.foreignLocal_taken (s : State) (loc : Nat) (bs : List Byte) :
    (s.foreignLocal loc bs).taken = s.taken := rfl
@[simp] theorem State.foreignLocal_draws (s : State) (loc : Nat) (bs : List Byte) :
    (s.foreignLocal loc bs).draws = s.draws := rfl
@[simp] theorem State.foreignLocal_par (s : State) (loc : Nat) (bs : List Byte) : (s.foreignLocal loc bs).par = s.par :=
  rfl

/-! ## foreignWrite -/

@[simp] theorem State.foreignWrite_gpr (s : State) (a : Nat) (bs : List Byte) : (s.foreignWrite a bs).gpr = s.gpr :=
  rfl
@[simp] theorem State.foreignWrite_hi (s : State) (a : Nat) (bs : List Byte) : (s.foreignWrite a bs).hi = s.hi := rfl
@[simp] theorem State.foreignWrite_lo (s : State) (a : Nat) (bs : List Byte) : (s.foreignWrite a bs).lo = s.lo := rfl
@[simp] theorem State.foreignWrite_pc (s : State) (a : Nat) (bs : List Byte) : (s.foreignWrite a bs).pc = s.pc := rfl
@[simp] theorem State.foreignWrite_npc (s : State) (a : Nat) (bs : List Byte) : (s.foreignWrite a bs).npc = s.npc :=
  rfl
@[simp] theorem State.foreignWrite_delay (s : State) (a : Nat) (bs : List Byte) :
    (s.foreignWrite a bs).delay = s.delay := rfl
@[simp] theorem State.foreignWrite_status (s : State) (a : Nat) (bs : List Byte) :
    (s.foreignWrite a bs).status = s.status := rfl
@[simp] theorem State.foreignWrite_cause (s : State) (a : Nat) (bs : List Byte) :
    (s.foreignWrite a bs).cause = s.cause := rfl
@[simp] theorem State.foreignWrite_epc (s : State) (a : Nat) (bs : List Byte) : (s.foreignWrite a bs).epc = s.epc :=
  rfl
@[simp] theorem State.foreignWrite_badVAddr (s : State) (a : Nat) (bs : List Byte) :
    (s.foreignWrite a bs).badVAddr = s.badVAddr := rfl
@[simp] theorem State.foreignWrite_llbit (s : State) (a : Nat) (bs : List Byte) :
    (s.foreignWrite a bs).llbit = s.llbit := rfl
@[simp] theorem State.foreignWrite_llAddr (s : State) (a : Nat) (bs : List Byte) :
    (s.foreignWrite a bs).llAddr = s.llAddr := rfl
@[simp] theorem State.foreignWrite_llForeign (s : State) (a : Nat) (bs : List Byte) :
    (s.foreignWrite a bs).llForeign = (s.llForeign || touchesWord a bs.length s.llAddr.toNat) := rfl
@[simp] theorem State.foreignWrite_run (s : State) (a : Nat) (bs : List Byte) : (s.foreignWrite a bs).run = s.run :=
  rfl
@[simp] theorem State.foreignWrite_int (s : State) (a : Nat) (bs : List Byte) : (s.foreignWrite a bs).int = s.int :=
  rfl
@[simp] theorem State.foreignWrite_mem (s : State) (a : Nat) (bs : List Byte) :
    (s.foreignWrite a bs).mem = Memory.writeBytes s.mem a bs := rfl
@[simp] theorem State.foreignWrite_rom (s : State) (a : Nat) (bs : List Byte) : (s.foreignWrite a bs).rom = s.rom :=
  rfl
@[simp] theorem State.foreignWrite_vcop (s : State) (a : Nat) (bs : List Byte) : (s.foreignWrite a bs).vcop = s.vcop :=
  rfl
@[simp] theorem State.foreignWrite_dev (s : State) (a : Nat) (bs : List Byte) : (s.foreignWrite a bs).dev = s.dev :=
  rfl
@[simp] theorem State.foreignWrite_taken (s : State) (a : Nat) (bs : List Byte) :
    (s.foreignWrite a bs).taken = s.taken := rfl
@[simp] theorem State.foreignWrite_draws (s : State) (a : Nat) (bs : List Byte) :
    (s.foreignWrite a bs).draws = s.draws := rfl
@[simp] theorem State.foreignWrite_par (s : State) (a : Nat) (bs : List Byte) : (s.foreignWrite a bs).par = s.par :=
  rfl

/-! ## setDmaError -/

@[simp] theorem State.setDmaError_gpr (s : State) (b : Bool) : (s.setDmaError b).gpr = s.gpr := rfl
@[simp] theorem State.setDmaError_hi (s : State) (b : Bool) : (s.setDmaError b).hi = s.hi := rfl
@[simp] theorem State.setDmaError_lo (s : State) (b : Bool) : (s.setDmaError b).lo = s.lo := rfl
@[simp] theorem State.setDmaError_pc (s : State) (b : Bool) : (s.setDmaError b).pc = s.pc := rfl
@[simp] theorem State.setDmaError_npc (s : State) (b : Bool) : (s.setDmaError b).npc = s.npc := rfl
@[simp] theorem State.setDmaError_delay (s : State) (b : Bool) : (s.setDmaError b).delay = s.delay := rfl
@[simp] theorem State.setDmaError_status (s : State) (b : Bool) : (s.setDmaError b).status = s.status := rfl
@[simp] theorem State.setDmaError_cause (s : State) (b : Bool) : (s.setDmaError b).cause = s.cause := rfl
@[simp] theorem State.setDmaError_epc (s : State) (b : Bool) : (s.setDmaError b).epc = s.epc := rfl
@[simp] theorem State.setDmaError_badVAddr (s : State) (b : Bool) : (s.setDmaError b).badVAddr = s.badVAddr := rfl
@[simp] theorem State.setDmaError_llbit (s : State) (b : Bool) : (s.setDmaError b).llbit = s.llbit := rfl
@[simp] theorem State.setDmaError_llAddr (s : State) (b : Bool) : (s.setDmaError b).llAddr = s.llAddr := rfl
@[simp] theorem State.setDmaError_llForeign (s : State) (b : Bool) : (s.setDmaError b).llForeign = s.llForeign := rfl
@[simp] theorem State.setDmaError_run (s : State) (b : Bool) : (s.setDmaError b).run = s.run := rfl
@[simp] theorem State.setDmaError_int (s : State) (b : Bool) : (s.setDmaError b).int = s.int := rfl
@[simp] theorem State.setDmaError_mem (s : State) (b : Bool) : (s.setDmaError b).mem = s.mem := rfl
@[simp] theorem State.setDmaError_rom (s : State) (b : Bool) : (s.setDmaError b).rom = s.rom := rfl
@[simp] theorem State.setDmaError_vcop (s : State) (b : Bool) : (s.setDmaError b).vcop = { s.vcop with dmaError := b } :=
  rfl
@[simp] theorem State.setDmaError_dev (s : State) (b : Bool) : (s.setDmaError b).dev = s.dev := rfl
@[simp] theorem State.setDmaError_smcW (s : State) (b : Bool) : (s.setDmaError b).smcW = s.smcW := rfl
@[simp] theorem State.setDmaError_taken (s : State) (b : Bool) : (s.setDmaError b).taken = s.taken := rfl
@[simp] theorem State.setDmaError_draws (s : State) (b : Bool) : (s.setDmaError b).draws = s.draws := rfl
@[simp] theorem State.setDmaError_par (s : State) (b : Bool) : (s.setDmaError b).par = s.par := rfl

/-! ## latchRegisters -/

@[simp] theorem State.latchRegisters_gpr (s : State) (c : DevCall) : (s.latchRegisters c).gpr = s.gpr := rfl
@[simp] theorem State.latchRegisters_hi (s : State) (c : DevCall) : (s.latchRegisters c).hi = s.hi := rfl
@[simp] theorem State.latchRegisters_lo (s : State) (c : DevCall) : (s.latchRegisters c).lo = s.lo := rfl
@[simp] theorem State.latchRegisters_pc (s : State) (c : DevCall) : (s.latchRegisters c).pc = s.pc := rfl
@[simp] theorem State.latchRegisters_npc (s : State) (c : DevCall) : (s.latchRegisters c).npc = s.npc := rfl
@[simp] theorem State.latchRegisters_delay (s : State) (c : DevCall) : (s.latchRegisters c).delay = s.delay := rfl
@[simp] theorem State.latchRegisters_status (s : State) (c : DevCall) : (s.latchRegisters c).status = s.status := rfl
@[simp] theorem State.latchRegisters_cause (s : State) (c : DevCall) : (s.latchRegisters c).cause = s.cause := rfl
@[simp] theorem State.latchRegisters_epc (s : State) (c : DevCall) : (s.latchRegisters c).epc = s.epc := rfl
@[simp] theorem State.latchRegisters_badVAddr (s : State) (c : DevCall) : (s.latchRegisters c).badVAddr = s.badVAddr :=
  rfl
@[simp] theorem State.latchRegisters_llbit (s : State) (c : DevCall) : (s.latchRegisters c).llbit = s.llbit := rfl
@[simp] theorem State.latchRegisters_llAddr (s : State) (c : DevCall) : (s.latchRegisters c).llAddr = s.llAddr := rfl
@[simp] theorem State.latchRegisters_llForeign (s : State) (c : DevCall) :
    (s.latchRegisters c).llForeign = s.llForeign := rfl
@[simp] theorem State.latchRegisters_run (s : State) (c : DevCall) : (s.latchRegisters c).run = s.run := rfl
@[simp] theorem State.latchRegisters_int (s : State) (c : DevCall) : (s.latchRegisters c).int = s.int := rfl
@[simp] theorem State.latchRegisters_mem (s : State) (c : DevCall) : (s.latchRegisters c).mem = s.mem := rfl
@[simp] theorem State.latchRegisters_rom (s : State) (c : DevCall) : (s.latchRegisters c).rom = s.rom := rfl
@[simp] theorem State.latchRegisters_vcop (s : State) (c : DevCall) :
    (s.latchRegisters c).vcop = s.vcop.latchRegisters s.par.vcopRegs c := rfl
@[simp] theorem State.latchRegisters_dev (s : State) (c : DevCall) : (s.latchRegisters c).dev = s.dev := rfl
@[simp] theorem State.latchRegisters_smcW (s : State) (c : DevCall) : (s.latchRegisters c).smcW = s.smcW := rfl
@[simp] theorem State.latchRegisters_taken (s : State) (c : DevCall) : (s.latchRegisters c).taken = s.taken := rfl
@[simp] theorem State.latchRegisters_draws (s : State) (c : DevCall) : (s.latchRegisters c).draws = s.draws := rfl
@[simp] theorem State.latchRegisters_par (s : State) (c : DevCall) : (s.latchRegisters c).par = s.par := rfl

/-! ## completeRun -/

@[simp] theorem State.completeRun_gpr (s : State) (b : Bool) : (s.completeRun b).gpr = s.gpr := rfl
@[simp] theorem State.completeRun_hi (s : State) (b : Bool) : (s.completeRun b).hi = s.hi := rfl
@[simp] theorem State.completeRun_lo (s : State) (b : Bool) : (s.completeRun b).lo = s.lo := rfl
@[simp] theorem State.completeRun_pc (s : State) (b : Bool) : (s.completeRun b).pc = s.pc := rfl
@[simp] theorem State.completeRun_npc (s : State) (b : Bool) : (s.completeRun b).npc = s.npc := rfl
@[simp] theorem State.completeRun_delay (s : State) (b : Bool) : (s.completeRun b).delay = s.delay := rfl
@[simp] theorem State.completeRun_status (s : State) (b : Bool) : (s.completeRun b).status = s.status := rfl
@[simp] theorem State.completeRun_cause (s : State) (b : Bool) : (s.completeRun b).cause = s.cause := rfl
@[simp] theorem State.completeRun_epc (s : State) (b : Bool) : (s.completeRun b).epc = s.epc := rfl
@[simp] theorem State.completeRun_badVAddr (s : State) (b : Bool) : (s.completeRun b).badVAddr = s.badVAddr := rfl
@[simp] theorem State.completeRun_llbit (s : State) (b : Bool) : (s.completeRun b).llbit = s.llbit := rfl
@[simp] theorem State.completeRun_llAddr (s : State) (b : Bool) : (s.completeRun b).llAddr = s.llAddr := rfl
@[simp] theorem State.completeRun_llForeign (s : State) (b : Bool) : (s.completeRun b).llForeign = s.llForeign := rfl
@[simp] theorem State.completeRun_run (s : State) (b : Bool) : (s.completeRun b).run = s.run := rfl
@[simp] theorem State.completeRun_int (s : State) (b : Bool) : (s.completeRun b).int = s.int := rfl
@[simp] theorem State.completeRun_mem (s : State) (b : Bool) : (s.completeRun b).mem = s.mem := rfl
@[simp] theorem State.completeRun_rom (s : State) (b : Bool) : (s.completeRun b).rom = s.rom := rfl
@[simp] theorem State.completeRun_vcop (s : State) (b : Bool) :
    (s.completeRun b).vcop = { s.vcop with done := true, irq := s.vcop.irq || b } := rfl
@[simp] theorem State.completeRun_dev (s : State) (b : Bool) : (s.completeRun b).dev = s.dev := rfl
@[simp] theorem State.completeRun_smcW (s : State) (b : Bool) : (s.completeRun b).smcW = s.smcW := rfl
@[simp] theorem State.completeRun_taken (s : State) (b : Bool) : (s.completeRun b).taken = s.taken := rfl
@[simp] theorem State.completeRun_draws (s : State) (b : Bool) : (s.completeRun b).draws = s.draws := rfl
@[simp] theorem State.completeRun_par (s : State) (b : Bool) : (s.completeRun b).par = s.par := rfl

/-! ## Registers (R15) -/

/-- Register 0 reads as zero. -/
@[simp] theorem State.reg_zero (s : State) : s.reg 0#5 = 0#32 := rfl

/-- A write of register 0 is discarded. -/
@[simp] theorem State.setReg_zero (s : State) (v : Word) : s.setReg 0#5 v = s := rfl

/-- The register file alone decides what a register reads as. -/
theorem State.reg_congr {s t : State} (h : t.gpr = s.gpr) (r : RegIdx) : t.reg r = s.reg r := by simp [State.reg, h]

/-- What a register reads as after a write. -/
theorem State.reg_setReg (s : State) (r q : RegIdx) (v : Word) :
    (s.setReg r v).reg q = if q = 0#5 then 0#32 else if q = r then v else s.reg q := by
  by_cases hq : q = 0#5
  · simp [State.reg, hq]
  · by_cases hr : r = 0#5
    · subst hr; simp [hq]
    · simp only [State.reg, State.setReg, gprSet, hq, hr, if_false]
      rw [Vector.getElem_set]
      by_cases h : q = r
      · simp [h]
      · have : ¬ r.toNat = q.toNat := fun e => h (BitVec.eq_of_toNat_eq e.symm)
        simp [h, this]

@[simp] theorem State.reg_setReg_same (s : State) {r : RegIdx} (h : r ≠ 0#5) (v : Word) : (s.setReg r v).reg r = v := by
  simp [State.reg_setReg, h]

theorem State.reg_setReg_of_ne (s : State) {r q : RegIdx} (h : q ≠ r) (v : Word) : (s.setReg r v).reg q = s.reg q := by
  rw [State.reg_setReg]
  by_cases hq : q = 0#5
  · simp [hq]
  · simp [hq, h]

@[simp] theorem State.sequence_reg (s : State) (c k : Bool) (x : Word) (q : RegIdx) : (s.sequence c k x).reg q = s.reg q := rfl
@[simp] theorem State.advance_reg (s : State) (q : RegIdx) : s.advance.reg q = s.reg q := rfl
@[simp] theorem State.transfer_reg (s : State) (k : Bool) (x : Word) (q : RegIdx) : (s.transfer k x).reg q = s.reg q := rfl
@[simp] theorem State.enter_reg (s : State) (e : Exn) (q : RegIdx) : (s.enter e).reg q = s.reg q := rfl
@[simp] theorem State.returnFromException_reg (s : State) (q : RegIdx) : s.returnFromException.reg q = s.reg q := rfl
@[simp] theorem State.markWritten_reg (s : State) (a n : Nat) (q : RegIdx) : (s.markWritten a n).reg q = s.reg q := rfl
@[simp] theorem State.storeRam_reg (s : State) (a : Nat) (bs : List Byte) (q : RegIdx) : (s.storeRam a bs).reg q = s.reg q := rfl
@[simp] theorem State.reserve_reg (s : State) (a : Word) (q : RegIdx) : (s.reserve a).reg q = s.reg q := rfl

/-- Place 0 of the register file keeps its content under every register write. -/
@[simp] theorem gprSet_at_zero (g : Vector Word 32) (r : RegIdx) (v : Word) : (gprSet g r v)[0] = g[0] := by
  by_cases h : r = 0#5
  · simp [gprSet, h]
  · have : ¬ r.toNat = 0 := fun e => h (BitVec.eq_of_toNat_eq (by simpa using e))
    simp [gprSet, h, this]

end Sys2Proof.Machine
end

