-- ==== Sys2Proof/Laws/Ops.lean ====
section
/-! SUPPORT. One lemma for each shared operation that says once everything it can do: device calls, DMA, the access
primitives, exception entry, and the shapes the meanings share. Later proofs cite these instead of unfolding. -/

namespace Sys2Proof.Machine

/-! ## What a device can change -/

theorem SameCore.refl (s : State) : SameCore s s := by constructor <;> rfl

theorem SameCore.trans {s t u : State} (h : SameCore s t) (k : SameCore t u) : SameCore s u where
  gpr := k.gpr.trans h.gpr
  hi := k.hi.trans h.hi
  lo := k.lo.trans h.lo
  pc := k.pc.trans h.pc
  npc := k.npc.trans h.npc
  delay := k.delay.trans h.delay
  taken := k.taken.trans h.taken
  status := k.status.trans h.status
  cause := k.cause.trans h.cause
  epc := k.epc.trans h.epc
  badVAddr := k.badVAddr.trans h.badVAddr
  llbit := k.llbit.trans h.llbit
  llAddr := k.llAddr.trans h.llAddr
  run := k.run.trans h.run
  rom := k.rom.trans h.rom
  par := k.par.trans h.par

theorem SameCore.reg {s t : State} (h : SameCore s t) (r : RegIdx) : t.reg r = s.reg r := State.reg_congr h.gpr r

theorem markWritten_sameCore (s : State) (a n : Nat) : SameCore s (s.markWritten a n) := by constructor <;> rfl

theorem storeRam_sameCore (s : State) (a : Nat) (bs : List Byte) : SameCore s (s.storeRam a bs) := by
  constructor <;> rfl

theorem foreignWrite_sameCore (s : State) (a : Nat) (bs : List Byte) : SameCore s (s.foreignWrite a bs) := by
  constructor <;> rfl

theorem storeLocal_sameCore (s : State) (loc : Nat) (bs : List Byte) : SameCore s (s.storeLocal loc bs) := by
  constructor <;> rfl

theorem foreignLocal_sameCore (s : State) (loc : Nat) (bs : List Byte) : SameCore s (s.foreignLocal loc bs) := by
  constructor <;> rfl

/-- A DMA request leaves the core's registers and the ROM alone. -/
theorem dma_sameCore (s : State) (dir : DmaDir) (main loc len : Nat) : SameCore s (s.dma dir main loc len) := by
  unfold State.dma
  split
  · cases dir <;> constructor <;> rfl
  · constructor <;> rfl

/-- Everything a store through a window can do: nothing, or the bytes of the local memory. -/
theorem windowStore_cases (s : State) (c : DevCall) :
    s.windowStore c = s ∨
      ∃ v o, c.write = some v ∧ s.windowAccess c = some o ∧
        s.windowStore c = s.storeLocal o (bytesToStore v c.width) := by
  unfold State.windowStore
  cases hw : c.write with
  | none => exact .inl rfl
  | some v =>
    cases ho : s.windowAccess c with
    | none => exact .inl rfl
    | some o => exact .inr ⟨v, o, rfl, rfl, rfl⟩

/-- Everything a write of the DMA registers can start: nothing, or one request. -/
theorem registerDma_cases (s : State) (c : DevCall) :
    s.registerDma c = s ∨
      ∃ l dir, s.par.vcopRegs.dma = some l ∧ l.started c = some dir ∧
        s.registerDma c = s.dma dir s.vcop.dmaMain s.vcop.dmaLocal (l.length s.vcop) := by
  unfold State.registerDma
  cases hl : s.par.vcopRegs.dma with
  | none => exact .inl rfl
  | some l =>
    cases hd : l.started c with
    | none => exact .inl (by simp [hd])
    | some dir => exact .inr ⟨l, dir, rfl, hd, by simp [hd]⟩

/-- Everything one action of a device can do. -/
theorem deviceAction_cases (s : State) (role : CallRole) (a : DevAction) :
    s.deviceAction role a = s ∨
      (role ≠ .plain ∧ ∃ dir main loc len, s.deviceAction role a = s.dma dir main loc len) ∨
      (role = .run ∧ ∃ loc value, loc < s.vcop.localSize ∧ s.deviceAction role a = s.foreignLocal loc [value]) ∨
      (role = .run ∧ ∃ regs microPc,
        s.deviceAction role a = { s with vcop := s.vcop.withRegisters regs microPc }) ∨
      ∃ done irq, s.deviceAction role a = { s with vcop := { s.vcop with done := done, irq := irq } } := by
  cases a with
  | dma dir main loc len =>
    cases role with
    | plain => exact .inl rfl
    | run => exact .inr (.inl ⟨nofun, dir, main, loc, len, rfl⟩)
    | mayDma => exact .inr (.inl ⟨nofun, dir, main, loc, len, rfl⟩)
  | localByte loc value =>
    cases role with
    | run =>
      by_cases h : loc < s.vcop.localSize
      · exact .inr (.inr (.inl ⟨rfl, loc, value, h, if_pos h⟩))
      · exact .inl (if_neg h)
    | mayDma => exact .inl rfl
    | plain => exact .inl rfl
  | registers regs microPc =>
    cases role with
    | run => exact .inr (.inr (.inr (.inl ⟨rfl, regs, microPc, rfl⟩)))
    | mayDma => exact .inl rfl
    | plain => exact .inl rfl
  | clearDone => exact .inr (.inr (.inr (.inr ⟨false, s.vcop.irq, rfl⟩)))
  | acknowledge =>
    by_cases h : s.par.vcopRegs.acknowledge.isNone = true
    · exact .inr (.inr (.inr (.inr ⟨s.vcop.done, false, if_pos h⟩)))
    · exact .inl (if_neg h)

theorem deviceAction_sameCore (s : State) (role : CallRole) (a : DevAction) : SameCore s (s.deviceAction role a) := by
  rcases deviceAction_cases s role a with h | ⟨_, _, _, _, _, h⟩ | ⟨_, _, _, _, h⟩ | ⟨_, _, _, h⟩ | ⟨_, _, h⟩ <;> rw [h]
  · exact SameCore.refl s
  · exact dma_sameCore s _ _ _ _
  · exact foreignLocal_sameCore s _ _
  · constructor <;> rfl
  · constructor <;> rfl

theorem deviceActions_sameCore (s : State) (role : CallRole) (as : List DevAction) :
    SameCore s (s.deviceActions role as) := by
  induction as generalizing s with
  | nil => exact SameCore.refl s
  | cons a as ih => exact (deviceAction_sameCore s role a).trans (ih _)

theorem windowStore_sameCore (s : State) (c : DevCall) : SameCore s (s.windowStore c) := by
  rcases windowStore_cases s c with h | ⟨_, _, _, _, h⟩ <;> rw [h]
  · exact SameCore.refl s
  · exact storeLocal_sameCore s _ _

theorem registerDma_sameCore (s : State) (c : DevCall) : SameCore s (s.registerDma c) := by
  rcases registerDma_cases s c with h | ⟨_, _, _, _, h⟩ <;> rw [h]
  · exact SameCore.refl s
  · exact dma_sameCore s _ _ _ _

theorem takeCall_sameCore (s : State) (c : DevCall) : SameCore s (s.takeCall c) := by
  have h : SameCore s (State.latchRegisters { s with dev := c :: s.dev, draws := s.draws + 1 } c) := by
    constructor <;> rfl
  exact (h.trans (windowStore_sameCore _ c)).trans (registerDma_sameCore _ c)

theorem afterDeviceCall_sameCore (s : State) (c : DevCall) (reply : DevReply) :
    SameCore s (s.afterDeviceCall c reply) := by
  refine ((takeCall_sameCore s c).trans (deviceActions_sameCore _ (s.callRole c) reply.actions)).trans ?_
  unfold State.afterDeviceCall
  split <;> constructor <;> rfl

/-- The state after an access that was made. -/
def Access.state : Access → State
  | .ok _ t => t
  | .busError t => t

/-- A device call leaves the core's registers and the ROM alone. -/
theorem deviceCall_sameCore (s : State) (c : DevCall) : SameCore s (deviceCall s c).state := by
  unfold deviceCall State.answerCall
  split
  · constructor <;> rfl
  · exact afterDeviceCall_sameCore s c _

/-- A device call answered with a fault leaves nothing but its record. -/
theorem deviceCall_busError {s t : State} {c : DevCall} (h : deviceCall s c = .busError t) :
    t = { s with dev := c :: s.dev, draws := s.draws + 1 } := by
  unfold deviceCall State.answerCall at h
  split at h
  · cases h; rfl
  · cases h

/-! ## The set W, windows, the registers of the coprocessor -/

theorem mem_insertSorted (x y : Nat) (l : List Nat) : y ∈ insertSorted x l ↔ y = x ∨ y ∈ l := by
  induction l with
  | nil => simp [insertSorted]
  | cons z l ih =>
    unfold insertSorted
    split
    · simp
    · split
      · next h => subst h; simp
      · simp [ih]; tauto

theorem mem_foldl_insertSorted (words : List Nat) (x : Nat) (l : List Nat) :
    x ∈ words.foldl (fun w x => insertSorted x w) l ↔ x ∈ l ∨ x ∈ words := by
  induction words generalizing l with
  | nil => simp
  | cons y words ih => simp only [List.foldl_cons, ih, mem_insertSorted, List.mem_cons]; tauto

/-- The words `n` bytes at `a` touch are the multiples of 4 with one of the bytes in them. -/
theorem mem_wordsTouched (a n x : Nat) :
    x ∈ wordsTouched a n ↔ x % 4 = 0 ∧ ∃ j, j < n ∧ x ≤ a + j ∧ a + j < x + 4 := by
  unfold wordsTouched
  split
  · next h => subst h; simp
  · next h =>
    simp only [List.mem_map, List.mem_range]
    constructor
    · rintro ⟨i, hi, rfl⟩
      refine ⟨by omega, ?_⟩
      by_cases h0 : i = 0
      · exact ⟨0, by omega, by omega, by omega⟩
      · exact ⟨(a / 4 + i) * 4 - a, by omega, by omega, by omega⟩
    · rintro ⟨h4, j, hj, h1, h2⟩
      exact ⟨x / 4 - a / 4, by omega, by omega⟩

/-- The words that show `n` bytes of the local memory at `loc`: those with one of the bytes in them, in a window. -/
theorem mem_windowWords (map : List Region) (loc n x : Nat) :
    x ∈ windowWords map loc n ↔ x % 4 = 0 ∧ ∃ r ∈ map, r.kind = .coprocLocal ∧
      ∃ j, j < n ∧ loc + j < r.size ∧ x ≤ r.base.toNat + loc + j ∧ r.base.toNat + loc + j < x + 4 := by
  unfold windowWords
  simp only [List.mem_flatMap]
  constructor
  · rintro ⟨r, hr, h⟩
    cases hk : r.kind <;> simp only [hk, List.not_mem_nil] at h
    obtain ⟨h4, j, hj, h1, h2⟩ := (mem_wordsTouched _ _ _).1 h
    exact ⟨h4, r, hr, hk, j, by omega, by omega, h1, h2⟩
  · rintro ⟨h4, r, hr, hk, j, hj, hs, h1, h2⟩
    refine ⟨r, hr, ?_⟩
    simp only [hk]
    exact (mem_wordsTouched _ _ _).2 ⟨h4, j, by omega, h1, h2⟩

/-- What W holds after words were written, with SMC_MODE = Refuse. -/
theorem mem_smcW_markWords {s : State} (h : s.par.smcMode = .refuse) (words : List Nat) (x : Nat) :
    x ∈ (s.markWords words).smcW ↔ x ∈ s.smcW ∨ x ∈ words := by
  have : (s.markWords words).smcW = words.foldl (fun w x => insertSorted x w) s.smcW := by simp [State.markWords, h]
  rw [this, mem_foldl_insertSorted]

theorem windowOffset_eq_some {s : State} {a : Word} {o : Nat} :
    s.windowOffset a = some o ↔
      ∃ r, resolve s.par.regionMap a = some r ∧ r.kind = .coprocLocal ∧ o = offsetIn r a := by
  unfold State.windowOffset
  cases h : resolve s.par.regionMap a with
  | none => simp
  | some r => cases hk : r.kind <;> simp [hk, eq_comm]

theorem windowOffset_eq_none {s : State} {a : Word} :
    s.windowOffset a = none ↔ ∀ r, resolve s.par.regionMap a = some r → r.kind ≠ .coprocLocal := by
  rw [Option.eq_none_iff_forall_ne_some]
  constructor
  · intro h r hr hk; exact h _ (windowOffset_eq_some.2 ⟨r, hr, hk, rfl⟩)
  · intro h o ho
    obtain ⟨r, hr, hk, _⟩ := windowOffset_eq_some.1 ho
    exact h r hr hk

/-- When a write of the local memory touches the word at LLAddr. -/
theorem reservesLocal_iff (s : State) (loc n : Nat) :
    s.reservesLocal loc n = true ↔ ∃ r, resolve s.par.regionMap s.llAddr = some r ∧ r.kind = .coprocLocal ∧
      0 < n ∧ loc < offsetIn r s.llAddr + 4 ∧ offsetIn r s.llAddr < loc + n := by
  unfold State.reservesLocal
  cases h : s.windowOffset s.llAddr with
  | none =>
    rw [windowOffset_eq_none] at h
    simp only [Bool.false_eq_true, false_iff]
    rintro ⟨r, hr, hk, _⟩
    exact h r hr hk
  | some o =>
    obtain ⟨r, hr, hk, rfl⟩ := windowOffset_eq_some.1 h
    simp only [touchesWord, Bool.and_eq_true, decide_eq_true_eq]
    constructor
    · rintro ⟨⟨h1, h2⟩, h3⟩; exact ⟨r, hr, hk, h1, h2, h3⟩
    · rintro ⟨q, hq, _, h1, h2, h3⟩; rw [hr] at hq; cases hq; exact ⟨⟨h1, h2⟩, h3⟩

theorem setBit_getLsbD (v : Word) (i : Fin 32) (b : Bool) (j : Fin 32) :
    (setBit v i b).getLsbD j.val = if j = i then b else v.getLsbD j.val := by
  unfold setBit
  have hj := j.isLt
  by_cases h : j = i
  · subst h; cases b <;> simp [hj]
  · have h' : ¬ j.val = i.val := fun e => h (Fin.ext e)
    have e : (1#32 <<< i.val).getLsbD j.val = false := by
      rw [BitVec.getLsbD_shiftLeft]
      simp only [BitVec.getLsbD_one]
      by_cases hlt : j.val < i.val
      · simp [hlt]
      · have : ¬ (j.val - i.val = 0) := by omega
        simp [this]
    cases b
    · simp only [Bool.false_eq_true, if_false, h, BitVec.getLsbD_and, BitVec.getLsbD_not, e, hj]; simp
    · simp only [if_true, h, if_false, BitVec.getLsbD_or, e, Bool.or_false]

@[simp] theorem takeRegisters_length (width : Nat) (old new : List Nat) :
    (takeRegisters width old new).length = old.length := by
  induction old generalizing new with
  | nil => simp [takeRegisters]
  | cons a old ih => cases new <;> simp [takeRegisters, ih]

/-- Registers below 2 ^ width stay below it. -/
theorem takeRegisters_lt {width : Nat} {old : List Nat} (h : ∀ x ∈ old, x < 2 ^ width) (new : List Nat) :
    ∀ x ∈ takeRegisters width old new, x < 2 ^ width := by
  induction old generalizing new with
  | nil => simp [takeRegisters]
  | cons a old ih =>
    cases new with
    | nil => exact h
    | cons b new =>
      intro x hx
      rcases List.mem_cons.1 hx with rfl | hx
      · exact Nat.mod_lt _ (Nat.two_pow_pos width)
      · exact ih (fun y hy => h y (List.mem_cons_of_mem _ hy)) new x hx

/-! ## MemRead and MemWrite (R57, R58) -/

theorem memRead_none {s : State} {a : Word} (w : Width) (h : resolve s.par.regionMap a = none) :
    memRead s a w = .busError s := by simp [memRead, h]

theorem memRead_ram {s : State} {a : Word} {r : Region} (w : Width) (h : resolve s.par.regionMap a = some r)
    (hk : r.kind = .ram) : memRead s a w = .ok (valueAt s.mem a.toNat w) s := by simp [memRead, h, hk]

theorem memRead_rom {s : State} {a : Word} {r : Region} (w : Width) (h : resolve s.par.regionMap a = some r)
    (hk : r.kind = .rom) :
    memRead s a w =
      if offsetIn r a + bytesOf w > s.rom.size then .busError s else .ok (valueAt s.rom.cells (offsetIn r a) w) s := by
  simp [memRead, h, hk]

theorem memRead_dispatch {s : State} {a : Word} {r : Region} (w : Width) (h : resolve s.par.regionMap a = some r)
    (hk : r.kind.mode = .dispatch) : memRead s a w = deviceCall s { addr := a, width := w, write := none } := by
  cases hr : r.kind <;> simp [memRead, h, hr] <;> simp [hr, RegionKind.mode] at hk

theorem memWrite_none {s : State} {a : Word} (w : Width) (v : Word) (h : resolve s.par.regionMap a = none) :
    memWrite s a w v = .busError s := by simp [memWrite, h]

theorem memWrite_ram {s : State} {a : Word} {r : Region} (w : Width) (v : Word)
    (h : resolve s.par.regionMap a = some r) (hk : r.kind = .ram) :
    memWrite s a w v = .ok 0#32 (s.storeRam a.toNat (bytesToStore v w)) := by simp [memWrite, h, hk]

theorem memWrite_rom {s : State} {a : Word} {r : Region} (w : Width) (v : Word)
    (h : resolve s.par.regionMap a = some r) (hk : r.kind = .rom) : memWrite s a w v = .busError s := by
  simp [memWrite, h, hk]

theorem memWrite_dispatch {s : State} {a : Word} {r : Region} (w : Width) (v : Word)
    (h : resolve s.par.regionMap a = some r) (hk : r.kind.mode = .dispatch) :
    memWrite s a w v = deviceWrite s a w v := by
  cases hr : r.kind <;> simp [memWrite, h, hr] <;> simp [hr, RegionKind.mode] at hk

/-- Everything a read can do: it changes nothing, or it is one device call. -/
theorem memRead_cases (s : State) (a : Word) (w : Width) :
    ((memRead s a w).state = s) ∨ memRead s a w = deviceCall s { addr := a, width := w, write := none } := by
  cases h : resolve s.par.regionMap a with
  | none => left; rw [memRead_none w h]; rfl
  | some r =>
    cases hk : r.kind with
    | ram => left; rw [memRead_ram w h hk]; rfl
    | rom => left; rw [memRead_rom w h hk]; split <;> rfl
    | device => right; exact memRead_dispatch w h (by simp [hk, RegionKind.mode])
    | coprocLocal => right; exact memRead_dispatch w h (by simp [hk, RegionKind.mode])

/-- Everything a write can do: nothing, the bytes of a RAM region, or one device call. -/
theorem memWrite_cases (s : State) (a : Word) (w : Width) (v : Word) :
    memWrite s a w v = .busError s ∨
      (∃ r, resolve s.par.regionMap a = some r ∧ r.kind = .ram ∧
        memWrite s a w v = .ok 0#32 (s.storeRam a.toNat (bytesToStore v w))) ∨
      memWrite s a w v = deviceWrite s a w v := by
  cases h : resolve s.par.regionMap a with
  | none => left; exact memWrite_none w v h
  | some r =>
    cases hk : r.kind with
    | ram => right; left; exact ⟨r, rfl, hk, memWrite_ram w v h hk⟩
    | rom => left; exact memWrite_rom w v h hk
    | device => right; right; exact memWrite_dispatch w v h (by simp [hk, RegionKind.mode])
    | coprocLocal => right; right; exact memWrite_dispatch w v h (by simp [hk, RegionKind.mode])

/-- A read leaves the core's registers and the ROM alone. -/
theorem memRead_sameCore (s : State) (a : Word) (w : Width) : SameCore s (memRead s a w).state := by
  rcases memRead_cases s a w with h | h
  · rw [h]; exact SameCore.refl s
  · rw [h]; exact deviceCall_sameCore s _

theorem deviceWrite_sameCore (s : State) (a : Word) (w : Width) (v : Word) :
    SameCore s (deviceWrite s a w v).state := by
  have h := deviceCall_sameCore s { addr := a, width := w, write := some (lowBits w v) }
  unfold deviceWrite
  split
  · next e => rw [e] at h; exact h
  · next e => rw [e] at h; exact SameCore.trans h (markWritten_sameCore _ _ _)

/-- A write leaves the core's registers and the ROM alone. -/
theorem memWrite_sameCore (s : State) (a : Word) (w : Width) (v : Word) : SameCore s (memWrite s a w v).state := by
  rcases memWrite_cases s a w v with h | ⟨r, _, _, h⟩ | h
  · rw [h]; exact SameCore.refl s
  · rw [h]; exact storeRam_sameCore s _ _
  · rw [h]; exact deviceWrite_sameCore s a w v

/-- A read that ends in a bus error changed nothing but the record of the device call that faulted (R181). -/
theorem memRead_busError {s t : State} {a : Word} {w : Width} (h : memRead s a w = .busError t) :
    ∃ d n, t = { s with dev := d, draws := n } := by
  rcases memRead_cases s a w with hs | hs
  · rw [h] at hs; exact ⟨s.dev, s.draws, hs⟩
  · rw [h] at hs; exact ⟨_, _, deviceCall_busError hs.symm⟩

/-- A write that ends in a bus error changed nothing but the record of the device call that faulted (R58, R181). -/
theorem memWrite_busError {s t : State} {a : Word} {w : Width} {v : Word} (h : memWrite s a w v = .busError t) :
    ∃ d n, t = { s with dev := d, draws := n } := by
  rcases memWrite_cases s a w v with hs | ⟨r, _, _, hs⟩ | hs
  · rw [h] at hs; cases hs; exact ⟨s.dev, s.draws, rfl⟩
  · rw [h] at hs; cases hs
  · rw [h] at hs
    unfold deviceWrite at hs
    split at hs
    · next e => cases hs; exact ⟨_, _, deviceCall_busError e⟩
    · cases hs

/-! ## Exception entry (R180, R183) -/

/-- Everything taking an exception can do. -/
theorem takeException_cases (e : Exn) (atFetch : Bool) (s : State) :
    (atFetch = true ∧ s.pc = s.par.excVector ∧ takeException e atFetch s = .fault .doubleFault) ∨
      (¬ (atFetch = true ∧ s.pc = s.par.excVector) ∧ takeException e atFetch s = .next (s.enter e)) := by
  unfold takeException
  by_cases h : atFetch = true ∧ s.pc = s.par.excVector
  · left; simp [h.1, h.2]
  · right
    refine ⟨h, ?_⟩
    have : (atFetch && decide (s.pc = s.par.excVector)) = false := by
      cases atFetch <;> simp_all
    simp [this]

@[simp] theorem raise_eq (e : Exn) (s : State) : raise e s = .next (s.enter e) := rfl

/-! ## The shapes the meanings share -/

@[simp] theorem writeResult_eq (r : RegIdx) (v : Word) (s : State) :
    writeResult r v s = .next (s.setReg r v).advance := rfl

theorem writeOrOverflow_eq (r : RegIdx) (n : Int) (s : State) :
    writeOrOverflow r n s =
      if overflows n then .next (s.enter .ov) else .next (s.setReg r (BitVec.ofInt 32 n)).advance := rfl

theorem trapWhen_eq (c : Bool) (s : State) : trapWhen c s = if c then .next (s.enter .tr) else .next s.advance := rfl

theorem unlessInSlot_of_not {s : State} (h : s.delay = false) (r : Result) : unlessInSlot s r = r := by
  simp [unlessInSlot, h]

theorem unlessInSlot_of_slot {s : State} (h : s.delay = true) (r : Result) :
    unlessInSlot s r = .fault (.unpredictable .branchInDelaySlot) := by simp [unlessInSlot, h]

/-- Everything a load can do (R139): AdEL, DBE after the access, or the write of the destination. -/
theorem loadAligned_eq (w : Width) (extend : Word → Word) (rt : RegIdx) (ea : Word) (s : State) :
    loadAligned w extend rt ea s =
      if alignedTo ea w then
        match memRead s ea w with
        | .busError t => .next (t.enter .dbe)
        | .ok v t => .next (t.setReg rt (extend v)).advance
      else .next (s.enter (.adEL ea)) := rfl

/-- Everything a store can do (R139): AdES, DBE after the access, or the access. -/
theorem storeAligned_eq (w : Width) (v ea : Word) (s : State) :
    storeAligned w v ea s =
      if alignedTo ea w then
        match memWrite s ea w v with
        | .busError t => .next (t.enter .dbe)
        | .ok _ t => .next t.advance
      else .next (s.enter (.adES ea)) := rfl

/-- Everything an unaligned load can do (R146, R147). -/
theorem loadMerged_eq (merge : Word → Word) (rt : RegIdx) (ea : Word) (s : State) :
    loadMerged merge rt ea s =
      match memRead s (wordBase ea) .word with
      | .busError t => .next (t.enter .dbe)
      | .ok v t => .next (t.setReg rt (merge v)).advance := rfl

/-- Everything a partial store can do (R151..R153). -/
theorem storePart_cases (a : Word) (bs : List Byte) (s : State) :
    storePart a bs s = .next (s.enter .dbe) ∨
      (∃ r, resolve s.par.regionMap (wordBase a) = some r ∧ r.kind = .ram ∧
        storePart a bs s = .next (s.storeRam a.toNat bs).advance) ∨
      (∃ r, resolve s.par.regionMap (wordBase a) = some r ∧ r.kind.mode = .dispatch ∧
        storePart a bs s = .fault (.unpredictable .partialDeviceStore)) := by
  cases h : resolve s.par.regionMap (wordBase a) with
  | none => left; simp [storePart, h]
  | some r =>
    cases hk : r.kind with
    | ram => right; left; exact ⟨r, rfl, hk, by simp [storePart, h, hk]⟩
    | rom => left; simp [storePart, h, hk]
    | device => right; right; exact ⟨r, rfl, by simp [hk, RegionKind.mode], by simp [storePart, h, hk]⟩
    | coprocLocal => right; right; exact ⟨r, rfl, by simp [hk, RegionKind.mode], by simp [storePart, h, hk]⟩

end Sys2Proof.Machine
end

