-- ==== Sys2Proof/Laws/Inversion.lean ====
section
/-! SUPPORT. What one instruction can do, said once for all of them: stop under a name, enter an exception from the state
before it, or make at most one access, change the core's registers, and go on. Proofs about every instruction take their
cases from `exec_cases` instead of from `exec`. -/

namespace Sys2Proof.Machine

/-! ## The access of an instruction -/

/-- What the access of an instruction leaves: nothing happened (a draw at most), a read, a write, or bytes stored to one word
of RAM. -/
inductive AccessOf (s : State) : State → Prop where
  | untouched (n : Nat) : AccessOf s { s with draws := n }
  | read {a : Word} {w : Width} {v : Word} {t : State} (al : alignedTo a w = true) (h : memRead s a w = .ok v t) :
      AccessOf s t
  | write {a : Word} {w : Width} {v x : Word} {t : State} (n : Nat) (al : alignedTo a w = true)
      (h : memWrite { s with draws := n } a w v = .ok x t) : AccessOf s t
  | part {a : Word} {bs : List Byte} {r : Region} (h : resolve s.par.regionMap (wordBase a) = some r)
      (hk : r.kind = .ram) (lo : (wordBase a).toNat ≤ a.toNat) (hi : a.toNat + bs.length ≤ (wordBase a).toNat + 4) :
      AccessOf s (s.storeRam a.toNat bs)

theorem AccessOf.self (s : State) : AccessOf s s := AccessOf.untouched s.draws

/-- An access leaves the core's registers and the ROM alone. -/
theorem AccessOf.sameCore {s t : State} (h : AccessOf s t) : SameCore s t := by
  cases h with
  | untouched n => constructor <;> rfl
  | @read a w _ _ _ h => have k := memRead_sameCore s a w; rw [h] at k; exact k
  | @write a w v _ _ n _ h =>
    have k := memWrite_sameCore { s with draws := n } a w v
    rw [h] at k
    exact SameCore.trans (by constructor <;> rfl) k
  | part _ _ _ _ => exact storeRam_sameCore s _ _

/-! ## What an instruction can do -/

/-- The state an instruction leaves before the sequencing: after its access `t`, with these registers. -/
def withRegisters (t : State) (g : Vector Word 32) (hi lo : Word) (st : Status) (ca : Cause) (ep : Word) (lb : Bool)
    (la : Word) (lf : Bool) : State :=
  { t with gpr := g, hi := hi, lo := lo, status := st, cause := ca, epc := ep, llbit := lb, llAddr := la, llForeign := lf }

/-- Everything a meaning can answer. -/
inductive ExecCase (i : Instr) (s : State) : Result → Prop where
  | stop (k : Unpredictable) (hk : k ≠ .staleCode) : ExecCase i s (.fault (.unpredictable k))
  | raised (e : Exn) (d : List DevCall) (n : Nat) (h : d = s.dev ∨ e = .dbe ∧ ∃ c, d = c :: s.dev) :
      ExecCase i s (.next (State.enter { s with dev := d, draws := n } e))
  | plain {t : State} (g : Vector Word 32) (hi lo : Word) (st : Status) (ca : Cause) (ep : Word) (lb : Bool) (la : Word)
      (lf : Bool) (nt : isControlTransfer i = false) (ha : AccessOf s t) (hg : g[0] = s.gpr[0]) :
      ExecCase i s (.next (withRegisters t g hi lo st ca ep lb la lf).advance)
  | jump (g : Vector Word 32) (taken : Bool) (target : Word) (ct : isControlTransfer i = true) (hd : s.delay = false)
      (hg : g[0] = s.gpr[0]) : ExecCase i s (.next (State.transfer { s with gpr := g } taken target))

theorem gprSet_zero (g : Vector Word 32) (r : RegIdx) (v : Word) : (gprSet g r v)[0] = g[0] := by
  unfold gprSet
  split
  · rfl
  · next h =>
    have : r.toNat ≠ 0 := fun e => h (BitVec.eq_of_toNat_eq e)
    simp [this]

namespace ExecCase

variable {i : Instr} {s : State}

theorem raise_case (e : Exn) : ExecCase i s (raise e s) := .raised e s.dev s.draws (.inl rfl)

theorem raise_bus {t : State}
    (h : ∃ d m, t = { s with dev := d, draws := m } ∧ (d = s.dev ∨ ∃ c, d = c :: s.dev)) : ExecCase i s (raise .dbe t) := by
  obtain ⟨d, m, rfl, h⟩ := h
  exact .raised .dbe d m (h.imp id fun h => ⟨rfl, h⟩)

theorem writeResult_case (nt : isControlTransfer i = false) (r : RegIdx) (v : Word) :
    ExecCase i s (writeResult r v s) :=
  .plain (gprSet s.gpr r v) s.hi s.lo s.status s.cause s.epc s.llbit s.llAddr s.llForeign nt (AccessOf.self s)
    (gprSet_zero _ _ _)

theorem advance_case (nt : isControlTransfer i = false) : ExecCase i s (.next s.advance) :=
  .plain s.gpr s.hi s.lo s.status s.cause s.epc s.llbit s.llAddr s.llForeign nt (AccessOf.self s) rfl

theorem writeOrOverflow_case (nt : isControlTransfer i = false) (r : RegIdx) (n : Int) :
    ExecCase i s (writeOrOverflow r n s) := by
  unfold writeOrOverflow; split
  · exact raise_case _
  · exact writeResult_case nt _ _

theorem writeHiLo_case (nt : isControlTransfer i = false) (p : Word × Word) : ExecCase i s (writeHiLo p s) :=
  .plain s.gpr p.1 p.2 s.status s.cause s.epc s.llbit s.llAddr s.llForeign nt (AccessOf.self s) rfl

theorem trapWhen_case (nt : isControlTransfer i = false) (c : Bool) : ExecCase i s (trapWhen c s) := by
  unfold trapWhen; split
  · exact raise_case _
  · exact advance_case nt

theorem branchWhen_case (ct : isControlTransfer i = true) (taken : Bool) (target : Word) :
    ExecCase i s (branchWhen taken target s) := by
  unfold branchWhen unlessInSlot; split
  · exact .stop _ (by decide)
  · next h => exact .jump s.gpr taken target ct (by simpa using h) rfl

theorem linkAndBranch_case (ct : isControlTransfer i = true) (link : RegIdx) (taken : Bool) (target : Word) :
    ExecCase i s (linkAndBranch link taken target s) := by
  unfold linkAndBranch unlessInSlot; split
  · exact .stop _ (by decide)
  · next h => exact .jump (gprSet s.gpr link s.linkValue) taken target ct (by simpa using h) (gprSet_zero _ _ _)

theorem unlessInSlot_case {r : Result} (h : ExecCase i s r) : ExecCase i s (unlessInSlot s r) := by
  unfold unlessInSlot; split
  · exact .stop _ (by decide)
  · exact h

theorem loadAligned_case (nt : isControlTransfer i = false) (w : Width) (extend : Word → Word) (rt : RegIdx) (ea : Word) :
    ExecCase i s (loadAligned w extend rt ea s) := by
  unfold loadAligned; split
  · next al =>
    split
    · next t h =>
      refine raise_bus ?_
      rcases memRead_cases s ea w with hs | hs
      · rw [h] at hs; exact ⟨s.dev, s.draws, hs, .inl rfl⟩
      · rw [h] at hs; exact ⟨_, _, deviceCall_busError hs.symm, .inr ⟨_, rfl⟩⟩
    · next v t h =>
      have k := (AccessOf.read al h).sameCore
      exact .plain (gprSet t.gpr rt (extend v)) t.hi t.lo t.status t.cause t.epc t.llbit t.llAddr t.llForeign nt
        (AccessOf.read al h) (by rw [gprSet_zero, k.gpr])
  · exact raise_case _

theorem wordBase_aligned (a : Word) : alignedTo (wordBase a) .word = true := by
  rw [alignedTo_iff, wordBase_toNat]; simp [bytesOf]

theorem loadMerged_case (nt : isControlTransfer i = false) (merge : Word → Word) (rt : RegIdx) (ea : Word) :
    ExecCase i s (loadMerged merge rt ea s) := by
  have h := loadAligned_case (s := s) nt .word merge rt (wordBase ea)
  unfold loadAligned at h
  rw [if_pos (wordBase_aligned ea)] at h
  exact h

/-- A bus error of a write changed nothing but the record of the device call that faulted. -/
theorem memWrite_bus {t : State} {a : Word} {w : Width} {v : Word} (n : Nat)
    (h : memWrite { s with draws := n } a w v = .busError t) :
    ∃ d m, t = { s with dev := d, draws := m } ∧ (d = s.dev ∨ ∃ c, d = c :: s.dev) := by
  rcases memWrite_cases { s with draws := n } a w v with hs | ⟨r, _, _, hs⟩ | hs
  · rw [h] at hs; cases hs; exact ⟨s.dev, n, rfl, .inl rfl⟩
  · rw [h] at hs; cases hs
  · rw [h] at hs
    unfold deviceWrite at hs
    split at hs
    · next e =>
      cases hs
      have k := deviceCall_busError e
      exact ⟨_, _, k, .inr ⟨_, rfl⟩⟩
    · cases hs

theorem storeAligned_case (nt : isControlTransfer i = false) (w : Width) (v ea : Word) :
    ExecCase i s (storeAligned w v ea s) := by
  unfold storeAligned; split
  · next al =>
    split
    · next t h => exact raise_bus (memWrite_bus s.draws h)
    · next x t h =>
      have k := (AccessOf.write s.draws al h).sameCore
      exact .plain t.gpr t.hi t.lo t.status t.cause t.epc t.llbit t.llAddr t.llForeign nt (AccessOf.write s.draws al h)
        (by rw [k.gpr])
  · exact raise_case _

theorem storePart_case (nt : isControlTransfer i = false) (a : Word) (bs : List Byte)
    (lo : (wordBase a).toNat ≤ a.toNat) (hi : a.toNat + bs.length ≤ (wordBase a).toNat + 4) :
    ExecCase i s (storePart a bs s) := by
  rcases storePart_cases a bs s with h | ⟨r, hr, hk, h⟩ | ⟨r, _, _, h⟩
  · rw [h]; exact raise_case _
  · rw [h]
    exact .plain s.gpr s.hi s.lo s.status s.cause s.epc s.llbit s.llAddr s.llForeign nt
      (AccessOf.part hr hk lo hi) rfl
  · rw [h]; exact .stop _ (by decide)

end ExecCase

/-- Everything an instruction can do. -/
theorem exec_cases (i : Instr) (s : State) : ExecCase i s (exec i s) := by
  cases i with
  | add _ _ _ | sub _ _ _ | addi _ _ _ => exact ExecCase.writeOrOverflow_case (by rfl) _ _
  | addu _ _ _ | subu _ _ _ | and _ _ _ | or _ _ _ | xor _ _ _ | nor _ _ _ | slt _ _ _ | sltu _ _ _ | addiu _ _ _
  | slti _ _ _ | sltiu _ _ _ | andi _ _ _ | ori _ _ _ | xori _ _ _ | lui _ _ | sll _ _ _ | srl _ _ _ | sra _ _ _
  | sllv _ _ _ | srlv _ _ _ | srav _ _ _ | mfhi _ | mflo _ => exact ExecCase.writeResult_case (by rfl) _ _
  | mult _ _ | multu _ _ | div _ _ | divu _ _ | mthi _ | mtlo _ => exact ExecCase.writeHiLo_case (by rfl) _
  | j _ | jr _ | beq _ _ _ | bne _ _ _ | blez _ _ | bgtz _ _ | bltz _ _ | bgez _ _ =>
    exact ExecCase.branchWhen_case (by rfl) _ _
  | jal _ => exact ExecCase.linkAndBranch_case (by rfl) _ _ _
  | jalr rd rs =>
    refine ExecCase.unlessInSlot_case ?_
    split
    · exact .stop _ (by decide)
    · exact ExecCase.linkAndBranch_case (by rfl) _ _ _
  | bltzal rs imm =>
    refine ExecCase.unlessInSlot_case ?_
    split
    · exact .stop _ (by decide)
    · exact ExecCase.linkAndBranch_case (by rfl) _ _ _
  | bgezal rs imm =>
    refine ExecCase.unlessInSlot_case ?_
    split
    · exact .stop _ (by decide)
    · exact ExecCase.linkAndBranch_case (by rfl) _ _ _
  | lb rt imm rs => exact ExecCase.loadAligned_case (i := .lb rt imm rs) rfl .byte signByte rt (s.ea rs imm)
  | lbu rt imm rs => exact ExecCase.loadAligned_case (i := .lbu rt imm rs) rfl .byte id rt (s.ea rs imm)
  | lh rt imm rs => exact ExecCase.loadAligned_case (i := .lh rt imm rs) rfl .half signHalf rt (s.ea rs imm)
  | lhu rt imm rs => exact ExecCase.loadAligned_case (i := .lhu rt imm rs) rfl .half id rt (s.ea rs imm)
  | lw rt imm rs => exact ExecCase.loadAligned_case (i := .lw rt imm rs) rfl .word id rt (s.ea rs imm)
  | lwl rt imm rs => exact ExecCase.loadMerged_case (i := .lwl rt imm rs) rfl _ rt (s.ea rs imm)
  | lwr rt imm rs => exact ExecCase.loadMerged_case (i := .lwr rt imm rs) rfl _ rt (s.ea rs imm)
  | sb rt imm rs => exact ExecCase.storeAligned_case (i := .sb rt imm rs) rfl .byte (s.reg rt) (s.ea rs imm)
  | sh rt imm rs => exact ExecCase.storeAligned_case (i := .sh rt imm rs) rfl .half (s.reg rt) (s.ea rs imm)
  | sw rt imm rs => exact ExecCase.storeAligned_case (i := .sw rt imm rs) rfl .word (s.reg rt) (s.ea rs imm)
  | swl rt imm rs =>
    rw [exec_swl]
    unfold execSwl
    dsimp only
    split
    · exact ExecCase.storeAligned_case (by rfl) _ _ _
    · refine ExecCase.storePart_case (by rfl) _ _ ?_ ?_
      · rw [wordBase_toNat]; omega
      · have := byteInWord_toNat (s.ea rs imm)
        rw [wordBase_toNat, List.length_take, bytesToStore_length, bytesOf]; omega
  | swr rt imm rs =>
    rw [exec_swr]
    unfold execSwr
    dsimp only
    split
    · exact ExecCase.storeAligned_case (by rfl) _ _ _
    · have e : wordBase (wordBase (s.ea rs imm)) = wordBase (s.ea rs imm) := by
        apply BitVec.eq_of_toNat_eq; rw [wordBase_toNat, wordBase_toNat]; omega
      refine ExecCase.storePart_case (by rfl) _ _ (by rw [e]) ?_
      rw [e, List.length_drop, bytesToStore_length, bytesOf]; omega
  | ll rt imm rs =>
    rw [exec_ll]
    unfold execLl
    dsimp only
    split
    · next al =>
      split
      · next t h =>
        refine ExecCase.raise_bus ?_
        rcases memRead_cases s (s.ea rs imm) .word with hs | hs
        · rw [h] at hs; exact ⟨s.dev, s.draws, hs, .inl rfl⟩
        · rw [h] at hs; exact ⟨_, _, deviceCall_busError hs.symm, .inr ⟨_, rfl⟩⟩
      · next v t h =>
        have k := (AccessOf.read al h).sameCore
        exact .plain (t := t) (gprSet t.gpr rt v) t.hi t.lo t.status t.cause t.epc true (s.ea rs imm) false rfl
          (AccessOf.read al h) (by rw [gprSet_zero, k.gpr])
    · exact ExecCase.raise_case _
  | sc rt imm rs =>
    rw [exec_sc]
    unfold execSc
    dsimp only
    have hd : ∃ n, (s.scSuccess (s.ea rs imm)).2 = { s with draws := n } := by
      unfold State.scSuccess
      split
      · split
        · exact ⟨s.draws, rfl⟩
        · exact ⟨s.draws + 1, rfl⟩
      · exact ⟨s.draws, rfl⟩
    obtain ⟨n, hn⟩ := hd
    split
    · next al =>
      split
      · rw [hn]
        split
        · next t h => exact ExecCase.raise_bus (ExecCase.memWrite_bus n h)
        · next x t h =>
          have k := (AccessOf.write n al h).sameCore
          exact .plain (t := t) (gprSet t.gpr rt (boolWord true)) t.hi t.lo t.status t.cause t.epc false t.llAddr
            t.llForeign rfl
            (AccessOf.write n al h) (by rw [gprSet_zero, k.gpr])
      · rw [hn]
        exact .plain (t := { s with draws := n }) (gprSet s.gpr rt (boolWord false)) s.hi s.lo s.status s.cause s.epc
          false s.llAddr s.llForeign rfl
          (AccessOf.untouched n) (gprSet_zero _ _ _)
    · exact ExecCase.raise_case _
  | sync _ => exact ExecCase.advance_case rfl
  | syscall _ | brk _ | cop1 | cop2 | cop3 | lwc1 | lwc2 | lwc3 | ldc1 | ldc2 | ldc3 | swc1 | swc2 | swc3 | sdc1 | sdc2
  | sdc3 => exact ExecCase.raise_case _
  | tge _ _ _ | tgeu _ _ _ | tlt _ _ _ | tltu _ _ _ | teq _ _ _ | tne _ _ _ | tgei _ _ | tgeiu _ _ | tlti _ _
  | tltiu _ _ | teqi _ _ | tnei _ _ => exact ExecCase.trapWhen_case (by rfl) _
  | mfc0 rt rd =>
    rw [exec_mfc0]
    unfold execMfc0
    split
    · exact ExecCase.writeResult_case (by rfl) _ _
    · exact .stop _ (by decide)
  | mtc0 rt rd =>
    rw [exec_mtc0]
    unfold execMtc0 State.cp0Write
    split
    · next t h =>
      split at h
      · cases h
        exact .plain s.gpr s.hi s.lo _ s.cause s.epc s.llbit s.llAddr s.llForeign rfl (AccessOf.self s) rfl
      · split at h
        · cases h
          exact .plain s.gpr s.hi s.lo s.status _ s.epc s.llbit s.llAddr s.llForeign rfl (AccessOf.self s) rfl
        · split at h
          · cases h
            exact .plain s.gpr s.hi s.lo s.status s.cause _ s.llbit s.llAddr s.llForeign rfl (AccessOf.self s) rfl
          · split at h
            · cases h; exact ExecCase.advance_case rfl
            · split at h
              · cases h; exact ExecCase.advance_case rfl
              · cases h
    · exact .stop _ (by decide)
  | rfe => exact .plain s.gpr s.hi s.lo s.status.pop s.cause s.epc false s.llAddr s.llForeign rfl (AccessOf.self s) rfl

end Sys2Proof.Machine
end

