-- ==== Sys2Proof/Laws/Invariant.lean ====
section
/-! SUPPORT. Each shared operation keeps the invariants `Inv` and `MemInRam`: writes of bytes, DMA, device calls, accesses,
exception entry, sequencing. -/

namespace Sys2Proof.Machine

/-! ## Regions -/

theorem mapOk_mem {m : List Region} (h : mapOk m = true) {r : Region} (hr : r ∈ m) : regionOk r = true := by
  induction m with
  | nil => cases hr
  | cons q m ih =>
    simp only [mapOk, Bool.and_eq_true] at h
    rcases List.mem_cons.1 hr with rfl | hr
    · exact h.1.1
    · exact ih h.2 hr

theorem regionOk_iff (r : Region) : regionOk r = true ↔
    r.base.toNat % 4 = 0 ∧ r.size % 4 = 0 ∧ 4 ≤ r.size ∧ r.base.toNat + r.size ≤ 2 ^ 32 := by
  simp [regionOk, and_assoc]

theorem regionContains_iff (r : Region) (a : Nat) :
    regionContains r a = true ↔ r.base.toNat ≤ a ∧ a < r.base.toNat + r.size := by
  simp [regionContains]

theorem resolve_some {m : List Region} {a : Word} {r : Region} (h : resolve m a = some r) :
    r ∈ m ∧ regionContains r a.toNat = true :=
  ⟨List.mem_of_find?_eq_some h, by simpa using List.find?_some h⟩

/-- A naturally aligned access lies wholly inside the region of its first byte (R39). -/
theorem aligned_in_region {r : Region} (hr : regionOk r = true) {a : Nat} (h : regionContains r a = true) {w : Width}
    (al : a % bytesOf w = 0) {i : Nat} (hi : i < bytesOf w) : regionContains r (a + i) = true := by
  rw [regionOk_iff] at hr
  rw [regionContains_iff] at h ⊢
  cases w <;> simp only [bytesOf] at al hi <;> omega

/-! ## Cells of a written store -/

namespace Memory

theorem mem_cons {a x : Nat} {b c : Byte} {m : ByteStore} (h : (x, c) ∈ cons a b m) : x = a ∨ (x, c) ∈ m := by
  unfold cons at h
  split at h
  · exact .inr h
  · rcases List.mem_cons.1 h with h | h
    · left; exact congrArg Prod.fst h
    · exact .inr h

theorem mem_write {m : ByteStore} {a x : Nat} {b c : Byte} (h : (x, c) ∈ write m a b) : x = a ∨ (x, c) ∈ m := by
  induction m with
  | nil => exact mem_cons h
  | cons k m ih =>
    obtain ⟨k, d⟩ := k
    unfold write at h
    split at h
    · exact mem_cons h
    · split at h
      · rcases mem_cons h with h | h
        · exact .inl h
        · exact .inr (List.mem_cons_of_mem _ h)
      · rcases List.mem_cons.1 h with h | h
        · right; rw [h]; exact List.mem_cons_self
        · rcases ih h with h | h
          · exact .inl h
          · exact .inr (List.mem_cons_of_mem _ h)

theorem mem_writeBytes {m : ByteStore} {a x : Nat} {c : Byte} {bs : List Byte} (h : (x, c) ∈ writeBytes m a bs) :
    (a ≤ x ∧ x < a + bs.length) ∨ (x, c) ∈ m := by
  induction bs generalizing m a with
  | nil => exact .inr h
  | cons b bs ih =>
    rcases ih h with h | h
    · left; simp only [List.length_cons]; omega
    · rcases mem_write h with h | h
      · left; simp only [List.length_cons]; omega
      · exact .inr h

end Memory

/-! ## States that differ where the invariant does not look -/

/-- What the invariant reads. -/
theorem Inv.of_eq {s t : State} (h : Inv s) (par : t.par = s.par) (mem : t.mem = s.mem) (rom : t.rom = s.rom)
    (lm : t.vcop.localMem = s.vcop.localMem) (ls : t.vcop.localSize = s.vcop.localSize) (g : t.gpr[0] = s.gpr[0])
    (tk : t.taken = s.taken) (dl : t.delay = s.delay) (pc : t.pc = s.pc) (npc : t.npc = s.npc)
    (w : t.smcW = s.smcW) : Inv t where
  map_ok := by rw [par]; exact h.map_ok
  mem_canonical := by rw [mem]; exact h.mem_canonical
  rom_canonical := by rw [rom]; exact h.rom_canonical
  local_canonical := by rw [lm, ls]; exact h.local_canonical
  zero_reg := by rw [g]; exact h.zero_reg
  taken_in_slot := by rw [tk, dl]; exact h.taken_in_slot
  npc_follows := by rw [tk, pc, npc]; exact h.npc_follows
  coherent_has_no_w := by rw [par, w]; exact h.coherent_has_no_w

theorem Inv.markWords {s : State} (h : Inv s) (words : List Nat) : Inv (s.markWords words) where
  map_ok := h.map_ok
  mem_canonical := h.mem_canonical
  rom_canonical := h.rom_canonical
  local_canonical := h.local_canonical
  zero_reg := h.zero_reg
  taken_in_slot := h.taken_in_slot
  npc_follows := h.npc_follows
  coherent_has_no_w := fun hc => by
    have hc' : s.par.smcMode = .coherent := hc
    simp only [State.markWords, hc']
    exact h.coherent_has_no_w hc'

theorem Inv.markWritten {s : State} (h : Inv s) (a n : Nat) : Inv (s.markWritten a n) := h.markWords _

/-- Bytes written inside the local memory keep the invariant. -/
theorem Inv.storeLocal {s : State} (h : Inv s) {loc : Nat} {bs : List Byte} (hb : loc + bs.length ≤ s.vcop.localSize) :
    Inv (s.storeLocal loc bs) := by
  refine Inv.markWords ?_ _
  exact
    { map_ok := h.map_ok, mem_canonical := h.mem_canonical, rom_canonical := h.rom_canonical,
      local_canonical := Memory.writeBytes_canonicalFrom h.local_canonical bs hb,
      zero_reg := h.zero_reg, taken_in_slot := h.taken_in_slot, npc_follows := h.npc_follows,
      coherent_has_no_w := h.coherent_has_no_w }

theorem Inv.foreignLocal {s : State} (h : Inv s) {loc : Nat} {bs : List Byte}
    (hb : loc + bs.length ≤ s.vcop.localSize) : Inv (s.foreignLocal loc bs) :=
  (h.storeLocal hb).of_eq rfl rfl rfl rfl rfl rfl rfl rfl rfl rfl rfl

/-- Bytes written below the end of the address space keep the invariant. -/
theorem Inv.writeMem {s : State} (h : Inv s) {a : Nat} {bs : List Byte} (hb : a + bs.length ≤ 2 ^ 32) :
    Inv { s with mem := Memory.writeBytes s.mem a bs } where
  map_ok := h.map_ok
  mem_canonical := Memory.writeBytes_wf h.mem_canonical bs hb
  rom_canonical := h.rom_canonical
  local_canonical := h.local_canonical
  zero_reg := h.zero_reg
  taken_in_slot := h.taken_in_slot
  npc_follows := h.npc_follows
  coherent_has_no_w := h.coherent_has_no_w

theorem Inv.storeRam {s : State} (h : Inv s) {a : Nat} {bs : List Byte} (hb : a + bs.length ≤ 2 ^ 32) :
    Inv (s.storeRam a bs) := (h.writeMem hb).markWritten a bs.length

theorem Inv.foreignWrite {s : State} (h : Inv s) {a : Nat} {bs : List Byte} (hb : a + bs.length ≤ 2 ^ 32) :
    Inv (s.foreignWrite a bs) :=
  Inv.markWritten ((h.writeMem hb).of_eq (t := { s with
    mem := Memory.writeBytes s.mem a bs
    llForeign := s.llForeign || touchesWord a bs.length s.llAddr.toNat }) rfl rfl rfl rfl rfl rfl rfl rfl rfl rfl rfl)
    a bs.length

/-! ## DMA and device calls -/

/-- A request in range of main memory lies in one region of the map, in RAM when it writes. -/
theorem dmaMainInRange_region {s : State} {dir : DmaDir} {main len : Nat} (h : s.dmaMainInRange dir main len = true) :
    ∃ r ∈ s.par.regionMap, r.base.toNat ≤ main ∧ main + len ≤ r.base.toNat + r.size ∧
      (dir = .localToMain → r.kind = .ram) := by
  simp only [State.dmaMainInRange, List.any_eq_true, Bool.and_eq_true, decide_eq_true_eq] at h
  obtain ⟨r, hr, ⟨h1, h2⟩, h3⟩ := h
  refine ⟨r, hr, h1, h2, fun hd => ?_⟩
  subst hd
  cases hk : r.kind <;> simp [hk] at h3 ⊢

theorem Inv.dma {s : State} (h : Inv s) (dir : DmaDir) (main loc len : Nat) : Inv (s.dma dir main loc len) := by
  unfold State.dma
  split
  · next hr =>
    simp only [State.dmaInRange, Bool.and_eq_true] at hr
    obtain ⟨r, hm, h1, h2, _⟩ := dmaMainInRange_region hr.1
    have hb := (regionOk_iff r).1 (mapOk_mem h.map_ok hm)
    have hl : loc + len ≤ s.vcop.localSize := by simpa [State.dmaLocalInRange] using hr.2
    cases dir with
    | mainToLocal =>
      have h0 : Inv { s with draws := s.draws + 1 } := h.of_eq rfl rfl rfl rfl rfl rfl rfl rfl rfl rfl rfl
      have k := h0.foreignLocal (loc := loc) (bs := s.mainBytes main len) (by simpa using hl)
      exact k.of_eq rfl rfl rfl rfl rfl rfl rfl rfl rfl rfl rfl
    | localToMain =>
      have k := h.foreignWrite (a := main) (bs := Memory.readBytes s.vcop.localMem loc len) (by simp; omega)
      exact k.of_eq rfl rfl rfl rfl rfl rfl rfl rfl rfl rfl rfl
  · exact h.of_eq rfl rfl rfl rfl rfl rfl rfl rfl rfl rfl rfl

theorem Inv.deviceAction {s : State} (h : Inv s) (role : CallRole) (a : DevAction) : Inv (s.deviceAction role a) := by
  rcases deviceAction_cases s role a with k | ⟨_, _, _, _, _, k⟩ | ⟨_, _, _, hl, k⟩ | ⟨_, _, _, k⟩ | ⟨_, _, k⟩ <;> rw [k]
  · exact h
  · exact h.dma _ _ _ _
  · exact h.foreignLocal (by simpa using hl)
  · exact h.of_eq rfl rfl rfl rfl rfl rfl rfl rfl rfl rfl rfl
  · exact h.of_eq rfl rfl rfl rfl rfl rfl rfl rfl rfl rfl rfl

theorem Inv.deviceActions {s : State} (h : Inv s) (role : CallRole) (as : List DevAction) :
    Inv (s.deviceActions role as) := by
  induction as generalizing s with
  | nil => exact h
  | cons a as ih => exact ih (h.deviceAction role a)

/-- An access through a window that is made lies inside the local memory. -/
theorem windowAccess_inside {s : State} {c : DevCall} {o : Nat} (h : s.windowAccess c = some o) :
    o + bytesOf c.width ≤ s.vcop.localSize := by
  unfold State.windowAccess at h
  split at h
  · cases h
  · split at h
    · next hl => cases h; exact hl
    · cases h

theorem Inv.takeCall {s : State} (h : Inv s) (c : DevCall) : Inv (s.takeCall c) := by
  have h0 : Inv (State.latchRegisters { s with dev := c :: s.dev, draws := s.draws + 1 } c) :=
    h.of_eq rfl rfl rfl rfl rfl rfl rfl rfl rfl rfl rfl
  have h1 : Inv ((State.latchRegisters { s with dev := c :: s.dev, draws := s.draws + 1 } c).windowStore c) := by
    rcases windowStore_cases (State.latchRegisters { s with dev := c :: s.dev, draws := s.draws + 1 } c) c with
      k | ⟨v, o, _, ho, k⟩ <;> rw [k]
    · exact h0
    · exact h0.storeLocal (by rw [bytesToStore_length]; exact windowAccess_inside ho)
  show Inv (State.registerDma _ c)
  rcases registerDma_cases
    ((State.latchRegisters { s with dev := c :: s.dev, draws := s.draws + 1 } c).windowStore c) c with
    k | ⟨_, _, _, _, k⟩ <;> rw [k]
  · exact h1
  · exact h1.dma _ _ _ _

theorem Inv.afterDeviceCall {s : State} (h : Inv s) (c : DevCall) (reply : DevReply) :
    Inv (s.afterDeviceCall c reply) := by
  have k := (h.takeCall c).deviceActions (s.callRole c) reply.actions
  unfold State.afterDeviceCall
  split <;> exact k.of_eq rfl rfl rfl rfl rfl rfl rfl rfl rfl rfl rfl

theorem Inv.deviceCall {s : State} (h : Inv s) (c : DevCall) : Inv (deviceCall s c).state := by
  unfold Machine.deviceCall State.answerCall
  split
  · exact h.of_eq rfl rfl rfl rfl rfl rfl rfl rfl rfl rfl rfl
  · exact h.afterDeviceCall c _

/-! ## Accesses -/

theorem Inv.memRead {s : State} (h : Inv s) (a : Word) (w : Width) : Inv (memRead s a w).state := by
  rcases memRead_cases s a w with k | k
  · rw [k]; exact h
  · rw [k]; exact h.deviceCall _

theorem Inv.memWrite {s : State} (h : Inv s) {a : Word} {w : Width} (v : Word) (al : alignedTo a w = true) :
    Inv (memWrite s a w v).state := by
  rcases memWrite_cases s a w v with k | ⟨r, hr, _, k⟩ | k
  · rw [k]; exact h
  · rw [k]
    obtain ⟨hm, hc⟩ := resolve_some hr
    have hok := mapOk_mem h.map_ok hm
    have hb := (regionOk_iff r).1 hok
    rw [alignedTo_iff] at al
    have hl := aligned_in_region hok hc al (i := bytesOf w - 1) (by cases w <;> decide)
    rw [regionContains_iff] at hl
    exact h.storeRam (by rw [bytesToStore_length]; cases w <;> simp only [bytesOf] at * <;> omega)
  · rw [k]
    have hd := h.deviceCall { addr := a, width := w, write := some (lowBits w v) }
    unfold deviceWrite
    split
    · next e => rw [e] at hd; exact hd
    · next e => rw [e] at hd; exact Inv.markWritten hd _ _

theorem AccessOf.inv {s t : State} (k : AccessOf s t) (h : Inv s) : Inv t := by
  cases k with
  | untouched n => exact h.of_eq rfl rfl rfl rfl rfl rfl rfl rfl rfl rfl rfl
  | @read a w v _ al hr => have k := h.memRead a w; rw [hr] at k; exact k
  | @write a w v x _ n al hw =>
    have h0 : Inv { s with draws := n } := h.of_eq rfl rfl rfl rfl rfl rfl rfl rfl rfl rfl rfl
    have k := h0.memWrite v al
    rw [hw] at k
    exact k
  | @part a bs r hr hk lo hi =>
    obtain ⟨hm, hc⟩ := resolve_some hr
    have hb := (regionOk_iff r).1 (mapOk_mem h.map_ok hm)
    rw [regionContains_iff] at hc
    have := wordBase_toNat a
    exact h.storeRam (by omega)

/-! ## Exception entry and sequencing -/

theorem Inv.enter {s : State} (h : Inv s) (e : Exn) : Inv (s.enter e) where
  map_ok := h.map_ok
  mem_canonical := h.mem_canonical
  rom_canonical := h.rom_canonical
  local_canonical := h.local_canonical
  zero_reg := h.zero_reg
  taken_in_slot := by intro k; cases k
  npc_follows := fun _ => rfl
  coherent_has_no_w := fun _ => rfl

theorem Inv.withRegisters {t : State} (h : Inv t) {g : Vector Word 32} (hg : g[0] = t.gpr[0]) (hi lo : Word)
    (st : Status) (ca : Cause) (ep : Word) (lb : Bool) (la : Word) (lf : Bool) :
    Inv (withRegisters t g hi lo st ca ep lb la lf) := h.of_eq rfl rfl rfl rfl rfl hg rfl rfl rfl rfl rfl

theorem Inv.sequence {s : State} (h : Inv s) {isTransfer taken : Bool} (target : Word)
    (ht : taken = true → isTransfer = true) : Inv (s.sequence isTransfer taken target) where
  map_ok := h.map_ok
  mem_canonical := h.mem_canonical
  rom_canonical := h.rom_canonical
  local_canonical := h.local_canonical
  zero_reg := h.zero_reg
  taken_in_slot := ht
  npc_follows := fun hn => by
    have hn' : taken = false := hn
    simp [State.sequence, hn']
  coherent_has_no_w := fun hc => by
    have k := h.coherent_has_no_w hc
    simp [State.sequence, k]

/-! ## RAM only -/

theorem MemInRam.of_eq {s t : State} (h : MemInRam s) (mem : t.mem = s.mem) (par : t.par = s.par) : MemInRam t := by
  intro a b k; rw [mem] at k; rw [par]; exact h a b k

theorem MemInRam.writeMem {s t : State} (h : MemInRam s) {a : Nat} {bs : List Byte}
    (mem : t.mem = Memory.writeBytes s.mem a bs) (par : t.par = s.par)
    (hr : ∀ x, a ≤ x → x < a + bs.length → ∃ r ∈ s.par.regionMap, r.kind = .ram ∧ regionContains r x = true) :
    MemInRam t := by
  intro x b k
  rw [mem] at k
  rw [par]
  rcases Memory.mem_writeBytes k with k | k
  · exact hr x k.1 k.2
  · exact h x b k

theorem MemInRam.dma {s : State} (h : MemInRam s) (dir : DmaDir) (main loc len : Nat) :
    MemInRam (s.dma dir main loc len) := by
  unfold State.dma
  split
  · next hr =>
    simp only [State.dmaInRange, Bool.and_eq_true] at hr
    obtain ⟨r, hm, h1, h2, h3⟩ := dmaMainInRange_region hr.1
    cases dir with
    | mainToLocal => exact h.of_eq rfl rfl
    | localToMain =>
      refine h.writeMem (a := main) (bs := Memory.readBytes s.vcop.localMem loc len) rfl rfl fun x lo hi => ?_
      refine ⟨r, hm, h3 rfl, ?_⟩
      rw [regionContains_iff]
      rw [Memory.readBytes_length] at hi
      omega
  · exact h.of_eq rfl rfl

theorem MemInRam.deviceActions {s : State} (h : MemInRam s) (role : CallRole) (as : List DevAction) :
    MemInRam (s.deviceActions role as) := by
  induction as generalizing s with
  | nil => exact h
  | cons a as ih =>
    refine ih ?_
    rcases deviceAction_cases s role a with k | ⟨_, _, _, _, _, k⟩ | ⟨_, _, _, _, k⟩ | ⟨_, _, _, k⟩ | ⟨_, _, k⟩ <;>
      rw [k]
    · exact h
    · exact h.dma _ _ _ _
    · exact h.of_eq rfl rfl
    · exact h.of_eq rfl rfl
    · exact h.of_eq rfl rfl

theorem MemInRam.takeCall {s : State} (h : MemInRam s) (c : DevCall) : MemInRam (s.takeCall c) := by
  have h0 : MemInRam ((State.latchRegisters { s with dev := c :: s.dev, draws := s.draws + 1 } c).windowStore c) := by
    rcases windowStore_cases (State.latchRegisters { s with dev := c :: s.dev, draws := s.draws + 1 } c) c with
      k | ⟨_, _, _, _, k⟩ <;> rw [k] <;> exact h.of_eq rfl rfl
  show MemInRam (State.registerDma _ c)
  rcases registerDma_cases
    ((State.latchRegisters { s with dev := c :: s.dev, draws := s.draws + 1 } c).windowStore c) c with
    k | ⟨_, _, _, _, k⟩ <;> rw [k]
  · exact h0
  · exact h0.dma _ _ _ _

theorem MemInRam.deviceCall {s : State} (h : MemInRam s) (c : DevCall) : MemInRam (deviceCall s c).state := by
  unfold Machine.deviceCall State.answerCall
  split
  · exact h.of_eq rfl rfl
  · have k := (h.takeCall c).deviceActions (s.callRole c) (Config.device (s.deviceContext c)).actions
    show MemInRam (s.afterDeviceCall c _)
    unfold State.afterDeviceCall
    split <;> exact k.of_eq rfl rfl

theorem AccessOf.memInRam {s t : State} (k : AccessOf s t) (hi : Inv s) (h : MemInRam s) : MemInRam t := by
  cases k with
  | untouched n => exact h.of_eq rfl rfl
  | @read a w v _ al hr =>
    rcases memRead_cases s a w with k | k
    · rw [hr] at k; exact h.of_eq (congrArg State.mem k) (congrArg State.par k)
    · have hd := h.deviceCall { addr := a, width := w, write := none }
      rw [← k, hr] at hd
      exact hd
  | @write a w v x _ n al hw =>
    rcases memWrite_cases { s with draws := n } a w v with k | ⟨r, hr, hk, k⟩ | k
    · rw [hw] at k; cases k
    · rw [hw] at k
      cases k
      obtain ⟨hm, hc⟩ := resolve_some hr
      refine h.writeMem (a := a.toNat) (bs := bytesToStore v w) rfl rfl fun y lo hy => ⟨r, hm, hk, ?_⟩
      rw [alignedTo_iff] at al
      have := aligned_in_region (mapOk_mem hi.map_ok hm) hc al (i := y - a.toNat)
        (by rw [bytesToStore_length] at hy; omega)
      rwa [show a.toNat + (y - a.toNat) = y by omega] at this
    · have h0 : MemInRam { s with draws := n } := h.of_eq rfl rfl
      have hd := h0.deviceCall { addr := a, width := w, write := some (lowBits w v) }
      rw [hw] at k
      unfold deviceWrite at k
      split at k
      · cases k
      · next e => cases k; rw [e] at hd; exact MemInRam.of_eq hd rfl rfl
  | @part a bs r hr hk lo hi' =>
    obtain ⟨hm, hc⟩ := resolve_some hr
    have hb := (regionOk_iff r).1 (mapOk_mem hi.map_ok hm)
    rw [regionContains_iff] at hc
    have := wordBase_toNat a
    refine h.writeMem (a := a.toNat) (bs := bs) rfl rfl fun y ly hy => ⟨r, hm, hk, ?_⟩
    rw [regionContains_iff]
    omega

end Sys2Proof.Machine
end

