-- ==== Sys2Proof/Laws/PerInstr.lean ====
section
/-! SUPPORT. The family TableRow, about every instruction as syntax: its encoded word has the fixed bits of its row of
spec/opcode_table.json (`match` under `mask`). The table stands in Decode.lean as the spec has it, so that the
encoder is held against it row by row. -/

namespace Sys2Proof.Laws.TableRow

/-- The encoded word has the fixed bits of the instruction's row. -/
def Statement (i : Instr) : Prop := encode i &&& (tableRow i).2 = (tableRow i).1

theorem add (rd rs rt : RegIdx) : Statement (.add rd rs rt) := mask_rWord _ _ _ _ _
theorem addu (rd rs rt : RegIdx) : Statement (.addu rd rs rt) := mask_rWord _ _ _ _ _
theorem sub (rd rs rt : RegIdx) : Statement (.sub rd rs rt) := mask_rWord _ _ _ _ _
theorem subu (rd rs rt : RegIdx) : Statement (.subu rd rs rt) := mask_rWord _ _ _ _ _
theorem and (rd rs rt : RegIdx) : Statement (.and rd rs rt) := mask_rWord _ _ _ _ _
theorem or (rd rs rt : RegIdx) : Statement (.or rd rs rt) := mask_rWord _ _ _ _ _
theorem xor (rd rs rt : RegIdx) : Statement (.xor rd rs rt) := mask_rWord _ _ _ _ _
theorem nor (rd rs rt : RegIdx) : Statement (.nor rd rs rt) := mask_rWord _ _ _ _ _
theorem slt (rd rs rt : RegIdx) : Statement (.slt rd rs rt) := mask_rWord _ _ _ _ _
theorem sltu (rd rs rt : RegIdx) : Statement (.sltu rd rs rt) := mask_rWord _ _ _ _ _
theorem addi (rt rs : RegIdx) (imm : BitVec 16) : Statement (.addi rt rs imm) := mask_iWord _ _ _ _
theorem addiu (rt rs : RegIdx) (imm : BitVec 16) : Statement (.addiu rt rs imm) := mask_iWord _ _ _ _
theorem slti (rt rs : RegIdx) (imm : BitVec 16) : Statement (.slti rt rs imm) := mask_iWord _ _ _ _
theorem sltiu (rt rs : RegIdx) (imm : BitVec 16) : Statement (.sltiu rt rs imm) := mask_iWord _ _ _ _
theorem andi (rt rs : RegIdx) (imm : BitVec 16) : Statement (.andi rt rs imm) := mask_iWord _ _ _ _
theorem ori (rt rs : RegIdx) (imm : BitVec 16) : Statement (.ori rt rs imm) := mask_iWord _ _ _ _
theorem xori (rt rs : RegIdx) (imm : BitVec 16) : Statement (.xori rt rs imm) := mask_iWord _ _ _ _
theorem lui (rt : RegIdx) (imm : BitVec 16) : Statement (.lui rt imm) := mask_iWord _ _ _ _
theorem sll (rd rt : RegIdx) (sa : BitVec 5) : Statement (.sll rd rt sa) := mask_rWord _ _ _ _ _
theorem srl (rd rt : RegIdx) (sa : BitVec 5) : Statement (.srl rd rt sa) := mask_rWord _ _ _ _ _
theorem sra (rd rt : RegIdx) (sa : BitVec 5) : Statement (.sra rd rt sa) := mask_rWord _ _ _ _ _
theorem sllv (rd rt rs : RegIdx) : Statement (.sllv rd rt rs) := mask_rWord _ _ _ _ _
theorem srlv (rd rt rs : RegIdx) : Statement (.srlv rd rt rs) := mask_rWord _ _ _ _ _
theorem srav (rd rt rs : RegIdx) : Statement (.srav rd rt rs) := mask_rWord _ _ _ _ _
theorem mult (rs rt : RegIdx) : Statement (.mult rs rt) := mask_rWord _ _ _ _ _
theorem multu (rs rt : RegIdx) : Statement (.multu rs rt) := mask_rWord _ _ _ _ _
theorem div (rs rt : RegIdx) : Statement (.div rs rt) := mask_rWord _ _ _ _ _
theorem divu (rs rt : RegIdx) : Statement (.divu rs rt) := mask_rWord _ _ _ _ _
theorem mfhi (rd : RegIdx) : Statement (.mfhi rd) := mask_rWord _ _ _ _ _
theorem mflo (rd : RegIdx) : Statement (.mflo rd) := mask_rWord _ _ _ _ _
theorem mthi (rs : RegIdx) : Statement (.mthi rs) := mask_rWord _ _ _ _ _
theorem mtlo (rs : RegIdx) : Statement (.mtlo rs) := mask_rWord _ _ _ _ _
theorem j (target : BitVec 26) : Statement (.j target) := mask_jWord _ _
theorem jal (target : BitVec 26) : Statement (.jal target) := mask_jWord _ _
theorem jr (rs : RegIdx) : Statement (.jr rs) := mask_rWord _ _ _ _ _
theorem jalr (rd rs : RegIdx) : Statement (.jalr rd rs) := mask_rWord _ _ _ _ _
theorem beq (rs rt : RegIdx) (imm : BitVec 16) : Statement (.beq rs rt imm) := mask_iWord _ _ _ _
theorem bne (rs rt : RegIdx) (imm : BitVec 16) : Statement (.bne rs rt imm) := mask_iWord _ _ _ _
theorem blez (rs : RegIdx) (imm : BitVec 16) : Statement (.blez rs imm) := mask_iWord _ _ _ _
theorem bgtz (rs : RegIdx) (imm : BitVec 16) : Statement (.bgtz rs imm) := mask_iWord _ _ _ _
theorem bltz (rs : RegIdx) (imm : BitVec 16) : Statement (.bltz rs imm) := mask_regimmWord _ _ _
theorem bgez (rs : RegIdx) (imm : BitVec 16) : Statement (.bgez rs imm) := mask_regimmWord _ _ _
theorem bltzal (rs : RegIdx) (imm : BitVec 16) : Statement (.bltzal rs imm) := mask_regimmWord _ _ _
theorem bgezal (rs : RegIdx) (imm : BitVec 16) : Statement (.bgezal rs imm) := mask_regimmWord _ _ _
theorem lb (rt : RegIdx) (imm : BitVec 16) (rs : RegIdx) : Statement (.lb rt imm rs) := mask_iWord _ _ _ _
theorem lbu (rt : RegIdx) (imm : BitVec 16) (rs : RegIdx) : Statement (.lbu rt imm rs) := mask_iWord _ _ _ _
theorem lh (rt : RegIdx) (imm : BitVec 16) (rs : RegIdx) : Statement (.lh rt imm rs) := mask_iWord _ _ _ _
theorem lhu (rt : RegIdx) (imm : BitVec 16) (rs : RegIdx) : Statement (.lhu rt imm rs) := mask_iWord _ _ _ _
theorem lw (rt : RegIdx) (imm : BitVec 16) (rs : RegIdx) : Statement (.lw rt imm rs) := mask_iWord _ _ _ _
theorem lwl (rt : RegIdx) (imm : BitVec 16) (rs : RegIdx) : Statement (.lwl rt imm rs) := mask_iWord _ _ _ _
theorem lwr (rt : RegIdx) (imm : BitVec 16) (rs : RegIdx) : Statement (.lwr rt imm rs) := mask_iWord _ _ _ _
theorem sb (rt : RegIdx) (imm : BitVec 16) (rs : RegIdx) : Statement (.sb rt imm rs) := mask_iWord _ _ _ _
theorem sh (rt : RegIdx) (imm : BitVec 16) (rs : RegIdx) : Statement (.sh rt imm rs) := mask_iWord _ _ _ _
theorem sw (rt : RegIdx) (imm : BitVec 16) (rs : RegIdx) : Statement (.sw rt imm rs) := mask_iWord _ _ _ _
theorem swl (rt : RegIdx) (imm : BitVec 16) (rs : RegIdx) : Statement (.swl rt imm rs) := mask_iWord _ _ _ _
theorem swr (rt : RegIdx) (imm : BitVec 16) (rs : RegIdx) : Statement (.swr rt imm rs) := mask_iWord _ _ _ _
theorem ll (rt : RegIdx) (imm : BitVec 16) (rs : RegIdx) : Statement (.ll rt imm rs) := mask_iWord _ _ _ _
theorem sc (rt : RegIdx) (imm : BitVec 16) (rs : RegIdx) : Statement (.sc rt imm rs) := mask_iWord _ _ _ _
theorem sync (stype : BitVec 5) : Statement (.sync stype) := mask_rWord _ _ _ _ _
theorem syscall (code : BitVec 20) : Statement (.syscall code) := mask_specialCodeWord _ _
theorem brk (code : BitVec 20) : Statement (.brk code) := mask_specialCodeWord _ _
theorem tge (rs rt : RegIdx) (code : BitVec 10) : Statement (.tge rs rt code) := mask_trapWord _ _ _ _
theorem tgeu (rs rt : RegIdx) (code : BitVec 10) : Statement (.tgeu rs rt code) := mask_trapWord _ _ _ _
theorem tlt (rs rt : RegIdx) (code : BitVec 10) : Statement (.tlt rs rt code) := mask_trapWord _ _ _ _
theorem tltu (rs rt : RegIdx) (code : BitVec 10) : Statement (.tltu rs rt code) := mask_trapWord _ _ _ _
theorem teq (rs rt : RegIdx) (code : BitVec 10) : Statement (.teq rs rt code) := mask_trapWord _ _ _ _
theorem tne (rs rt : RegIdx) (code : BitVec 10) : Statement (.tne rs rt code) := mask_trapWord _ _ _ _
theorem tgei (rs : RegIdx) (imm : BitVec 16) : Statement (.tgei rs imm) := mask_regimmWord _ _ _
theorem tgeiu (rs : RegIdx) (imm : BitVec 16) : Statement (.tgeiu rs imm) := mask_regimmWord _ _ _
theorem tlti (rs : RegIdx) (imm : BitVec 16) : Statement (.tlti rs imm) := mask_regimmWord _ _ _
theorem tltiu (rs : RegIdx) (imm : BitVec 16) : Statement (.tltiu rs imm) := mask_regimmWord _ _ _
theorem teqi (rs : RegIdx) (imm : BitVec 16) : Statement (.teqi rs imm) := mask_regimmWord _ _ _
theorem tnei (rs : RegIdx) (imm : BitVec 16) : Statement (.tnei rs imm) := mask_regimmWord _ _ _
theorem mfc0 (rt rd : RegIdx) : Statement (.mfc0 rt rd) := mask_cop0MoveWord _ _ _
theorem mtc0 (rt rd : RegIdx) : Statement (.mtc0 rt rd) := mask_cop0MoveWord _ _ _
theorem rfe : Statement (.rfe) := rfl
theorem cop1 : Statement (.cop1) := mask_jWord _ _
theorem cop2 : Statement (.cop2) := mask_jWord _ _
theorem cop3 : Statement (.cop3) := mask_jWord _ _
theorem lwc1 : Statement (.lwc1) := mask_jWord _ _
theorem lwc2 : Statement (.lwc2) := mask_jWord _ _
theorem lwc3 : Statement (.lwc3) := mask_jWord _ _
theorem ldc1 : Statement (.ldc1) := mask_jWord _ _
theorem ldc2 : Statement (.ldc2) := mask_jWord _ _
theorem ldc3 : Statement (.ldc3) := mask_jWord _ _
theorem swc1 : Statement (.swc1) := mask_jWord _ _
theorem swc2 : Statement (.swc2) := mask_jWord _ _
theorem swc3 : Statement (.swc3) := mask_jWord _ _
theorem sdc1 : Statement (.sdc1) := mask_jWord _ _
theorem sdc2 : Statement (.sdc2) := mask_jWord _ _
theorem sdc3 : Statement (.sdc3) := mask_jWord _ _

end Sys2Proof.Laws.TableRow
end

