-- ==== Sys2Proof/Machine/Assembler.lean ====
section
/-! DEFINITION. The assembler's view (30_encoding.md R85, R86; 10_state.md R16): register names, the conversion of labels,
and the pseudo-instructions with their expansions. None of it is hardware. -/

namespace Sys2Proof.Machine

/-- The software names of the registers (R16). -/
def regNames : List String :=
  ["zero", "at", "v0", "v1", "a0", "a1", "a2", "a3", "t0", "t1", "t2", "t3", "t4", "t5", "t6", "t7"] ++
  ["s0", "s1", "s2", "s3", "s4", "s5", "s6", "s7", "t8", "t9", "k0", "k1", "gp", "sp", "fp", "ra"]

/-- `imm = (label - (branch_address + 4)) / 4` (R85). -/
def branchImm (branchAddress label : Word) : BitVec 16 := (label - (branchAddress + 4)).extractLsb' 2 16

/-- `target = label[27:2]` (R85). -/
def jumpIndex (label : Word) : BitVec 26 := label.extractLsb' 2 26

/-- The pseudo-instructions of R86. A branch's offset is given as the immediate of the expansion's branch. -/
inductive Pseudo where
  | nop
  | move (rd rs : RegIdx)
  /-- `li`, for any 32-bit constant: the shortest of its three expansions -/
  | li (rt : RegIdx) (value : Word)
  | la (rt : RegIdx) (addr : Word)
  | b (imm : BitVec 16)
  | bal (imm : BitVec 16)
  | beqz (rs : RegIdx) (imm : BitVec 16)
  | bnez (rs : RegIdx) (imm : BitVec 16)
  | neg (rd rs : RegIdx)
  | negu (rd rs : RegIdx)
  | not (rd rs : RegIdx)
  | blt (rs rt : RegIdx) (imm : BitVec 16)
  | bge (rs rt : RegIdx) (imm : BitVec 16)
  | bgt (rs rt : RegIdx) (imm : BitVec 16)
  | ble (rs rt : RegIdx) (imm : BitVec 16)
  | bltu (rs rt : RegIdx) (imm : BitVec 16)
  | bgeu (rs rt : RegIdx) (imm : BitVec 16)
  | bgtu (rs rt : RegIdx) (imm : BitVec 16)
  | bleu (rs rt : RegIdx) (imm : BitVec 16)
  | mul (rd rs rt : RegIdx)
  deriving DecidableEq, Repr

/-- `lui` and `ori` of a 32-bit constant (R86). -/
def loadConstant (rt : RegIdx) (v : Word) : List Instr :=
  [.lui rt (v.extractLsb' 16 16), .ori rt rt (v.extractLsb' 0 16)]

/-- The expansions of R86. -/
def Pseudo.expand : Pseudo → List Instr
  | .nop => [.sll 0#5 0#5 0#5]
  | .move rd rs => [.addu rd rs 0#5]
  | .li rt v =>
    if -32768 ≤ v.toInt ∧ v.toInt ≤ 32767 then [.addiu rt 0#5 (v.extractLsb' 0 16)]
    else if v.toNat ≤ 65535 then [.ori rt 0#5 (v.extractLsb' 0 16)]
    else loadConstant rt v
  | .la rt addr => loadConstant rt addr
  | .b imm => [.beq 0#5 0#5 imm]
  | .bal imm => [.bgezal 0#5 imm]
  | .beqz rs imm => [.beq rs 0#5 imm]
  | .bnez rs imm => [.bne rs 0#5 imm]
  | .neg rd rs => [.sub rd 0#5 rs]
  | .negu rd rs => [.subu rd 0#5 rs]
  | .not rd rs => [.nor rd rs 0#5]
  | .blt rs rt imm => [.slt 1#5 rs rt, .bne 1#5 0#5 imm]
  | .bge rs rt imm => [.slt 1#5 rs rt, .beq 1#5 0#5 imm]
  | .bgt rs rt imm => [.slt 1#5 rt rs, .bne 1#5 0#5 imm]
  | .ble rs rt imm => [.slt 1#5 rt rs, .beq 1#5 0#5 imm]
  | .bltu rs rt imm => [.sltu 1#5 rs rt, .bne 1#5 0#5 imm]
  | .bgeu rs rt imm => [.sltu 1#5 rs rt, .beq 1#5 0#5 imm]
  | .bgtu rs rt imm => [.sltu 1#5 rt rs, .bne 1#5 0#5 imm]
  | .bleu rs rt imm => [.sltu 1#5 rt rs, .beq 1#5 0#5 imm]
  | .mul rd rs rt => [.mult rs rt, .mflo rd]

end Sys2Proof.Machine
end

