-- ==== Sys2Proof/Tests/Slice0.lean ====
section
/-! SUPPORT. The model's own tests: ill-formed terms, decoding, one step of each instruction, the machine around them, and a
witness for every obligation that has hypotheses. Expected results come from 95_test_vectors.md (its part is named at each
group) and the examples of the rules named. -/

namespace Sys2Proof.Tests.Slice0

open Sys2Proof Sys2Proof.Machine

/-! ## Helpers -/

/-- The next state of an answer. -/
def nextOf : Result → Option State
  | .next t => some t
  | _ => none

/-- The fault of an answer. -/
def faultOf : Result → Option Fault
  | .fault f => some f
  | _ => none

/-- The common start state of 95_test_vectors.md Part 2: the word at PC = 0x1000, and these registers. -/
def vec (w : Word) (regs : List (RegIdx × Word)) : State :=
  regs.foldl (fun s r => s.setReg r.1 r.2)
    { State.reset with pc := 0x1000#32, npc := 0x1004#32, mem := storeValue [] 0x1000 .word w }

def inSlot (s : State) : State := { s with delay := true }
def putWord (a : Nat) (v : Word) (s : State) : State := { s with mem := storeValue s.mem a .word v }
def m1122 (s : State) : State := putWord 0x100 0x11223344#32 s
def linked (s : State) : State := { s with llbit := true, llAddr := 0x100#32 }
def putHi (v : Word) (s : State) : State := { s with hi := v }
def putLo (v : Word) (s : State) : State := { s with lo := v }
def putStatus (v : Word) (s : State) : State := { s with status := Status.ofWord v }

/-- The state after one step. -/
def after (s : State) : Option State := nextOf (step s)
def regAfter (s : State) (r : RegIdx) : Option Word := (after s).map (·.reg r)
def npcAfter (s : State) : Option Word := (after s).map (·.npc)
def wordAfter (s : State) (a : Nat) : Option Word := (after s).map (fun t => valueAt t.mem a .word)
/-- "no change": the step changes only the sequencing. -/
def unchanged (s : State) : Option Bool :=
  (after s).map fun t => decide (t = { s with pc := 0x1004#32, npc := 0x1008#32, delay := false })
/-- "exception": ExcCode, EPC, BD and BadVAddr of the handler's first state. -/
def entered (s : State) : Option (BitVec 5 × Word × Bool × Word) :=
  (after s).bind fun t =>
    if t.pc = 0x80000080#32 ∧ t.npc = 0x80000084#32 ∧ t.delay = false ∧ t.llbit = false ∧ t.gpr = s.gpr ∧ t.mem = s.mem then
      some (t.cause.excCode, t.epc, t.cause.bd, t.badVAddr)
    else none

/-! ## Ill-formed terms: one for each check of `Instr.wellFormed`, and a well-formed neighbour -/

theorem smoke_jalr_same_register :
    (Instr.jalr 4#5 4#5).wellFormed = false ∧ (Instr.jalr 31#5 4#5).wellFormed = true := by decide
theorem smoke_bltzal_link_source :
    (Instr.bltzal 31#5 0#16).wellFormed = false ∧ (Instr.bltzal 30#5 0#16).wellFormed = true := by decide
theorem smoke_bgezal_link_source :
    (Instr.bgezal 31#5 0#16).wellFormed = false ∧ (Instr.bgezal 0#5 0#16).wellFormed = true := by decide
theorem smoke_mfc0_unimplemented :
    (Instr.mfc0 2#5 9#5).wellFormed = false ∧ (Instr.mfc0 2#5 8#5).wellFormed = true := by decide
theorem smoke_mtc0_unimplemented :
    (Instr.mtc0 2#5 16#5).wellFormed = false ∧ (Instr.mtc0 2#5 15#5).wellFormed = true := by decide

/-! ## Decoding: the words of the vectors (Part 2), for every constructor -/

theorem test_decode_alu :
    decode 0x01095020#32 = .instr (.add 10#5 8#5 9#5) ∧ decode 0x01095021#32 = .instr (.addu 10#5 8#5 9#5) ∧
    decode 0x01095022#32 = .instr (.sub 10#5 8#5 9#5) ∧ decode 0x01095023#32 = .instr (.subu 10#5 8#5 9#5) ∧
    decode 0x01095024#32 = .instr (.and 10#5 8#5 9#5) ∧ decode 0x01095025#32 = .instr (.or 10#5 8#5 9#5) ∧
    decode 0x01085026#32 = .instr (.xor 10#5 8#5 8#5) ∧ decode 0x01005027#32 = .instr (.nor 10#5 8#5 0#5) ∧
    decode 0x0109502A#32 = .instr (.slt 10#5 8#5 9#5) ∧
    decode 0x0109502B#32 = .instr (.sltu 10#5 8#5 9#5) := by decide
theorem test_decode_alu_immediate :
    decode 0x210AFFFF#32 = .instr (.addi 10#5 8#5 0xFFFF#16) ∧
    decode 0x250AFFFF#32 = .instr (.addiu 10#5 8#5 0xFFFF#16) ∧
    decode 0x290AFFFF#32 = .instr (.slti 10#5 8#5 0xFFFF#16) ∧
    decode 0x2D0AFFFF#32 = .instr (.sltiu 10#5 8#5 0xFFFF#16) ∧
    decode 0x310AFFFF#32 = .instr (.andi 10#5 8#5 0xFFFF#16) ∧
    decode 0x350A8000#32 = .instr (.ori 10#5 8#5 0x8000#16) ∧
    decode 0x390AFFFF#32 = .instr (.xori 10#5 8#5 0xFFFF#16) ∧
    decode 0x3C0A8000#32 = .instr (.lui 10#5 0x8000#16) := by decide
theorem test_decode_shifts :
    decode 0x000857C0#32 = .instr (.sll 10#5 8#5 31#5) ∧ decode 0x000857C2#32 = .instr (.srl 10#5 8#5 31#5) ∧
    decode 0x000857C3#32 = .instr (.sra 10#5 8#5 31#5) ∧ decode 0x01285004#32 = .instr (.sllv 10#5 8#5 9#5) ∧
    decode 0x01285006#32 = .instr (.srlv 10#5 8#5 9#5) ∧
    decode 0x01285007#32 = .instr (.srav 10#5 8#5 9#5) := by decide
theorem test_decode_multiply_divide :
    decode 0x01090018#32 = .instr (.mult 8#5 9#5) ∧ decode 0x01090019#32 = .instr (.multu 8#5 9#5) ∧
    decode 0x0109001A#32 = .instr (.div 8#5 9#5) ∧ decode 0x0109001B#32 = .instr (.divu 8#5 9#5) ∧
    decode 0x00005010#32 = .instr (.mfhi 10#5) ∧ decode 0x00005012#32 = .instr (.mflo 10#5) ∧
    decode 0x01000011#32 = .instr (.mthi 8#5) ∧ decode 0x01000013#32 = .instr (.mtlo 8#5) := by decide
theorem test_decode_control :
    decode 0x0BFFFFFF#32 = .instr (.j 0x3FFFFFF#26) ∧ decode 0x0C000800#32 = .instr (.jal 0x0000800#26) ∧
    decode 0x01000008#32 = .instr (.jr 8#5) ∧ decode 0x01004809#32 = .instr (.jalr 9#5 8#5) ∧
    decode 0x11090003#32 = .instr (.beq 8#5 9#5 0x0003#16) ∧ decode 0x1509FFFE#32 = .instr (.bne 8#5 9#5 0xFFFE#16) ∧
    decode 0x190003FF#32 = .instr (.blez 8#5 0x03FF#16) ∧ decode 0x1D0003FF#32 = .instr (.bgtz 8#5 0x03FF#16) ∧
    decode 0x05000000#32 = .instr (.bltz 8#5 0x0000#16) ∧ decode 0x05010000#32 = .instr (.bgez 8#5 0x0000#16) ∧
    decode 0x0510003F#32 = .instr (.bltzal 8#5 0x003F#16) ∧
    decode 0x0411003F#32 = .instr (.bgezal 0#5 0x003F#16) := by decide
theorem test_decode_loads :
    decode 0x810A0000#32 = .instr (.lb 10#5 0x0000#16 8#5) ∧ decode 0x910A0000#32 = .instr (.lbu 10#5 0x0000#16 8#5) ∧
    decode 0x850A0000#32 = .instr (.lh 10#5 0x0000#16 8#5) ∧ decode 0x950A0000#32 = .instr (.lhu 10#5 0x0000#16 8#5) ∧
    decode 0x8D0A0000#32 = .instr (.lw 10#5 0x0000#16 8#5) ∧ decode 0x890A0000#32 = .instr (.lwl 10#5 0x0000#16 8#5) ∧
    decode 0x990A0000#32 = .instr (.lwr 10#5 0x0000#16 8#5) ∧
    decode 0xC10A0000#32 = .instr (.ll 10#5 0x0000#16 8#5) := by decide
theorem test_decode_stores :
    decode 0xA1090003#32 = .instr (.sb 9#5 0x0003#16 8#5) ∧ decode 0xA5090002#32 = .instr (.sh 9#5 0x0002#16 8#5) ∧
    decode 0xAD090000#32 = .instr (.sw 9#5 0x0000#16 8#5) ∧ decode 0xA9090000#32 = .instr (.swl 9#5 0x0000#16 8#5) ∧
    decode 0xB9090000#32 = .instr (.swr 9#5 0x0000#16 8#5) ∧ decode 0xE1090000#32 = .instr (.sc 9#5 0x0000#16 8#5) ∧
    decode 0x0000000F#32 = .instr (.sync 0#5) := by decide
theorem test_decode_system :
    decode 0x0000000C#32 = .instr (.syscall 0#20) ∧ decode 0x0000000D#32 = .instr (.brk 0#20) ∧
    decode 0x01090030#32 = .instr (.tge 8#5 9#5 0#10) ∧ decode 0x01090031#32 = .instr (.tgeu 8#5 9#5 0#10) ∧
    decode 0x01090032#32 = .instr (.tlt 8#5 9#5 0#10) ∧ decode 0x01090033#32 = .instr (.tltu 8#5 9#5 0#10) ∧
    decode 0x01090034#32 = .instr (.teq 8#5 9#5 0#10) ∧ decode 0x01090036#32 = .instr (.tne 8#5 9#5 0#10) ∧
    decode 0x0508FFFF#32 = .instr (.tgei 8#5 0xFFFF#16) ∧ decode 0x0509FFFF#32 = .instr (.tgeiu 8#5 0xFFFF#16) ∧
    decode 0x050A0000#32 = .instr (.tlti 8#5 0x0000#16) ∧ decode 0x050BFFFF#32 = .instr (.tltiu 8#5 0xFFFF#16) ∧
    decode 0x050CFFFF#32 = .instr (.teqi 8#5 0xFFFF#16) ∧
    decode 0x050E0005#32 = .instr (.tnei 8#5 0x0005#16) := by decide
theorem test_decode_cop0 :
    decode 0x400A7800#32 = .instr (.mfc0 10#5 15#5) ∧ decode 0x40886000#32 = .instr (.mtc0 8#5 12#5) ∧
    decode 0x42000010#32 = .instr .rfe := by decide
/-- R77: the primary opcodes 0x11 to 0x13, 0x31 to 0x33, 0x35 to 0x37, 0x39 to 0x3B, 0x3D to 0x3F in bits 31:26. -/
theorem test_decode_coprocessors :
    decode 0x44000000#32 = .instr .cop1 ∧ decode 0x48000000#32 = .instr .cop2 ∧ decode 0x4C000000#32 = .instr .cop3 ∧
    decode 0xC4000000#32 = .instr .lwc1 ∧ decode 0xC8000000#32 = .instr .lwc2 ∧ decode 0xCC000000#32 = .instr .lwc3 ∧
    decode 0xD4000000#32 = .instr .ldc1 ∧ decode 0xD8000000#32 = .instr .ldc2 ∧ decode 0xDC000000#32 = .instr .ldc3 ∧
    decode 0xE4000000#32 = .instr .swc1 ∧ decode 0xE8000000#32 = .instr .swc2 ∧ decode 0xEC000000#32 = .instr .swc3 ∧
    decode 0xF4000000#32 = .instr .sdc1 ∧ decode 0xF8000000#32 = .instr .sdc2 ∧
    decode 0xFC000000#32 = .instr .sdc3 := by decide
/-- R83: fields an instruction does not use are ignored. -/
theorem test_decode_ignores_unused_fields :
    decode 0x010957E0#32 = .instr (.add 10#5 8#5 9#5) ∧ decode 0x01E85043#32 = .instr (.sra 10#5 8#5 1#5) ∧
    decode 0x011FFFC8#32 = .instr (.jr 8#5) ∧ decode 0x191F03FF#32 = .instr (.blez 8#5 0x03FF#16) ∧
    decode 0x400A7FFF#32 = .instr (.mfc0 10#5 15#5) ∧ decode 0x43FFFFD0#32 = .instr .rfe := by decide
/-- Part 2.12. -/
theorem test_decode_reserved :
    decode 0x70000000#32 = .reserved ∧ decode 0x60000000#32 = .reserved ∧ decode 0x50000000#32 = .reserved ∧
    decode 0x04020000#32 = .reserved ∧ decode 0xBC000000#32 = .reserved ∧ decode 0x00000001#32 = .reserved ∧
    decode 0x40200000#32 = .reserved ∧ decode 0x42000001#32 = .reserved ∧ decode 0x42000018#32 = .reserved := by decide
theorem test_decode_bytes :
    decodeBytes [0x3C#8, 0x08#8, 0x00#8, 0x0A#8] = .instr (.lui 8#5 0x000A#16) ∧
    decodeBytes [0x3C#8, 0x08#8, 0x00#8] = .truncated := by decide
theorem test_decode_table_word :
    decodeTableWord 32 0x3C08000A = some (.lui 8#5 0x000A#16) ∧ decodeTableWord 32 0x00000001 = none := by decide

/-! ## One step of each instruction (Part 2) -/

/-! ### 2.1 Arithmetic and logic -/

theorem test_add :
    entered (vec 0x01095020#32 [(8#5, 0x7FFFFFFF#32), (9#5, 0x00000001#32)]) =
      some (12#5, 0x00001000#32, false, 0x00000000#32) ∧
    regAfter (vec 0x01095020#32 [(8#5, 0xFFFFFFFF#32), (9#5, 0x00000002#32)]) 10#5 = some 0x00000001#32 := by decide
theorem test_addu :
    regAfter (vec 0x01095021#32 [(8#5, 0x7FFFFFFF#32), (9#5, 0x00000001#32)]) 10#5 = some 0x80000000#32 := by decide
theorem test_sub :
    entered (vec 0x01095022#32 [(8#5, 0x00000000#32), (9#5, 0x80000000#32)]) =
      some (12#5, 0x00001000#32, false, 0x00000000#32) ∧
    regAfter (vec 0x01095022#32 [(8#5, 0xFFFFFFFF#32), (9#5, 0x7FFFFFFF#32)]) 10#5 = some 0x80000000#32 := by decide
theorem test_subu :
    regAfter (vec 0x01095023#32 [(8#5, 0x00000000#32), (9#5, 0x00000001#32)]) 10#5 = some 0xFFFFFFFF#32 := by decide
theorem test_and :
    regAfter (vec 0x01095024#32 [(8#5, 0xF0F0F0F0#32), (9#5, 0xFF00FF00#32)]) 10#5 = some 0xF000F000#32 := by decide
theorem test_or :
    regAfter (vec 0x01095025#32 [(8#5, 0xF0F0F0F0#32), (9#5, 0x0F0F0F0F#32)]) 10#5 = some 0xFFFFFFFF#32 := by decide
theorem test_xor : regAfter (vec 0x01085026#32 [(8#5, 0x12345678#32)]) 10#5 = some 0x00000000#32 := by decide
theorem test_nor : regAfter (vec 0x01005027#32 [(8#5, 0x00000000#32)]) 10#5 = some 0xFFFFFFFF#32 := by decide
theorem test_slt :
    regAfter (vec 0x0109502A#32 [(8#5, 0x80000000#32), (9#5, 0x7FFFFFFF#32)]) 10#5 = some 0x00000001#32 := by decide
theorem test_sltu :
    regAfter (vec 0x0109502B#32 [(8#5, 0x80000000#32), (9#5, 0x7FFFFFFF#32)]) 10#5 = some 0x00000000#32 := by decide
theorem test_addi :
    entered (vec 0x210AFFFF#32 [(8#5, 0x80000000#32)]) = some (12#5, 0x00001000#32, false, 0x00000000#32) ∧
    regAfter (vec 0x210A8000#32 [(8#5, 0x00000000#32)]) 10#5 = some 0xFFFF8000#32 := by decide
theorem test_addiu : regAfter (vec 0x250AFFFF#32 [(8#5, 0x00000000#32)]) 10#5 = some 0xFFFFFFFF#32 := by decide
theorem test_slti : regAfter (vec 0x290AFFFF#32 [(8#5, 0xFFFFFFFE#32)]) 10#5 = some 0x00000001#32 := by decide
theorem test_sltiu : regAfter (vec 0x2D0AFFFF#32 [(8#5, 0xFFFFFFFE#32)]) 10#5 = some 0x00000001#32 := by decide
theorem test_andi : regAfter (vec 0x310AFFFF#32 [(8#5, 0xFFFFFFFF#32)]) 10#5 = some 0x0000FFFF#32 := by decide
theorem test_ori : regAfter (vec 0x350A8000#32 [(8#5, 0x00000000#32)]) 10#5 = some 0x00008000#32 := by decide
theorem test_xori : regAfter (vec 0x390AFFFF#32 [(8#5, 0x0000FFFF#32)]) 10#5 = some 0x00000000#32 := by decide
theorem test_lui : regAfter (vec 0x3C0A8000#32 []) 10#5 = some 0x80000000#32 := by decide

/-! ### 2.2 Shifts -/

theorem test_sll : regAfter (vec 0x000857C0#32 [(8#5, 0x00000003#32)]) 10#5 = some 0x80000000#32 := by decide
theorem test_srl : regAfter (vec 0x000857C2#32 [(8#5, 0x80000000#32)]) 10#5 = some 0x00000001#32 := by decide
theorem test_sra : regAfter (vec 0x000857C3#32 [(8#5, 0x80000000#32)]) 10#5 = some 0xFFFFFFFF#32 := by decide
theorem test_sllv :
    regAfter (vec 0x01285004#32 [(8#5, 0x00000001#32), (9#5, 0x00000021#32)]) 10#5 = some 0x00000002#32 := by decide
theorem test_srlv :
    regAfter (vec 0x01285006#32 [(8#5, 0x80000000#32), (9#5, 0xFFFFFFFF#32)]) 10#5 = some 0x00000001#32 := by decide
theorem test_srav :
    regAfter (vec 0x01285007#32 [(8#5, 0x80000000#32), (9#5, 0x00000020#32)]) 10#5 = some 0x80000000#32 ∧
    regAfter (vec 0x01285007#32 [(8#5, 0x80000000#32), (9#5, 0x0000003F#32)]) 10#5 = some 0xFFFFFFFF#32 := by decide

/-! ### 2.3 Multiply and divide -/

theorem test_mult :
    (after (vec 0x01090018#32 [(8#5, 0xFFFFFFFF#32), (9#5, 0x00000003#32)])).map (·.hi) = some 0xFFFFFFFF#32 ∧
    (after (vec 0x01090018#32 [(8#5, 0xFFFFFFFF#32), (9#5, 0x00000003#32)])).map (·.lo) = some 0xFFFFFFFD#32 ∧
    (after (vec 0x01090018#32 [(8#5, 0x80000000#32), (9#5, 0xFFFFFFFF#32)])).map (·.hi) = some 0x00000000#32 ∧
    (after (vec 0x01090018#32 [(8#5, 0x80000000#32), (9#5, 0xFFFFFFFF#32)])).map (·.lo) =
      some 0x80000000#32 := by decide
theorem test_multu :
    (after (vec 0x01090019#32 [(8#5, 0xFFFFFFFF#32), (9#5, 0xFFFFFFFF#32)])).map (·.hi) = some 0xFFFFFFFE#32 ∧
    (after (vec 0x01090019#32 [(8#5, 0xFFFFFFFF#32), (9#5, 0xFFFFFFFF#32)])).map (·.lo) =
      some 0x00000001#32 := by decide
theorem test_div :
    (after (vec 0x0109001A#32 [(8#5, 0xFFFFFFF9#32), (9#5, 0x00000002#32)])).map (·.hi) = some 0xFFFFFFFF#32 ∧
    (after (vec 0x0109001A#32 [(8#5, 0xFFFFFFF9#32), (9#5, 0x00000002#32)])).map (·.lo) = some 0xFFFFFFFD#32 ∧
    (after (vec 0x0109001A#32 [(8#5, 0x00000007#32), (9#5, 0xFFFFFFFE#32)])).map (·.hi) = some 0x00000001#32 ∧
    (after (vec 0x0109001A#32 [(8#5, 0x00000007#32), (9#5, 0xFFFFFFFE#32)])).map (·.lo) =
      some 0xFFFFFFFD#32 := by decide
theorem test_divu :
    (after (vec 0x0109001B#32 [(8#5, 0xFFFFFFFF#32), (9#5, 0x00000010#32)])).map (·.hi) = some 0x0000000F#32 ∧
    (after (vec 0x0109001B#32 [(8#5, 0xFFFFFFFF#32), (9#5, 0x00000010#32)])).map (·.lo) = some 0x0FFFFFFF#32 ∧
    (after (vec 0x0109001B#32 [(8#5, 0x80000000#32), (9#5, 0xFFFFFFFF#32)])).map (·.hi) = some 0x80000000#32 ∧
    (after (vec 0x0109001B#32 [(8#5, 0x80000000#32), (9#5, 0xFFFFFFFF#32)])).map (·.lo) =
      some 0x00000000#32 := by decide

/-! ### 2.4 HI and LO moves -/

theorem test_mfhi : regAfter (putHi 0x12345678#32 (vec 0x00005010#32 [])) 10#5 = some 0x12345678#32 := by decide
theorem test_mflo : regAfter (putLo 0x9ABCDEF0#32 (vec 0x00005012#32 [])) 10#5 = some 0x9ABCDEF0#32 := by decide
theorem test_mthi : (after (vec 0x01000011#32 [(8#5, 0xCAFEBABE#32)])).map (·.hi) = some 0xCAFEBABE#32 := by decide
theorem test_mtlo : (after (vec 0x01000013#32 [(8#5, 0xCAFEBABE#32)])).map (·.lo) = some 0xCAFEBABE#32 := by decide

/-! ### 2.5 Branches -/

theorem test_beq :
    npcAfter (vec 0x11090003#32 [(8#5, 0x00000001#32), (9#5, 0x00000001#32)]) = some 0x00001010#32 ∧
    faultOf (step (inSlot (vec 0x10000003#32 []))) = some (.unpredictable .branchInDelaySlot) := by decide
theorem test_bne :
    npcAfter (vec 0x1509FFFE#32 [(8#5, 0x00000001#32), (9#5, 0x00000002#32)]) = some 0x00000FFC#32 := by decide
theorem test_blez :
    npcAfter (vec 0x190003FF#32 [(8#5, 0x80000000#32)]) = some 0x00002000#32 ∧
    npcAfter (vec 0x190003FF#32 [(8#5, 0x00000001#32)]) = some 0x00001008#32 := by decide
theorem test_bgtz :
    npcAfter (vec 0x1D0003FF#32 [(8#5, 0x00000000#32)]) = some 0x00001008#32 ∧
    npcAfter (vec 0x1D0003FF#32 [(8#5, 0x7FFFFFFF#32)]) = some 0x00002000#32 := by decide
theorem test_bltz :
    npcAfter (vec 0x05000000#32 [(8#5, 0xFFFFFFFF#32)]) = some 0x00001004#32 ∧
    npcAfter (vec 0x05000000#32 [(8#5, 0x00000000#32)]) = some 0x00001008#32 := by decide
theorem test_bgez : npcAfter (vec 0x05010000#32 [(8#5, 0x00000000#32)]) = some 0x00001004#32 := by decide
theorem test_bltzal :
    regAfter (vec 0x0510003F#32 [(8#5, 0x00000001#32)]) 31#5 = some 0x00001008#32 ∧
    regAfter (vec 0x0510003F#32 [(8#5, 0x80000000#32)]) 31#5 = some 0x00001008#32 ∧
    npcAfter (vec 0x0510003F#32 [(8#5, 0x80000000#32)]) = some 0x00001100#32 := by decide
theorem test_bgezal :
    regAfter (vec 0x0411003F#32 []) 31#5 = some 0x00001008#32 ∧
    npcAfter (vec 0x0411003F#32 []) = some 0x00001100#32 ∧
    faultOf (step (vec 0x07F1003F#32 [(31#5, 0x00000000#32)])) = some (.unpredictable .linkSourceClash) := by decide

/-! ### 2.6 Jumps -/

theorem test_j : npcAfter (vec 0x0BFFFFFF#32 []) = some 0x0FFFFFFC#32 := by decide
theorem test_jal :
    regAfter (vec 0x0C000800#32 []) 31#5 = some 0x00001008#32 ∧
    npcAfter (vec 0x0C000800#32 []) = some 0x00002000#32 := by decide
theorem test_jr :
    npcAfter (vec 0x01000008#32 [(8#5, 0x00002002#32)]) = some 0x00002002#32 ∧
    faultOf (step (inSlot (vec 0x03E00008#32 [(31#5, 0x00002000#32)]))) =
      some (.unpredictable .branchInDelaySlot) := by decide
theorem test_jalr :
    regAfter (vec 0x01004809#32 [(8#5, 0x00002000#32)]) 9#5 = some 0x00001008#32 ∧
    npcAfter (vec 0x01004809#32 [(8#5, 0x00002000#32)]) = some 0x00002000#32 ∧
    faultOf (step (vec 0x01004009#32 [(8#5, 0x00002000#32)])) = some (.unpredictable .jalrSameRegister) := by decide

/-! ### 2.7 Loads -/

theorem test_lb :
    regAfter (putWord 0x100 0x8001FF7F#32 (vec 0x810A0000#32 [(8#5, 0x00000100#32)])) 10#5 =
      some 0xFFFFFF80#32 := by decide
theorem test_lbu :
    regAfter (putWord 0x100 0x8001FF7F#32 (vec 0x910A0000#32 [(8#5, 0x00000100#32)])) 10#5 =
      some 0x00000080#32 := by decide
theorem test_lh :
    regAfter (putWord 0x100 0x8001FF7F#32 (vec 0x850A0000#32 [(8#5, 0x00000100#32)])) 10#5 = some 0xFFFF8001#32 ∧
    entered (putWord 0x100 0x8001FF7F#32 (vec 0x850A0001#32 [(8#5, 0x00000100#32)])) =
      some (4#5, 0x00001000#32, false, 0x00000101#32) := by decide
theorem test_lhu :
    regAfter (putWord 0x100 0x8001FF7F#32 (vec 0x950A0000#32 [(8#5, 0x00000100#32)])) 10#5 = some 0x00008001#32 ∧
    entered (putWord 0x100 0x8001FF7F#32 (vec 0x950A0003#32 [(8#5, 0x00000100#32)])) =
      some (4#5, 0x00001000#32, false, 0x00000103#32) := by decide
theorem test_lw :
    regAfter (putWord 0x100 0x8001FF7F#32 (vec 0x8D0AFF00#32 [(8#5, 0x00000200#32)])) 10#5 = some 0x8001FF7F#32 ∧
    entered (vec 0x8D0A0000#32 [(8#5, 0x00020000#32)]) = some (7#5, 0x00001000#32, false, 0x00000000#32) := by decide
theorem test_lwl :
    regAfter (m1122 (vec 0x890A0001#32 [(8#5, 0x00000100#32), (10#5, 0xAABBCCDD#32)])) 10#5 =
      some 0x223344DD#32 ∧
    regAfter (m1122 (vec 0x890A0003#32 [(8#5, 0x00000100#32), (10#5, 0xAABBCCDD#32)])) 10#5 =
      some 0x44BBCCDD#32 := by decide
theorem test_lwr :
    regAfter (m1122 (vec 0x990A0000#32 [(8#5, 0x00000100#32), (10#5, 0xAABBCCDD#32)])) 10#5 =
      some 0xAABBCC11#32 ∧
    regAfter (m1122 (vec 0x990A0002#32 [(8#5, 0x00000100#32), (10#5, 0xAABBCCDD#32)])) 10#5 =
      some 0xAA112233#32 := by decide

/-! ### 2.8 Stores -/

theorem test_sb :
    wordAfter (m1122 (vec 0xA1090003#32 [(8#5, 0x00000100#32), (9#5, 0xAABBCCDD#32)])) 0x100 =
      some 0x112233DD#32 ∧
    entered (vec 0xA1090000#32 [(8#5, 0x00008000#32), (9#5, 0xAABBCCDD#32)]) =
      some (7#5, 0x00001000#32, false, 0x00000000#32) := by decide
theorem test_sh :
    wordAfter (m1122 (vec 0xA5090002#32 [(8#5, 0x00000100#32), (9#5, 0xAABBCCDD#32)])) 0x100 =
      some 0x1122CCDD#32 ∧
    entered (m1122 (vec 0xA5090001#32 [(8#5, 0x00000100#32), (9#5, 0xAABBCCDD#32)])) =
      some (5#5, 0x00001000#32, false, 0x00000101#32) := by decide
theorem test_sw :
    wordAfter (m1122 (vec 0xAD090000#32 [(8#5, 0x00000100#32), (9#5, 0xAABBCCDD#32)])) 0x100 =
      some 0xAABBCCDD#32 ∧
    entered (vec 0xAD090000#32 [(8#5, 0x00010000#32), (9#5, 0xAABBCCDD#32)]) =
      some (7#5, 0x00001000#32, false, 0x00000000#32) := by decide
theorem test_swl :
    wordAfter (m1122 (vec 0xA9090001#32 [(8#5, 0x00000100#32), (9#5, 0xAABBCCDD#32)])) 0x100 =
      some 0x11AABBCC#32 ∧
    wordAfter (m1122 (vec 0xA9090002#32 [(8#5, 0x00000100#32), (9#5, 0xAABBCCDD#32)])) 0x100 =
      some 0x1122AABB#32 := by decide
theorem test_swr :
    wordAfter (m1122 (vec 0xB9090000#32 [(8#5, 0x00000100#32), (9#5, 0xAABBCCDD#32)])) 0x100 =
      some 0xDD223344#32 ∧
    wordAfter (m1122 (vec 0xB9090002#32 [(8#5, 0x00000100#32), (9#5, 0xAABBCCDD#32)])) 0x100 =
      some 0xBBCCDD44#32 := by decide

/-! ### 2.9 LL, SC, SYNC -/

theorem test_ll :
    regAfter (m1122 (vec 0xC10A0000#32 [(8#5, 0x00000100#32)])) 10#5 = some 0x11223344#32 ∧
    (after (m1122 (vec 0xC10A0000#32 [(8#5, 0x00000100#32)]))).map (·.llbit) = some true ∧
    (after (m1122 (vec 0xC10A0000#32 [(8#5, 0x00000100#32)]))).map (·.llAddr) =
      some 0x00000100#32 ∧
    entered (m1122 (vec 0xC10A0002#32 [(8#5, 0x00000100#32)])) =
      some (4#5, 0x00001000#32, false, 0x00000102#32) := by decide
/-- The start of the SC vectors, with the reservation of the LL vector. -/
def scStart : State := m1122 (vec 0xE1090000#32 [(8#5, 0x00000100#32), (9#5, 0x00000005#32)])
theorem test_sc :
    wordAfter (linked scStart) 0x100 = some 0x00000005#32 ∧ regAfter (linked scStart) 9#5 = some 0x00000001#32 ∧
    (after (linked scStart)).map (·.llbit) = some false ∧
    regAfter scStart 9#5 = some 0x00000000#32 ∧ wordAfter scStart 0x100 = some 0x11223344#32 := by decide
theorem test_sync : unchanged (vec 0x0000000F#32 []) = some true := by decide

/-! ### 2.10 System calls, breakpoints, traps -/

theorem test_syscall :
    entered (vec 0x0000000C#32 []) = some (8#5, 0x00001000#32, false, 0x00000000#32) ∧
    entered (inSlot (vec 0x0000000C#32 [])) = some (8#5, 0x00000FFC#32, true, 0x00000000#32) := by decide
theorem test_brk : entered (vec 0x0000000D#32 []) = some (9#5, 0x00001000#32, false, 0x00000000#32) := by decide
theorem test_teq :
    entered (vec 0x01090034#32 [(8#5, 0x00000003#32), (9#5, 0x00000003#32)]) =
      some (13#5, 0x00001000#32, false, 0x00000000#32) ∧
    unchanged (vec 0x01090034#32 [(8#5, 0x00000003#32), (9#5, 0x00000004#32)]) = some true := by decide
theorem test_tne :
    unchanged (vec 0x01090036#32 [(8#5, 0x00000003#32), (9#5, 0x00000003#32)]) = some true ∧
    entered (vec 0x01090036#32 [(8#5, 0x00000003#32), (9#5, 0x00000004#32)]) =
      some (13#5, 0x00001000#32, false, 0x00000000#32) := by decide
theorem test_tge : unchanged (vec 0x01090030#32 [(8#5, 0xFFFFFFFF#32), (9#5, 0x00000000#32)]) = some true := by decide
theorem test_tgeu :
    entered (vec 0x01090031#32 [(8#5, 0xFFFFFFFF#32), (9#5, 0x00000000#32)]) =
      some (13#5, 0x00001000#32, false, 0x00000000#32) := by decide
theorem test_tlt :
    entered (vec 0x01090032#32 [(8#5, 0xFFFFFFFF#32), (9#5, 0x00000000#32)]) =
      some (13#5, 0x00001000#32, false, 0x00000000#32) := by decide
theorem test_tltu :
    unchanged (vec 0x01090033#32 [(8#5, 0xFFFFFFFF#32), (9#5, 0x00000000#32)]) = some true := by decide
theorem test_tgei :
    entered (vec 0x0508FFFF#32 [(8#5, 0xFFFFFFFF#32)]) = some (13#5, 0x00001000#32, false, 0x00000000#32) := by decide
theorem test_tgeiu : unchanged (vec 0x0509FFFF#32 [(8#5, 0xFFFFFFFE#32)]) = some true := by decide
theorem test_tlti :
    entered (vec 0x050A0000#32 [(8#5, 0x80000000#32)]) = some (13#5, 0x00001000#32, false, 0x00000000#32) := by decide
theorem test_tltiu :
    entered (vec 0x050BFFFF#32 [(8#5, 0xFFFFFFFE#32)]) = some (13#5, 0x00001000#32, false, 0x00000000#32) := by decide
theorem test_teqi :
    entered (vec 0x050CFFFF#32 [(8#5, 0xFFFFFFFF#32)]) = some (13#5, 0x00001000#32, false, 0x00000000#32) := by decide
theorem test_tnei : unchanged (vec 0x050E0005#32 [(8#5, 0x00000005#32)]) = some true := by decide

/-! ### 2.11 CP0 moves, RFE -/

theorem test_mtc0 :
    (after (vec 0x40886000#32 [(8#5, 0xFFFFFFFF#32)])).map (·.status.toWord) = some 0xF000FF3F#32 ∧
    (after (vec 0x40886800#32 [(8#5, 0xFFFFFFFF#32)])).map (·.causeWord) = some 0x00000300#32 := by decide
theorem test_mfc0 :
    regAfter (putStatus 0x0000FF01#32 (vec 0x400A6000#32 [])) 10#5 = some 0x0000FF01#32 ∧
    faultOf (step (vec 0x400A4800#32 [])) = some (.unpredictable .unimplementedCp0) := by decide
theorem test_rfe :
    (after (putStatus 0x0000FF04#32 (vec 0x42000010#32 []))).map (·.status.toWord) = some 0x0000FF01#32 ∧
    (after (putStatus 0x0000FF3C#32 (vec 0x42000010#32 []))).map (·.status.toWord) = some 0x0000FF3F#32 := by decide

/-! ### Division by zero, the coprocessor groups, reserved words (2.3, 2.12) -/

/-- Whatever the free results are, the divisions by zero complete and do not trap. -/
theorem test_divide_by_zero :
    (after (vec 0x0109001A#32 [(8#5, 0x00000007#32)])).map (·.pc) = some 0x00001004#32 ∧
    (after (vec 0x0109001B#32 [(8#5, 0xFFFFFFFF#32)])).map (·.pc) = some 0x00001004#32 := by decide
/-- Cause after the word at 0x1000. -/
def causeAfter (w : Word) : Option Word := (after (vec w [])).map (·.causeWord)
theorem test_cop1_groups :
    causeAfter 0x44000000#32 = some 0x1000002C#32 ∧ causeAfter 0xC4000000#32 = some 0x1000002C#32 ∧
    causeAfter 0xD4000000#32 = some 0x1000002C#32 ∧ causeAfter 0xE4000000#32 = some 0x1000002C#32 ∧
    causeAfter 0xF4000000#32 = some 0x1000002C#32 := by decide
theorem test_cop2_groups :
    causeAfter 0x48000000#32 = some 0x2000002C#32 ∧ causeAfter 0xC8000000#32 = some 0x2000002C#32 ∧
    causeAfter 0xD8000000#32 = some 0x2000002C#32 ∧ causeAfter 0xE8000000#32 = some 0x2000002C#32 ∧
    causeAfter 0xF8000000#32 = some 0x2000002C#32 := by decide
theorem test_cop3_groups :
    causeAfter 0x4C000000#32 = some 0x3000002C#32 ∧ causeAfter 0xCC000000#32 = some 0x3000002C#32 ∧
    causeAfter 0xDC000000#32 = some 0x3000002C#32 ∧ causeAfter 0xEC000000#32 = some 0x3000002C#32 ∧
    causeAfter 0xFC000000#32 = some 0x3000002C#32 := by decide
theorem test_reserved_words :
    causeAfter 0x70000000#32 = some 0x00000028#32 ∧ causeAfter 0x42000018#32 = some 0x00000028#32 := by decide
theorem test_mfc0_unimplemented :
    faultOf (step (vec 0x400A4800#32 [])) = some (.unpredictable .unimplementedCp0) := by decide

/-! ### The first instruction after reset (S1) -/

theorem test_first_word_after_reset :
    regAfter (State.reset.withFetchWord 32 0x3C08000A) 8#5 = some 0x000A0000#32 := by decide
theorem test_reset_runs_the_zero_word : (after State.reset).map (·.pc) = some 0x00000004#32 := by decide

/-! ### Fetch faults, interrupts, the double fault (2.13) -/

def atPc (pc : Word) (s : State) : State := { s with pc := pc, npc := pc + 4 }
/-- Status = 0x401, INT[0] = 1. -/
def interrupted (s : State) : State := putStatus 0x00000401#32 { s with int := 1#6 }

theorem test_fetch_misaligned :
    entered (atPc 0x1002#32 (vec 0#32 [])) = some (4#5, 0x00001002#32, false, 0x00001002#32) := by decide
theorem test_fetch_unmapped : entered (atPc 0x8000#32 (vec 0#32 [])) = some (6#5, 0x00008000#32, false, 0#32) := by decide
theorem test_interrupt_taken :
    entered (interrupted (vec 0#32 [])) = some (0#5, 0x00001000#32, false, 0#32) ∧
    (after (interrupted (vec 0#32 []))).map (·.causeWord) = some 0x00000400#32 ∧
    (after (interrupted (vec 0#32 []))).map (·.status.toWord) = some 0x00000404#32 := by decide
theorem test_interrupt_masked :
    (after (putStatus 0x00000400#32 (interrupted (vec 0#32 [])))).map (·.pc) = some 0x00001004#32 := by decide
theorem test_interrupt_in_slot :
    entered (inSlot (interrupted (vec 0#32 []))) = some (0#5, 0x00000FFC#32, true, 0#32) := by decide
theorem test_interrupt_beats_fetch_fault :
    entered (interrupted (atPc 0x1002#32 (vec 0#32 []))) = some (0#5, 0x00001002#32, false, 0#32) := by decide
/-- EXC_VECTOR at the unmapped 0x8000. -/
def badVector (s : State) : State := { s with par := { s.par with excVector := 0x8000#32 } }
theorem test_double_fault :
    (after (badVector (vec 0x0000000C#32 []))).map (·.pc) = some 0x00008000#32 ∧
    faultOf (step (atPc 0x8000#32 (badVector (vec 0#32 [])))) = some .doubleFault ∧
    (atPc 0x8000#32 (badVector (vec 0#32 []))).afterStep.run = .halted .doubleFault := by decide

/-! ### ROM, devices (S8, R153), stale code (P7) -/

/-- A ROM of 0x800 bytes behind the window at 0x10000, its last word 0x01020304. -/
def romState (w : Word) (t0 : Word) : State :=
  { vec w [(8#5, t0)] with rom := { cells := storeValue [] 0x7FC .word 0x01020304#32, size := 0x800 } }
theorem test_rom_bound :
    regAfter (romState 0x8D0A0000#32 0x000107FC#32) 10#5 = some 0x01020304#32 ∧
    entered (romState 0x8D0A0000#32 0x00010800#32) = some (7#5, 0x00001000#32, false, 0#32) ∧
    regAfter (romState 0x850A0000#32 0x000107FE#32) 10#5 = some 0x00000304#32 ∧
    entered (romState 0x810A0000#32 0x00010800#32) = some (7#5, 0x00001000#32, false, 0#32) := by decide

/-- A whole register, written by any access. -/
def wholeReg (a : Word) : RegField where
  addr := a
  access := none
  lsb := 0
  width := 32
/-- Every write of a register. -/
def anyWrite (a : Word) : RegTrigger where
  field := { wholeReg a with width := 0 }
  value := 0
/-- A device at 0x20000 with the coprocessor's registers from 0x20010 on (start; status with the bits 1 and 0; main address,
local address, blocks of 8 bytes, a start in each direction; interrupt enable, acknowledge), the local-memory window at
0x21000, 0x40 bytes of local memory, and one register of 8 bits. -/
def devices (s : State) : State :=
  { s with
    par := { s.par with
      regionMap :=
        { name := "dev", base := 0x00020000#32, size := 0x100, kind := .device } ::
          { name := "local", base := 0x00021000#32, size := 0x40, kind := .coprocLocal } :: s.par.regionMap
      vcopRegs :=
        { start := some (anyWrite 0x00020010#32)
          status := some { addr := 0x00020014#32, doneBit := 1, failBit := 0 }
          dma := some
            { main := wholeReg 0x00020018#32, loc := wholeReg 0x0002001C#32, count := some (wholeReg 0x00020020#32),
              blockSize := 8
              starts := [(anyWrite 0x00020024#32, .mainToLocal), (anyWrite 0x00020028#32, .localToMain)] }
          irqEnable := some (wholeReg 0x0002002C#32)
          acknowledge := some (anyWrite 0x00020030#32) }
      vcopIrqLine := some 3 }
    vcop := { s.vcop with localSize := 0x40, regs := [0], regWidth := 8 } }
theorem test_partial_device_store :
    faultOf (step (devices (vec 0xA9090001#32 [(8#5, 0x00020000#32)]))) =
      some (.unpredictable .partialDeviceStore) := by decide
/-- SMC_MODE = Refuse with the word at PC in W. -/
def refuse (s : State) : State := { s with smcW := [s.pc.toNat], par := { s.par with smcMode := .refuse } }
theorem test_stale_code_refused :
    faultOf (step (refuse (vec 0#32 []))) = some (.unpredictable .staleCode) ∧
    (after (vec 0#32 [])).map (·.pc) = some 0x00001004#32 := by decide
theorem test_store_enters_w :
    (after { refuse (vec 0xAD090000#32 [(8#5, 0x00000100#32)]) with smcW := [] }).map (·.smcW) = some [0x100] := by decide

/-! ### DMA and a run (S7, R193) -/

theorem test_dma_out_of_range :
    (devices (vec 0#32 [])).dma .mainToLocal 0x3FF0 0 0x20 =
      { devices (vec 0#32 []) with vcop := { (devices (vec 0#32 [])).vcop with dmaError := true } } ∧
    ((devices (vec 0#32 [])).dma .localToMain 0x3FF0 0 0x20).vcop.dmaError = true ∧
    ((devices (vec 0#32 [])).dma .mainToLocal 0x100 0 0x41).vcop.dmaError = true ∧
    ((devices (vec 0#32 [])).dma .localToMain 0x10000 0 4).vcop.dmaError = true := by decide
theorem test_dma_copies :
    (devices (m1122 (vec 0#32 []))).dma .mainToLocal 0x100 0 0x20 =
      { devices (m1122 (vec 0#32 [])) with
        draws := 1
        vcop := { (devices (m1122 (vec 0#32 []))).vcop with
          localMem := [(0, 0x11#8), (1, 0x22#8), (2, 0x33#8), (3, 0x44#8)] } } := by decide
/-- The store to the start register, answered without a fault and with the interrupt enabled. -/
def startCall : DevCall where
  addr := 0x00020010#32
  width := .word
  write := some 1#32
def startReply : DevReply where
  fault := false
  value := 0#32
  actions := [.dma .mainToLocal 0x100 0 4, .registers [7] 2]
  irqEnable := true
  int := 0#6
/-- The interrupt is enabled in its register. -/
def enabled (s : State) : State := { s with vcop := { s.vcop with irqEnabled := true } }
theorem test_run_completes :
    ((enabled (devices (m1122 (vec 0#32 [])))).afterDeviceCall startCall startReply).vcop =
      { (enabled (devices (m1122 (vec 0#32 [])))).vcop with
        regs := [7], microPc := 2, localMem := [(0, 0x11#8), (1, 0x22#8), (2, 0x33#8), (3, 0x44#8)], done := true,
        irq := true } ∧
    ((enabled (devices (m1122 (vec 0#32 [])))).afterDeviceCall startCall startReply).intLevels = 8#6 ∧
    ((devices (m1122 (vec 0#32 []))).afterDeviceCall startCall startReply).intLevels = 0#6 := by decide
/-- Only a run changes the coprocessor (R195): the same answer to a write of another register does nothing to it. -/
theorem test_idle_is_unchanged :
    ((devices (m1122 (vec 0#32 []))).afterDeviceCall { startCall with addr := 0x00020000#32 }
      { startReply with actions := [.dma .mainToLocal 0x100 0 4, .registers [7] 2, .localByte 0 1#8] }).vcop =
      (devices (vec 0#32 [])).vcop := by decide
/-- A write of a register, answered without a fault and without an action. -/
def write (a v : Word) (s : State) : State :=
  s.afterDeviceCall { addr := a, width := .word, write := some v } { startReply with actions := [] }
/-- One block of 8 bytes through the DMA registers; then a main address outside every region (R194). -/
theorem test_dma_registers :
    (write 0x00020024#32 1#32 (write 0x00020020#32 1#32 (write 0x00020018#32 0x100#32
      (devices (m1122 (vec 0#32 [])))))).vcop.localMem = [(0, 0x11#8), (1, 0x22#8), (2, 0x33#8), (3, 0x44#8)] ∧
    (write 0x00020028#32 1#32 (write 0x00020020#32 1#32 (write 0x00020018#32 0x9000#32
      (devices (vec 0#32 []))))).vcop.dmaError = true := by decide
/-- The completion bit 1 and the failure bit 0 (R193, R194), whatever the device answers there. -/
theorem test_status_register :
    { devices (vec 0#32 []) with vcop := { (devices (vec 0#32 [])).vcop with done := true } }.replyValue
      { addr := 0x00020014#32, width := .word, write := none } { startReply with value := 0xF1#32 } = 0xF2#32 ∧
    { devices (vec 0#32 []) with vcop := { (devices (vec 0#32 [])).vcop with dmaError := true } }.replyValue
      { addr := 0x00020014#32, width := .word, write := none } { startReply with value := 0xF2#32 } = 0xF1#32 := by decide
/-- A byte stored through the window at 0x21000 + 5 is read back in its word (R42, R44). -/
theorem test_window :
    (write 0x00021004#32 0x11223344#32 (devices (vec 0#32 []))).replyValue
      { addr := 0x00021005#32, width := .byte, write := none } startReply = 0x22#32 ∧
    (write 0x00021004#32 0x11223344#32 (devices (vec 0#32 []))).vcop.localMem =
      [(4, 0x11#8), (5, 0x22#8), (6, 0x33#8), (7, 0x44#8)] := by decide
/-- A DMA into the reserved word of the window is foreign (R155); one beside it is not. -/
theorem test_foreign_in_window :
    (State.dma { devices (vec 0#32 []) with llbit := true, llAddr := 0x00021008#32 } .mainToLocal 0x100 0xB 1).llForeign =
      true ∧
    (State.dma { devices (vec 0#32 []) with llbit := true, llAddr := 0x00021008#32 } .mainToLocal 0x100 0xC 1).llForeign =
      false := by decide
theorem test_acknowledge :
    (write 0x00020030#32 1#32 { devices (vec 0#32 []) with vcop := { (devices (vec 0#32 [])).vcop with irq := true } }).vcop.irq
      = false := by decide

/-! ### The adapter (S2), images (S8), maps, the assembler (R85, R86) -/

theorem test_adapter_masks :
    Adapter.write .littleEndian [] 0x100 .byte 0xA5#32 = [(0x103, 0xA5#8)] ∧
    Adapter.write .bigEndian [] 0x100 .byte 0xA5#32 = [(0x100, 0xA5#8)] ∧
    Adapter.write .littleEndian [] 0x102 .half 0x1234#32 = [(0x100, 0x34#8), (0x101, 0x12#8)] ∧
    Adapter.write .littleEndian [] 0x100 .word 0x11223344#32 =
      [(0x100, 0x44#8), (0x101, 0x33#8), (0x102, 0x22#8), (0x103, 0x11#8)] ∧
    Adapter.read .littleEndian (Adapter.write .littleEndian [] 0x100 .word 0x11223344#32) 0x102 .half = 0x3344#32 := by
  decide
theorem test_swap_word :
    Adapter.swapWord 0x11223344#32 = 0x44332211#32 ∧ Adapter.swapWord 0x000000FF#32 = 0xFF000000#32 := by decide
/-- Two formats: the canonical order under `80`, words swapped under `40`. -/
def formats (p : Params) : Params :=
  { p with
    romMinSize := 4
    romSignatures :=
      [{ signature := [0x80#8], order0 := 0, order1 := 1, order2 := 2, order3 := 3 },
       { signature := [0x40#8], order0 := 3, order1 := 2, order2 := 1, order3 := 0 }] }
theorem test_images :
    readImage (formats Params.default) [0x80#8, 0x37#8] = none ∧
    readImage (formats Params.default) [0x12#8, 0x37#8, 0x12#8, 0x40#8] = none ∧
    readImage (formats Params.default) [0x40#8, 0x12#8, 0x37#8, 0x80#8] =
      some { cells := [(0, 0x80#8), (1, 0x37#8), (2, 0x12#8), (3, 0x40#8)], size := 4 } := by decide
theorem test_map_region :
    mapOk Params.default.regionMap = true ∧
    (match mapRegion Params.default.regionMap { name := "x", base := 0x3FFC#32, size := 8, kind := .ram } with
      | .error e => decide (e = .overlap)
      | .ok _ => false) = true ∧
    (match mapRegion Params.default.regionMap { name := "x", base := 0x4002#32, size := 8, kind := .ram } with
      | .error e => decide (e = .badDescriptor)
      | .ok _ => false) = true := by decide
theorem test_pseudo :
    Pseudo.nop.expand.map encode = [0x00000000#32] ∧
    (Pseudo.li 8#5 0x00010000#32).expand = [.lui 8#5 1#16, .ori 8#5 8#5 0#16] ∧
    (Pseudo.li 8#5 0xFFFFFFFF#32).expand = [.addiu 8#5 0#5 0xFFFF#16] ∧
    encode (.beq 0#5 0#5 (branchImm 0x18#32 0x18#32)) = 0x1000FFFF#32 ∧ jumpIndex 0x20#32 = 8#26 := by decide
theorem test_final_state :
    State.isFinal { vec 0#32 [] with par := { Params.default with haltPc := 0x1000#32 } } = true ∧
    State.isFinal (vec 0#32 []) = false ∧ (vec 0#32 []).hostHalt.isFinal = true := by decide

/-! ## Witnesses: for each obligation with hypotheses, states and operands that meet them, for each clause, at the ends of the
ranges -/

/-- The last words of the RAM and of the ROM window as PC. -/
theorem witness_StepRunsDecodedInstruction :
    (∃ (s : State) (i : Instr) (r : Region), s.run = .running ∧ s.interruptPending = false ∧ s.pc.toNat % 4 = 0 ∧
      s.fetchIsStale = false ∧ resolve s.par.regionMap s.pc = some r ∧ r.kind = .ram ∧ s.pc = 0x3FFC#32 ∧
      decodeBytes (Memory.readBytes s.mem s.pc.toNat 4) = .instr i) ∧
    ∃ (s : State) (i : Instr) (r : Region), s.run = .running ∧ s.interruptPending = false ∧ s.pc.toNat % 4 = 0 ∧
      s.fetchIsStale = false ∧ resolve s.par.regionMap s.pc = some r ∧ r.kind = .rom ∧
      offsetIn r s.pc + 4 = s.rom.size ∧
      decodeBytes (Memory.readBytes s.rom.cells (offsetIn r s.pc) 4) = .instr i :=
  ⟨⟨(atPc 0x3FFC#32 State.reset).withFetchWord 32 0x01095020, .add 10#5 8#5 9#5,
      { name := "ram", base := 0x00000000#32, size := 0x4000, kind := .ram }, by decide⟩,
    (atPc 0x00010FFC#32 State.reset).withFetchWord 32 0x01095020, .add 10#5 8#5 9#5,
      { name := "rom", base := 0x00010000#32, size := 0x1000, kind := .rom }, by decide⟩

/-- An interrupt pending; none pending and a word fetched; none pending and a fetch that raises. -/
theorem witness_InterruptSampling :
    (∃ s : State, s.run = .running ∧ s.status.toWord.getLsbD 0 = true ∧
      (s.causeWord.extractLsb' 8 8 &&& s.status.toWord.extractLsb' 8 8) ≠ 0#8) ∧
    (∃ (s : State) (w : Word) (t : State), s.run = .running ∧ s.status.toWord.getLsbD 0 = false ∧ fetch s = .word w t) ∧
    ∃ (s : State) (e : Exn) (t : State), s.run = .running ∧ s.status.toWord.getLsbD 0 = false ∧ fetch s = .error e t :=
  ⟨⟨interrupted (vec 0#32 []), by decide⟩, ⟨vec 0#32 [], 0#32, vec 0#32 [], by decide⟩,
    atPc 0x1002#32 (vec 0#32 []), .adEL 0x1002#32, atPc 0x1002#32 (vec 0#32 []), by decide⟩

/-- The hypotheses of the fetch at an address, and the kind of its region. -/
def fetchesFrom (s : State) (k : Option RegionKind) : Bool :=
  decide (s.run = .running) && !s.interruptPending && decide (s.pc.toNat % 4 = 0) && !s.fetchIsStale &&
    decide ((resolve s.par.regionMap s.pc).map Region.kind = k)
theorem witness_FetchRule :
    (∃ s : State, s.run = .running ∧ s.interruptPending = false ∧ s.pc.toNat % 4 = 1) ∧
    (∃ s : State, s.run = .running ∧ s.interruptPending = false ∧ s.pc.toNat % 4 = 3) ∧
    (∃ s : State, fetchesFrom s none = true ∧ s.pc = 0x4000#32) ∧
    (∃ s : State, fetchesFrom s (some .rom) = true ∧ s.pc = 0x00010000#32 + BitVec.ofNat 32 s.rom.size) ∧
    (∃ s : State, fetchesFrom s (some .rom) = true ∧ s.pc + 4 = 0x00010000#32 + BitVec.ofNat 32 s.rom.size) ∧
    (∃ s : State, fetchesFrom s (some .ram) = true ∧ s.pc = 0x3FFC#32) ∧
    (∃ s : State, fetchesFrom s (some .device) = true) ∧ ∃ s : State, fetchesFrom s (some .coprocLocal) = true :=
  ⟨⟨atPc 0x1001#32 (vec 0#32 []), by decide⟩, ⟨atPc 0x1003#32 (vec 0#32 []), by decide⟩,
    ⟨atPc 0x4000#32 (vec 0#32 []), by decide⟩, ⟨atPc 0x00010800#32 (romState 0#32 0#32), by decide⟩,
    ⟨atPc 0x000107FC#32 (romState 0#32 0#32), by decide⟩, ⟨atPc 0x3FFC#32 (vec 0#32 []), by decide⟩,
    ⟨devices (atPc 0x00020000#32 (vec 0#32 [])), by decide⟩, devices (atPc 0x0002103C#32 (vec 0#32 [])), by decide⟩

theorem witness_DoubleFault :
    (∃ (s t : State) (e : Exn), s.run = .running ∧ s.interruptPending = false ∧ fetch s = .error e t ∧
      s.pc = s.par.excVector) ∧
    ∃ (s t : State) (e : Exn), s.run = .running ∧ s.interruptPending = false ∧ fetch s = .error e t ∧
      s.pc ≠ s.par.excVector :=
  ⟨⟨atPc 0x8000#32 (badVector (vec 0#32 [])), atPc 0x8000#32 (badVector (vec 0#32 [])), .ibe, by decide⟩,
    atPc 0x8000#32 (vec 0#32 []), atPc 0x8000#32 (vec 0#32 []), .ibe, by decide⟩

theorem witness_HaltAndResetRequests :
    (∃ (s : State) (r : HaltReason), s.run = .halted r) ∧ (∃ s t : State, step s = .next t) ∧
    (∃ s : State, s.run = .running) ∧ ∃ r : Fin 32, r ≠ 0 ∧ r = 31 :=
  ⟨⟨(vec 0#32 []).hostHalt, .hostHalt, by decide⟩, ⟨vec 0x0000000F#32 [], _, rfl⟩, ⟨vec 0#32 [], by decide⟩, 31,
    by decide⟩

/-- An instruction that goes on, a taken transfer, one that raises. -/
theorem witness_ExecAdvancesOrEntersPrecisely :
    (∃ t, exec (.sync 0#5) (vec 0#32 []) = .next t) ∧ (∃ t, exec (.j 0#26) (vec 0#32 []) = .next t) ∧
    ∃ t, exec (.syscall 0#20) (vec 0#32 []) = .next t := ⟨⟨_, rfl⟩, ⟨_, rfl⟩, _, rfl⟩

/-- PC = 0x1000 with nothing in memory. -/
def emptyState : State := atPc 0x1000#32 State.reset
theorem inv_emptyState : Inv emptyState := by constructor <;> decide

/-- A transfer taken, followed by an instruction that goes on; one not taken, followed by one that raises. -/
theorem witness_DelaySlotLaw :
    (∃ (s t u : State) (i j : Instr), Inv s ∧ isControlTransfer i = true ∧ isControlTransfer j = false ∧
      exec i s = .next t ∧ exec j t = .next u ∧ t.taken = true) ∧
    ∃ (s t u : State) (i j : Instr), Inv s ∧ isControlTransfer i = true ∧ isControlTransfer j = false ∧
      exec i s = .next t ∧ exec j t = .next u ∧ t.taken = false :=
  ⟨⟨_, _, _, .j 0#26, .sync 0#5, inv_emptyState, rfl, rfl, rfl, rfl, rfl⟩,
    _, _, _, .bne 0#5 0#5 0#16, .syscall 0#20, inv_emptyState, rfl, rfl, rfl, rfl, rfl⟩

theorem witness_DelaySlotReporting :
    (∃ (s t : State) (i : Instr), Inv s ∧ isControlTransfer i = true ∧ exec i s = .next t) ∧
    ∃ s : State, s.delay = false := ⟨⟨_, _, .jal 0#26, inv_emptyState, rfl, rfl⟩, vec 0#32 [], rfl⟩

/-- Registers 1 and 31; an instruction that names register 0 as its destination. -/
theorem witness_RegisterZero :
    (1#5 : RegIdx) ≠ 0#5 ∧ (31#5 : RegIdx) ≠ 0#5 ∧
    ∃ t, exec (.addu 0#5 8#5 9#5) (vec 0#32 [(8#5, 5#32), (9#5, 6#32)]) = .next t := ⟨by decide, by decide, _, rfl⟩

theorem witness_ResetState : ∃ r : Fin 32, r ≠ 0 ∧ r = 31 := ⟨31, by decide⟩

theorem witness_EncodeOfDecode : ∃ (w : Word) (i : Instr), decode w = .instr i ∧ encode i ≠ w :=
  ⟨0x010957E0#32, .add 10#5 8#5 9#5, by decide⟩

theorem witness_DecodeFollowsOpcodeTable :
    ∃ (w : Word) (i : Instr), decode w = .instr i ∧ w &&& (tableRow i).2 = (tableRow i).1 :=
  ⟨0x43FFFFD0#32, .rfe, by decide⟩

theorem witness_ReservedWordRaisesRi :
    ∃ (w : Word) (s t : State), decode w = .reserved ∧ s.run = .running ∧ s.interruptPending = false ∧
      fetch s = .word w t := ⟨0xBC000000#32, vec 0xBC000000#32 [], vec 0xBC000000#32 [], by decide⟩

/-- The largest and smallest results that fit, and the first ones that do not: for ADD, SUB and ADDI. -/
theorem witness_OverflowTraps :
    (0x7FFFFFFE#32).toInt + (1#32).toInt = 2 ^ 31 - 1 ∧ (0x7FFFFFFF#32).toInt + (1#32).toInt = 2 ^ 31 ∧
    (0x80000001#32).toInt - (1#32).toInt = -2 ^ 31 ∧ (0x80000000#32).toInt - (1#32).toInt = -2 ^ 31 - 1 ∧
    (0x80008000#32).toInt + (0x8000#16).toInt = -2 ^ 31 ∧ (0x80007FFF#32).toInt + (0x8000#16).toInt = -2 ^ 31 - 1 := by
  decide

/-- A zero divisor; an ordinary one; the wrapping quotient. -/
theorem witness_DivideResults :
    (∃ b : Word, b = 0#32) ∧ (∃ a b : Word, b ≠ 0#32 ∧ ¬ (a = 0x80000000#32 ∧ b = 0xFFFFFFFF#32)) ∧
    ∃ a b : Word, b ≠ 0#32 ∧ a = 0x80000000#32 ∧ b = 0xFFFFFFFF#32 :=
  ⟨⟨0#32, rfl⟩, ⟨0x80000000#32, 1#32, by decide⟩, 0x80000000#32, 0xFFFFFFFF#32, by decide⟩

theorem witness_JumpsAndLinks :
    (vec 0#32 []).delay = false ∧ (4#5 : RegIdx) ≠ 0#5 ∧ (30#5 : RegIdx) ≠ 31#5 ∧ (0#5 : RegIdx) ≠ 31#5 := by decide

theorem witness_ConditionalBranches : (vec 0#32 []).delay = false := by decide

theorem witness_TransferInDelaySlotStops :
    isControlTransfer (.jr 31#5) = true ∧ (inSlot (vec 0#32 [])).delay = true ∧
    ∃ k, step (inSlot (vec 0x03E00008#32 [])) = .fault (.unpredictable k) := ⟨by decide, by decide, _, rfl⟩

/-- The first and the last word of the address space. -/
theorem witness_MemoryIsBigEndian :
    (∃ (m : ByteStore) (a : Nat), Memory.wf m = true ∧ a + 4 ≤ 2 ^ 32 ∧ a = 0) ∧
    (∃ (m : ByteStore) (a : Nat), Memory.wf m = true ∧ a + 4 ≤ 2 ^ 32 ∧ a = 0xFFFFFFFC) ∧
    ∃ w : Width, bytesOf w - 1 < bytesOf w ∧ w = .word :=
  ⟨⟨[(1, 5#8)], 0, by decide⟩, ⟨[(0xFFFFFFFF, 5#8)], 0xFFFFFFFC, by decide⟩, .word, by decide⟩

/-- Addresses outside every region, in ROM inside and beyond the image, in RAM, and in each kind of dispatch region. -/
theorem witness_MemReadRule :
    resolve (romState 0#32 0#32).par.regionMap 0x4000#32 = none ∧
    (∃ r, resolve (romState 0#32 0#32).par.regionMap 0x000107FD#32 = some r ∧ r.kind = .rom ∧
      offsetIn r 0x000107FD#32 + bytesOf .word > (romState 0#32 0#32).rom.size) ∧
    (∃ r, resolve (romState 0#32 0#32).par.regionMap 0x000107FC#32 = some r ∧ r.kind = .rom ∧
      offsetIn r 0x000107FC#32 + bytesOf .word ≤ (romState 0#32 0#32).rom.size) ∧
    (∃ r, resolve (vec 0#32 []).par.regionMap 0x3FFC#32 = some r ∧ r.kind = .ram) ∧
    (∃ r, resolve (devices (vec 0#32 [])).par.regionMap 0x000200FC#32 = some r ∧ r.kind = .device) ∧
    ∃ r, resolve (devices (vec 0#32 [])).par.regionMap 0x00021000#32 = some r ∧ r.kind = .coprocLocal := by
  refine ⟨by decide, ⟨_, rfl, ?_⟩, ⟨_, rfl, ?_⟩, ⟨_, rfl, ?_⟩, ⟨_, rfl, ?_⟩, _, rfl, ?_⟩ <;> decide

/-- As for reads, and a write that is a bus error. -/
theorem witness_MemWriteRule :
    (∃ t, memWrite (vec 0#32 []) 0x4000#32 .byte 1#32 = .busError t) ∧
    (∃ t, memWrite (vec 0#32 []) 0x00010000#32 .word 1#32 = .busError t) ∧
    (∃ t, memWrite (vec 0#32 []) 0x3FFC#32 .word 1#32 = .ok 0#32 t) ∧
    (∃ r, resolve (devices (vec 0#32 [])).par.regionMap 0x000200FC#32 = some r ∧ r.kind = .device) ∧
    ∃ r, resolve (devices (vec 0#32 [])).par.regionMap 0x0002103C#32 = some r ∧ r.kind = .coprocLocal := by
  refine ⟨⟨_, rfl⟩, ⟨_, rfl⟩, ⟨_, rfl⟩, ⟨_, rfl, ?_⟩, _, rfl, ?_⟩ <;> decide

/-- A region next to the RAM; one with a base off a word; one sharing the last word of the RAM; the RAM's last address; the
last byte of an aligned word. -/
theorem witness_RegionsResolveUniquely :
    mapOk Params.default.regionMap = true ∧
    (∃ m', mapRegion Params.default.regionMap { name := "x", base := 0x4000#32, size := 4, kind := .ram } = .ok m') ∧
    ¬ ((0x4002#32).toNat % 4 = 0) ∧
    (∃ r q : Region, regionOk r = true ∧ q ∈ Params.default.regionMap ∧ regionContains r 0x3FFF = true ∧
      regionContains q 0x3FFF = true) ∧
    (∃ r, resolve Params.default.regionMap 0x3FFF#32 = some r) ∧
    (0x3FFC#32).toNat % bytesOf .word = 0 ∧ 3 < bytesOf .word :=
  ⟨by decide, ⟨_, rfl⟩, by decide,
    ⟨{ name := "x", base := 0x3FFC#32, size := 8, kind := .ram },
      { name := "ram", base := 0x00000000#32, size := 0x4000, kind := .ram }, by decide⟩, ⟨_, rfl⟩, by decide, by decide⟩

/-- The effective address of `0(t0)` in a state. -/
def ea0 (s : State) : Word := s.reg 8#5 + BitVec.signExtend 32 0#16
/-- Aligned at the last word, half and byte of the RAM; and each misalignment. -/
theorem witness_AlignedLoads :
    (∃ s r, (ea0 s).toNat % bytesOf .word = 0 ∧ resolve s.par.regionMap (ea0 s) = some r ∧ r.kind = .ram) ∧
    (∃ s r, (ea0 s).toNat % bytesOf .half = 0 ∧ resolve s.par.regionMap (ea0 s) = some r ∧ r.kind = .ram) ∧
    (∃ s r, (ea0 s).toNat % bytesOf .byte = 0 ∧ resolve s.par.regionMap (ea0 s) = some r ∧ r.kind = .ram) ∧
    (∃ s, (ea0 s).toNat % 2 = 1 ∧ (ea0 s).toNat % 4 = 3) ∧ ∃ s, (ea0 s).toNat % 4 = 2 := by
  refine ⟨⟨vec 0#32 [(8#5, 0x3FFC#32)], _, ?_, rfl, rfl⟩, ⟨vec 0#32 [(8#5, 0x3FFE#32)], _, ?_, rfl, rfl⟩,
    ⟨vec 0#32 [(8#5, 0x3FFF#32)], _, ?_, rfl, rfl⟩, ⟨vec 0#32 [(8#5, 0x3FFF#32)], ?_⟩, vec 0#32 [(8#5, 0x3FFE#32)], ?_⟩ <;>
  decide
theorem witness_AlignedStores :
    (∃ s r, (ea0 s).toNat % bytesOf .word = 0 ∧ resolve s.par.regionMap (ea0 s) = some r ∧ r.kind = .ram) ∧
    ∃ s, (ea0 s).toNat % 2 = 1 ∧ (ea0 s).toNat % 4 = 1 := by
  refine ⟨⟨vec 0#32 [(8#5, 0#32)], _, ?_, rfl, rfl⟩, vec 0#32 [(8#5, 0x3FFD#32)], ?_⟩ <;> decide

/-- Each value of ea[1:0] in the last word of the RAM. -/
theorem witness_UnalignedLoads :
    ∃ r, resolve (vec 0#32 []).par.regionMap (BitVec.ofNat 32 (0x3FFF / 4 * 4)) = some r ∧ r.kind = .ram ∧
      [0x3FFC, 0x3FFD, 0x3FFE, 0x3FFF].map (· % 4) = [0, 1, 2, 3] := ⟨_, rfl, by decide⟩
/-- The cases of a partial store: no region, ROM, a device, the coprocessor's window, RAM with canonical memory. -/
theorem witness_UnalignedStores :
    resolve (vec 0#32 []).par.regionMap 0x4000#32 = none ∧
    (∃ r, resolve (vec 0#32 []).par.regionMap 0x00010000#32 = some r ∧ r.kind = .rom) ∧
    (∃ r, resolve (devices (vec 0#32 [])).par.regionMap 0x00020000#32 = some r ∧ r.kind = .device) ∧
    (∃ r, resolve (devices (vec 0#32 [])).par.regionMap 0x00021000#32 = some r ∧ r.kind = .coprocLocal) ∧
    (∃ r, resolve (vec 0#32 []).par.regionMap 0x3FFC#32 = some r ∧ r.kind = .ram) ∧
    Memory.wf (m1122 (vec 0#32 [])).mem = true :=
  ⟨by decide, ⟨_, rfl, by decide⟩, ⟨_, rfl, by decide⟩, ⟨_, rfl, by decide⟩, ⟨_, rfl, by decide⟩, by decide⟩

/-- The unaligned word that ends with the last byte of the RAM. -/
theorem witness_LwlThenLwrLoadsUnalignedWord :
    ∃ (s : State) (rt rs : RegIdx) (imm imm3 : BitVec 16) (r q : Region),
      rt ≠ 0#5 ∧ rt ≠ rs ∧ imm3.toInt = imm.toInt + 3 ∧ (s.ea rs imm).toNat + 3 < 2 ^ 32 ∧
      resolve s.par.regionMap (wordBase (s.ea rs imm)) = some r ∧ r.kind = .ram ∧
      resolve s.par.regionMap (wordBase (s.ea rs imm + 3)) = some q ∧ q.kind = .ram :=
  ⟨vec 0#32 [(8#5, 0x3FFD#32)], 10#5, 8#5, 0xFFFF#16, 2#16, _, _, by decide, by decide, by decide, by decide, rfl, rfl, rfl, rfl⟩
theorem witness_SwlThenSwrStoresUnalignedWord :
    ∃ (s : State) (rs : RegIdx) (imm imm3 : BitVec 16) (r q : Region),
      imm3.toInt = imm.toInt + 3 ∧ (s.ea rs imm).toNat + 3 < 2 ^ 32 ∧ Memory.wf s.mem = true ∧
      resolve s.par.regionMap (wordBase (s.ea rs imm)) = some r ∧ r.kind = .ram ∧
      resolve s.par.regionMap (wordBase (s.ea rs imm + 3)) = some q ∧ q.kind = .ram :=
  ⟨vec 0#32 [(8#5, 0x3FFC#32)], 8#5, 0#16, 3#16, _, _, by decide, by decide, by decide, rfl, rfl, rfl, rfl⟩

/-- Misaligned; no reservation; the reservation; another address; the address with a foreign write. -/
theorem witness_LoadLinkedStoreConditional :
    (∃ s, (ea0 s).toNat % 4 = 3) ∧
    (∃ s r, (ea0 s).toNat % 4 = 0 ∧ resolve s.par.regionMap (ea0 s) = some r ∧ r.kind = .ram ∧ s.llbit = false) ∧
    (∃ s, (ea0 s).toNat % 4 = 0 ∧ s.llbit = true ∧ ea0 s = s.llAddr ∧ s.llForeign = false) ∧
    (∃ s, (ea0 s).toNat % 4 = 0 ∧ s.llbit = true ∧ ea0 s ≠ s.llAddr) ∧
    (∃ s, (ea0 s).toNat % 4 = 0 ∧ s.llbit = true ∧ ea0 s = s.llAddr ∧ s.llForeign = true) ∧ (10#5 : RegIdx) ≠ 0#5 := by
  refine ⟨⟨vec 0#32 [(8#5, 0x103#32)], ?_⟩, ⟨vec 0#32 [(8#5, 0x100#32)], _, ?_, rfl, rfl, rfl⟩,
    ⟨linked (vec 0#32 [(8#5, 0x100#32)]), ?_⟩, ⟨linked (vec 0#32 [(8#5, 0x104#32)]), ?_⟩,
    ⟨{ linked (vec 0#32 [(8#5, 0x100#32)]) with llForeign := true }, ?_⟩, ?_⟩ <;> decide
theorem witness_LlThenScSucceeds :
    ∃ (s : State) (rt q rs : RegIdx) (imm : BitVec 16) (r : Region),
      (s.ea rs imm).toNat % 4 = 0 ∧ resolve s.par.regionMap (s.ea rs imm) = some r ∧ r.kind = .ram ∧
      Memory.wf s.mem = true ∧ (q ≠ rs ∨ q = 0#5) ∧ rt ≠ 0#5 :=
  ⟨vec 0#32 [(8#5, 0x3FFC#32)], 9#5, 10#5, 8#5, 0#16, _, by decide, rfl, rfl, by decide, by decide, by decide⟩

/-- Each trap's condition holds for some operands and fails for others. -/
theorem witness_ConditionalTraps :
    (5#32).toInt ≥ (5#32).toInt ∧ ¬ (0xFFFFFFFF#32).toInt ≥ (0#32).toInt ∧ (0xFFFFFFFF#32).toNat ≥ (0#32).toNat ∧
    ¬ (0#32).toNat ≥ (BitVec.signExtend 32 0xFFFF#16).toNat ∧ (5#32 : Word) ≠ BitVec.signExtend 32 0#16 := by decide

theorem witness_Mfc0Reads : (9#5 : RegIdx) ∉ [8#5, 12#5, 13#5, 14#5, 15#5] := by decide
theorem witness_Mtc0Writes : (31#5 : RegIdx) ∉ [8#5, 12#5, 13#5, 14#5, 15#5] := by decide

theorem witness_Mtc0EnablesInterruptAtOnce :
    ∃ (s : State) (rt : RegIdx), s.run = .running ∧ (s.reg rt).getLsbD 0 = true ∧
      (s.causeWord.extractLsb' 8 8 &&& (s.reg rt).extractLsb' 8 8) ≠ 0#8 :=
  ⟨{ vec 0#32 [(8#5, 0x00000401#32)] with int := 1#6 }, 8#5, by decide⟩

theorem witness_RegisterInstructionsFrame :
    ∃ (i : Instr) (s t : State), isLoad i = false ∧ storeSpan s i = none ∧ writesHiLo i = false ∧ writesCp0 i = false ∧
      exec i s = .next t := ⟨.jal 0#26, vec 0#32 [], _, rfl, rfl, rfl, rfl, rfl⟩
theorem witness_HiLoAndCp0Frame :
    (∃ t, exec (.mthi 8#5) (vec 0#32 []) = .next t ∧ writesHiLo (.mthi 8#5) = true) ∧
    (∃ t, exec (.mtlo 8#5) (vec 0#32 []) = .next t ∧ writesHiLo (.mtlo 8#5) = true) ∧
    (∃ t, exec (.mtc0 8#5 12#5) (vec 0#32 []) = .next t ∧ writesCp0 (.mtc0 8#5 12#5) = true) ∧
    ∃ t, exec .rfe (vec 0#32 []) = .next t ∧ writesCp0 .rfe = true :=
  ⟨⟨_, rfl, rfl⟩, ⟨_, rfl, rfl⟩, ⟨_, rfl, rfl⟩, _, rfl, rfl⟩

/-- No device is called at an address of RAM, and none outside every region. -/
theorem noDevice_vec : noDevice (vec 0#32 []) 0x3FFC#32 ∧ noDevice (vec 0#32 []) 0x4000#32 := by
  refine ⟨fun r h => ?_, fun r h => ?_⟩
  · have k : resolve (vec 0#32 []).par.regionMap 0x3FFC#32 =
        some { name := "ram", base := 0x00000000#32, size := 0x4000, kind := .ram } := by decide
    rw [k] at h; cases h; rfl
  · have k : resolve (vec 0#32 []).par.regionMap 0x4000#32 = none := by decide
    rw [k] at h; cases h
theorem witness_LoadsFrame :
    ∃ (i : Instr) (s t : State) (a : Word), isLoad i = true ∧ accessAddress s i = some a ∧ exec i s = .next t ∧
      noDevice s a := ⟨.lw 10#5 0x3FFC#16 0#5, vec 0#32 [], _, 0x3FFC#32, rfl, by decide, rfl, noDevice_vec.1⟩
theorem witness_StoresFrame :
    ∃ (i : Instr) (s t : State) (first access : Word) (n : Nat), storeSpan s i = some (first, n) ∧
      accessAddress s i = some access ∧ exec i s = .next t ∧ noDevice s access :=
  ⟨.swl 10#5 0x3FFF#16 0#5, vec 0#32 [], _, 0x3FFF#32, 0x3FFC#32, 1, by decide, by decide, rfl, noDevice_vec.1⟩

theorem witness_StatusChangesNoBehaviour :
    (∀ rt, Instr.mfc0 10#5 13#5 ≠ .mfc0 rt 12#5) ∧ ∃ t, exec (.mfc0 10#5 13#5) (vec 0#32 []) = .next t :=
  ⟨by decide, _, rfl⟩

theorem witness_InvariantKeptByStep : ∃ s t : State, Inv s ∧ step s = .next t := ⟨_, _, inv_emptyState, rfl⟩
theorem witness_InvariantAtReset :
    mapOk Params.default.regionMap = true ∧ Memory.wf (Init.default).ram = true ∧
    Memory.canonicalFrom (romState 0#32 0#32).rom.size 0 (romState 0#32 0#32).rom.cells = true := by decide
theorem witness_StepsWriteRamOnly : ∃ s t : State, Inv s ∧ MemInRam s ∧ step s = .next t :=
  ⟨_, _, inv_emptyState, (fun _ _ h => by cases h), rfl⟩

/-- A state with devices and the invariant. -/
def devState : State := devices emptyState
theorem inv_devState : Inv devState := by constructor <;> decide
/-- The last bytes of the RAM and of the local memory are in range, in both directions; one byte more is not; the whole ROM
window is, to be read. Requests of no bytes at the ends of both spaces and beyond each (log 15). A write that starts a request. -/
theorem witness_DmaAllOrNothing :
    (Inv devState ∧ devState.dmaInRange .mainToLocal 0x3FFC 0x3C 4 = true ∧
      devState.dmaInRange .localToMain 0x3FFC 0x3C 4 = true ∧ devState.dmaInRange .mainToLocal 0x3FFC 0x3C 5 = false ∧
      devState.dmaInRange .localToMain 0x10000 0 4 = false ∧ devState.dmaInRange .mainToLocal 0x10FFC 0 4 = true ∧
      devState.dmaInRange .localToMain 0x4000 0x40 0 = true ∧ devState.dmaInRange .localToMain 0x4004 0 0 = false ∧
      devState.dmaInRange .mainToLocal 0x100 0x41 0 = false) ∧
    (∃ l, devState.par.vcopRegs.dma = some l ∧ l.started { startCall with addr := 0x00020028#32 } = some .localToMain) ∧
    startsRun devState.par { startCall with addr := 0x00020028#32 } = false ∧
    devState.windowOffset 0x00020028#32 = none := ⟨⟨inv_devState, by decide⟩, ⟨_, rfl, by decide⟩, by decide, by decide⟩

/-- A fault and an answer; the start register and another; the last word of the local memory through the window; the status
register, and a register that is not; a call that starts no request; an idle coprocessor with a register below 2 ^ 8. -/
theorem witness_DeviceCallsAndRuns :
    startReply.fault = false ∧ { startReply with fault := true }.fault = true ∧
    startsRun devState.par startCall = true ∧ startsRun devState.par { startCall with addr := 0x00020014#32 } = false ∧
    ((wholeReg 0x0002002C#32).written startCall).getD (enabled devState).vcop.irqEnabled.toNat ≠ 0 ∧
    devState.par.vcopIrqLine = some 3 ∧
    devState.windowOffset 0x0002103C#32 = some 0x3C ∧ 0x3C + bytesOf .word ≤ devState.vcop.localSize ∧
    devState.windowOffset 0x00020014#32 = none ∧
    (∃ l, devState.par.vcopRegs.status = some l ∧ l.addr = 0x00020014#32 ∧ l.doneBit ≠ l.failBit ∧
      l.addr ≠ 0x00020018#32) ∧
    (∃ l, devState.par.vcopRegs.dma = some l ∧ l.started startCall = none) ∧
    (∀ x ∈ devState.vcop.regs, x < 2 ^ devState.vcop.regWidth) := by
  refine ⟨rfl, rfl, by decide, by decide, by decide, rfl, by decide, by decide, by decide, ⟨_, rfl, by decide⟩,
    ⟨_, rfl, by decide⟩, by decide⟩

/-- The last byte, half and word of the address space; the empty buffer represents the empty memory on both hosts. -/
theorem witness_AdapterLaw :
    Memory.wf [] = true ∧ Adapter.Represents .littleEndian [] [] ∧ Adapter.Represents .bigEndian [] [] ∧
    0xFFFFFFFF % bytesOf .byte = 0 ∧ 0xFFFFFFFF + bytesOf .byte ≤ 2 ^ 32 ∧ 0xFFFFFFFE % bytesOf .half = 0 ∧
    0xFFFFFFFE + bytesOf .half ≤ 2 ^ 32 ∧ 0xFFFFFFFC % bytesOf .word = 0 ∧ 0xFFFFFFFC + bytesOf .word ≤ 2 ^ 32 :=
  ⟨rfl, fun _ _ => rfl, fun _ _ => rfl, by decide⟩

/-- Too short; no signature; a signature. -/
theorem witness_FailedLoadLeavesState :
    ∃ p : Params, [0x80#8].length < p.romMinSize ∧
      (∀ f ∈ p.romSignatures, ¬ f.signature <+: [0x12#8, 0x37#8, 0x12#8, 0x40#8]) ∧
      ¬ [0x80#8, 0x37#8, 0x12#8, 0x40#8].length < p.romMinSize ∧
      ∃ f ∈ p.romSignatures, f.signature <+: [0x80#8, 0x37#8, 0x12#8, 0x40#8] :=
  ⟨formats Params.default, by decide⟩

/-- A word in W under Refuse; Coherent; a store under Refuse; a taken transfer pending, and none. -/
theorem witness_StaleCodeRefused :
    ((refuse (vec 0#32 [])).run = .running ∧ (refuse (vec 0#32 [])).interruptPending = false ∧
      (refuse (vec 0#32 [])).pc.toNat % 4 = 0 ∧ (refuse (vec 0#32 [])).par.smcMode = .refuse ∧
      (refuse (vec 0#32 [])).pc.toNat ∈ (refuse (vec 0#32 [])).smcW) ∧
    (vec 0#32 []).par.smcMode = .coherent ∧ [0#8] ≠ ([] : List Byte) ∧
    { inSlot (vec 0#32 []) with taken := true }.taken = true ∧ (vec 0#32 []).taken = false := by decide

end Sys2Proof.Tests.Slice0
end

