-- ==== Sys2Proof/Proofs/Stops.lean ====
section
/-! Where an instruction can stop: each shape the meanings share (Machine/Ops.lean) answers a next state, or stops under
one name and for one reason; the instructions take their outcome from their shape. -/

namespace Sys2Proof.Machine

/-! ## Shapes that always complete -/

theorem raise_completes (e : Exn) (s : State) : ∃ t, raise e s = .next t := ⟨_, raise_eq e s⟩

theorem writeResult_completes (r : RegIdx) (v : Word) (s : State) : ∃ t, writeResult r v s = .next t :=
  ⟨_, writeResult_eq r v s⟩

theorem writeHiLo_completes (p : Word × Word) (s : State) : ∃ t, writeHiLo p s = .next t := ⟨_, rfl⟩

theorem writeOrOverflow_completes (r : RegIdx) (n : Int) (s : State) : ∃ t, writeOrOverflow r n s = .next t := by
  rw [writeOrOverflow_eq]
  split <;> exact ⟨_, rfl⟩

theorem trapWhen_completes (c : Bool) (s : State) : ∃ t, trapWhen c s = .next t := by
  rw [trapWhen_eq]
  split <;> exact ⟨_, rfl⟩

theorem loadMerged_completes (merge : Word → Word) (rt : RegIdx) (ea : Word) (s : State) :
    ∃ t, loadMerged merge rt ea s = .next t := by
  rw [loadMerged_eq]
  split <;> exact ⟨_, rfl⟩

theorem loadAligned_completes (w : Width) (extend : Word → Word) (rt : RegIdx) (ea : Word) (s : State) :
    ∃ t, loadAligned w extend rt ea s = .next t := by
  rw [loadAligned_eq]
  split
  · split <;> exact ⟨_, rfl⟩
  · exact ⟨_, rfl⟩

theorem storeAligned_completes (w : Width) (v ea : Word) (s : State) : ∃ t, storeAligned w v ea s = .next t := by
  rw [storeAligned_eq]
  split
  · split <;> exact ⟨_, rfl⟩
  · exact ⟨_, rfl⟩

theorem execLl_completes (rt : RegIdx) (imm : BitVec 16) (rs : RegIdx) (s : State) :
    ∃ t, execLl rt imm rs s = .next t := by
  unfold execLl
  dsimp only
  split
  · split
    · exact raise_completes _ _
    · exact writeResult_completes _ _ _
  · exact raise_completes _ _

theorem execSc_completes (rt : RegIdx) (imm : BitVec 16) (rs : RegIdx) (s : State) :
    ∃ t, execSc rt imm rs s = .next t := by
  unfold execSc
  dsimp only
  split
  · split
    · split
      · exact raise_completes _ _
      · exact writeResult_completes _ _ _
    · exact writeResult_completes _ _ _
  · exact raise_completes _ _

/-! ## Control transfers (R124, R129, R136, R137) -/

theorem exec_transfer_in_slot {i : Instr} {s : State} (ct : isControlTransfer i = true) (hd : s.delay = true) :
    exec i s = .fault (.unpredictable .branchInDelaySlot) := by
  cases i with
  | j _ | jal _ | jr _ | jalr _ _ | beq _ _ _ | bne _ _ _ | blez _ _ | bgtz _ _ | bltz _ _ | bgez _ _ | bltzal _ _
  | bgezal _ _ => exact unlessInSlot_of_slot hd _
  | _ => cases ct

section OutOfSlot

variable {s : State} (hd : s.delay = false)
include hd

theorem branchWhen_completes (taken : Bool) (target : Word) : ∃ t, branchWhen taken target s = .next t :=
  ⟨_, unlessInSlot_of_not hd _⟩

theorem linkAndBranch_completes (link : RegIdx) (taken : Bool) (target : Word) :
    ∃ t, linkAndBranch link taken target s = .next t :=
  ⟨_, unlessInSlot_of_not hd _⟩

/-- Out of a delay slot, a transfer guarded by a check completes, or the check stops it. -/
theorem unlessInSlot_check {c : Prop} [Decidable c] (k : Unpredictable) {r : Result} (hr : ∃ t, r = .next t) :
    (∃ t, unlessInSlot s (if c then .fault (.unpredictable k) else r) = .next t) ∨
      c ∧ unlessInSlot s (if c then .fault (.unpredictable k) else r) = .fault (.unpredictable k) := by
  rw [unlessInSlot_of_not hd]
  by_cases hc : c
  · exact .inr ⟨hc, if_pos hc⟩
  · rw [if_neg hc]
    exact .inl hr

theorem execJalr_completes_or_same (rd rs : RegIdx) :
    (∃ t, execJalr rd rs s = .next t) ∨ rs = rd ∧ execJalr rd rs s = .fault (.unpredictable .jalrSameRegister) :=
  unlessInSlot_check hd _ (linkAndBranch_completes hd _ _ _)

theorem execBltzal_completes_or_clash (rs : RegIdx) (imm : BitVec 16) :
    (∃ t, execBltzal rs imm s = .next t) ∨
      rs = ra ∧ execBltzal rs imm s = .fault (.unpredictable .linkSourceClash) :=
  unlessInSlot_check hd _ (linkAndBranch_completes hd _ _ _)

theorem execBgezal_completes_or_clash (rs : RegIdx) (imm : BitVec 16) :
    (∃ t, execBgezal rs imm s = .next t) ∨
      rs = ra ∧ execBgezal rs imm s = .fault (.unpredictable .linkSourceClash) :=
  unlessInSlot_check hd _ (linkAndBranch_completes hd _ _ _)

end OutOfSlot

/-! ## Moves of coprocessor 0 (R28) -/

theorem implementedCp0_eq_false_iff (n : RegIdx) :
    implementedCp0 n = false ↔ n ≠ 8#5 ∧ n ≠ 12#5 ∧ n ≠ 13#5 ∧ n ≠ 14#5 ∧ n ≠ 15#5 := by
  simp [implementedCp0, and_assoc]

theorem cp0Read_eq_none_iff (s : State) (n : RegIdx) : s.cp0Read n = none ↔ implementedCp0 n = false := by
  rw [implementedCp0_eq_false_iff]
  unfold State.cp0Read
  split_ifs <;> simp [*]

theorem cp0Write_eq_none_iff (s : State) (n : RegIdx) (v : Word) :
    s.cp0Write n v = none ↔ implementedCp0 n = false := by
  rw [implementedCp0_eq_false_iff]
  unfold State.cp0Write
  split_ifs <;> simp [*]

theorem execMfc0_completes_or_unimplemented (rt n : RegIdx) (s : State) :
    (∃ t, execMfc0 rt n s = .next t) ∨
      implementedCp0 n = false ∧ execMfc0 rt n s = .fault (.unpredictable .unimplementedCp0) := by
  unfold execMfc0
  split
  · exact .inl (writeResult_completes _ _ _)
  · next h => exact .inr ⟨(cp0Read_eq_none_iff s n).mp h, rfl⟩

theorem execMtc0_completes_or_unimplemented (rt n : RegIdx) (s : State) :
    (∃ t, execMtc0 rt n s = .next t) ∨
      implementedCp0 n = false ∧ execMtc0 rt n s = .fault (.unpredictable .unimplementedCp0) := by
  unfold execMtc0
  split
  · exact .inl ⟨_, rfl⟩
  · next h => exact .inr ⟨(cp0Write_eq_none_iff s n _).mp h, rfl⟩

/-! ## Partial stores (R153) -/

theorem wordBase_wordBase (a : Word) : wordBase (wordBase a) = wordBase a := by
  apply BitVec.eq_of_toNat_eq
  rw [wordBase_toNat, wordBase_toNat]
  omega

theorem storePart_completes_or_dispatch (a : Word) (bs : List Byte) (s : State) :
    (∃ t, storePart a bs s = .next t) ∨
      ∃ r, resolve s.par.regionMap (wordBase a) = some r ∧ r.kind.mode = .dispatch ∧
        storePart a bs s = .fault (.unpredictable .partialDeviceStore) := by
  rcases storePart_cases a bs s with h | ⟨_, _, _, h⟩ | stopped
  · exact .inl ⟨_, h⟩
  · exact .inl ⟨_, h⟩
  · exact .inr stopped

theorem execSwl_completes_or_dispatch (rt : RegIdx) (imm : BitVec 16) (rs : RegIdx) (s : State) :
    (∃ t, execSwl rt imm rs s = .next t) ∨
      byteInWord (s.ea rs imm) ≠ 0#2 ∧ ∃ r, resolve s.par.regionMap (wordBase (s.ea rs imm)) = some r ∧
        r.kind.mode = .dispatch ∧ execSwl rt imm rs s = .fault (.unpredictable .partialDeviceStore) := by
  unfold execSwl
  dsimp only
  split
  · exact .inl (storeAligned_completes _ _ _ _)
  · next hk => exact (storePart_completes_or_dispatch _ _ _).imp_right fun h => ⟨hk, h⟩

theorem execSwr_completes_or_dispatch (rt : RegIdx) (imm : BitVec 16) (rs : RegIdx) (s : State) :
    (∃ t, execSwr rt imm rs s = .next t) ∨
      byteInWord (s.ea rs imm) ≠ 3#2 ∧ ∃ r, resolve s.par.regionMap (wordBase (s.ea rs imm)) = some r ∧
        r.kind.mode = .dispatch ∧ execSwr rt imm rs s = .fault (.unpredictable .partialDeviceStore) := by
  unfold execSwr
  dsimp only
  split
  · exact .inl (storeAligned_completes _ _ _ _)
  · next hk =>
    have part := storePart_completes_or_dispatch (wordBase (s.ea rs imm))
      ((bytesToStore (s.reg rt) .word).drop (3 - (byteInWord (s.ea rs imm)).toNat)) s
    rw [wordBase_wordBase] at part
    exact part.imp_right fun h => ⟨hk, h⟩

/-! ## Every instruction -/

/-- Settles O51: a transfer in a delay slot stops whatever it is; every other case takes its outcome from the shape of
its meaning. -/
theorem execStopsOnlyWhereNamed : Obligations.ExecStopsOnlyWhereNamed := by
  intro i s
  by_cases slot : isControlTransfer i = true ∧ s.delay = true
  · obtain ⟨ct, hd⟩ := slot
    exact .inr (.inl ⟨ct, hd, exec_transfer_in_slot ct hd⟩)
  have noSlot (ct : isControlTransfer i = true) : s.delay = false := by simpa [ct] using slot
  cases i with
  | add _ _ _ | sub _ _ _ | addi _ _ _ => exact .inl (writeOrOverflow_completes _ _ s)
  | addu _ _ _ | subu _ _ _ | and _ _ _ | or _ _ _ | xor _ _ _ | nor _ _ _ | slt _ _ _ | sltu _ _ _ | addiu _ _ _
  | slti _ _ _ | sltiu _ _ _ | andi _ _ _ | ori _ _ _ | xori _ _ _ | lui _ _ | sll _ _ _ | srl _ _ _ | sra _ _ _
  | sllv _ _ _ | srlv _ _ _ | srav _ _ _ | mfhi _ | mflo _ => exact .inl (writeResult_completes _ _ s)
  | mult _ _ | multu _ _ | div _ _ | divu _ _ | mthi _ | mtlo _ => exact .inl (writeHiLo_completes _ s)
  | j _ | jr _ | beq _ _ _ | bne _ _ _ | blez _ _ | bgtz _ _ | bltz _ _ | bgez _ _ =>
    exact .inl (branchWhen_completes (noSlot rfl) _ _)
  | jal _ => exact .inl (linkAndBranch_completes (noSlot rfl) _ _ _)
  | jalr rd rs =>
    rcases execJalr_completes_or_same (noSlot rfl) rd rs with ok | ⟨rfl, stop⟩
    · exact .inl ok
    · exact .inr (.inr (.inl ⟨rs, rfl, stop⟩))
  | bltzal rs imm =>
    rcases execBltzal_completes_or_clash (noSlot rfl) rs imm with ok | ⟨rfl, stop⟩
    · exact .inl ok
    · exact .inr (.inr (.inr (.inl ⟨imm, .inl rfl, stop⟩)))
  | bgezal rs imm =>
    rcases execBgezal_completes_or_clash (noSlot rfl) rs imm with ok | ⟨rfl, stop⟩
    · exact .inl ok
    · exact .inr (.inr (.inr (.inl ⟨imm, .inr rfl, stop⟩)))
  | lb rt _ _ | lbu rt _ _ => exact .inl (loadAligned_completes .byte _ rt _ s)
  | lh rt _ _ | lhu rt _ _ => exact .inl (loadAligned_completes .half _ rt _ s)
  | lw rt _ _ => exact .inl (loadAligned_completes .word _ rt _ s)
  | lwl _ _ _ | lwr _ _ _ => exact .inl (loadMerged_completes _ _ _ s)
  | sb rt _ _ => exact .inl (storeAligned_completes .byte (s.reg rt) _ s)
  | sh rt _ _ => exact .inl (storeAligned_completes .half (s.reg rt) _ s)
  | sw rt _ _ => exact .inl (storeAligned_completes .word (s.reg rt) _ s)
  | swl rt imm rs =>
    rcases execSwl_completes_or_dispatch rt imm rs s with ok | ⟨part, r, hr, hm, stop⟩
    · exact .inl ok
    · exact .inr (.inr (.inr (.inr (.inr ⟨rt, imm, rs, r, .inl ⟨rfl, part⟩, hr, hm, stop⟩))))
  | swr rt imm rs =>
    rcases execSwr_completes_or_dispatch rt imm rs s with ok | ⟨part, r, hr, hm, stop⟩
    · exact .inl ok
    · exact .inr (.inr (.inr (.inr (.inr ⟨rt, imm, rs, r, .inr ⟨rfl, part⟩, hr, hm, stop⟩))))
  | ll rt imm rs => exact .inl (execLl_completes rt imm rs s)
  | sc rt imm rs => exact .inl (execSc_completes rt imm rs s)
  | sync _ | rfe => exact .inl ⟨_, rfl⟩
  | syscall _ | brk _ | cop1 | cop2 | cop3 | lwc1 | lwc2 | lwc3 | ldc1 | ldc2 | ldc3 | swc1 | swc2 | swc3 | sdc1 | sdc2
  | sdc3 => exact .inl (raise_completes _ s)
  | tge _ _ _ | tgeu _ _ _ | tlt _ _ _ | tltu _ _ _ | teq _ _ _ | tne _ _ _ | tgei _ _ | tgeiu _ _ | tlti _ _
  | tltiu _ _ | teqi _ _ | tnei _ _ => exact .inl (trapWhen_completes _ s)
  | mfc0 rt n =>
    rcases execMfc0_completes_or_unimplemented rt n s with ok | ⟨hn, stop⟩
    · exact .inl ok
    · exact .inr (.inr (.inr (.inr (.inl ⟨rt, n, .inl rfl, hn, stop⟩))))
  | mtc0 rt n =>
    rcases execMtc0_completes_or_unimplemented rt n s with ok | ⟨hn, stop⟩
    · exact .inl ok
    · exact .inr (.inr (.inr (.inr (.inl ⟨rt, n, .inr rfl, hn, stop⟩))))

end Sys2Proof.Machine
end

