-- ==== Sys2Proof/Proofs/StepCycle.lean ====
section
/-! The state and the step cycle of 10_state.md: what the fetch leaves, which word it reads, and, said once for all of
them, what a step that answers a next state has done (R33); then register 0 (R15), and the host's halt and reset
requests (R30, R35; 70_reset_and_hazards.md R200). -/

namespace Sys2Proof.Machine

/-! ## The fetch (R59) -/

/-- A read of the ROM window that ends inside the image. -/
theorem memRead_rom_inside {s : State} {a : Word} {r : Region} {w : Width} (h : resolve s.par.regionMap a = some r)
    (hk : r.kind = .rom) (inside : offsetIn r a + bytesOf w ≤ s.rom.size) :
    memRead s a w = .ok (valueAt s.rom.cells (offsetIn r a) w) s := by
  rw [memRead_rom w h hk, if_neg (Nat.not_lt.2 inside)]

theorem fetch_of_read {s t : State} {w : Word} (al : alignedTo s.pc .word = true) (fresh : s.fetchIsStale = false)
    (h : memRead s s.pc .word = .ok w t) : fetch s = .word w t := by
  simp [fetch, al, fresh, h]

/-- A fetch that raises leaves at most the record of a device call that faulted. -/
theorem fetch_error_state {s t : State} {e : Exn} (h : fetch s = .error e t) :
    ∃ d n, t = { s with dev := d, draws := n } := by
  unfold fetch at h
  split at h
  · split at h
    · cases h
    · split at h
      · next hr => cases h; exact memRead_busError hr
      · cases h
  · cases h; exact ⟨s.dev, s.draws, rfl⟩

/-- A fetch that answers a word is one aligned read. -/
theorem fetch_word_access {s t : State} {w : Word} (h : fetch s = .word w t) : AccessOf s t := by
  unfold fetch at h
  split at h
  · next al =>
    split at h
    · cases h
    · split at h
      · cases h
      · next hr => cases h; exact .read al hr
  · cases h

/-! ## The step (R30, R33) -/

theorem step_of_halted {s : State} {r : HaltReason} (h : s.run = .halted r) : step s = .fault (.notRunning r) := by
  simp [step, h]

theorem step_of_fetch_word {s t : State} {w : Word} (run : s.run = .running) (noInt : s.interruptPending = false)
    (h : fetch s = .word w t) : step s = execWord w t := by
  simp [step, run, stepRunning, noInt, h]

theorem execWord_of_instr {w : Word} {i : Instr} (h : decode w = .instr i) (s : State) : execWord w s = exec i s := by
  simp [execWord, h]

theorem takeException_next {e : Exn} {atFetch : Bool} {s t : State} (h : takeException e atFetch s = .next t) :
    t = s.enter e := by
  rcases takeException_cases e atFetch s with ⟨_, _, k⟩ | ⟨_, k⟩ <;> rw [k] at h <;> cases h
  rfl

/-- Everything a step that answers a next state can have done: it entered an exception that comes before any word is
executed (the interrupt, or a fetch that raised), or fetched a word that is no instruction, or executed an
instruction. -/
inductive StepCase (s : State) : State → Prop where
  | entered (e : Exn) (d : List DevCall) (n : Nat) : StepCase s (State.enter { s with dev := d, draws := n } e)
  | reserved {u : State} (fetched : AccessOf s u) : StepCase s (u.enter .ri)
  | executed {u t : State} (i : Instr) (fetched : AccessOf s u) (h : exec i u = .next t) : StepCase s t

theorem execWord_next_cases {s u t : State} {w : Word} (fetched : AccessOf s u) (h : execWord w u = .next t) :
    StepCase s t := by
  unfold execWord at h
  split at h
  · exact .executed _ fetched h
  · cases h; exact .reserved fetched
  · cases h; exact .reserved fetched

theorem stepRunning_next_cases {s t : State} (h : stepRunning s = .next t) : StepCase s t := by
  unfold stepRunning at h
  split at h
  · rw [takeException_next h]; exact .entered .int s.dev s.draws
  · split at h
    · cases h
    · next e u hf =>
      obtain ⟨d, n, rfl⟩ := fetch_error_state hf
      rw [takeException_next h]; exact .entered e d n
    · next w u hf => exact execWord_next_cases (fetch_word_access hf) h

/-- A step answers a next state only from Running. -/
theorem step_next_cases {s t : State} (h : step s = .next t) : s.run = .running ∧ StepCase s t := by
  unfold step at h
  split at h
  · cases h
  · next run => exact ⟨run, stepRunning_next_cases h⟩

/-! ## What an instruction and a step keep -/

theorem exec_next_run {i : Instr} {s t : State} (h : exec i s = .next t) : t.run = s.run := by
  have k := exec_cases i s
  rw [h] at k
  cases k with
  | raised e d n _ => rfl
  | plain _ _ _ _ _ _ _ _ _ _ access _ => exact access.sameCore.run
  | jump _ _ _ _ _ _ => rfl

theorem StepCase.run {s t : State} (k : StepCase s t) : t.run = s.run := by
  cases k with
  | entered e d n => rfl
  | reserved fetched => exact fetched.sameCore.run
  | executed i fetched h => exact (exec_next_run h).trans fetched.sameCore.run

/-- The invariant does not look at the record of device calls, nor at the draws. -/
theorem Inv.withRecord {s : State} (h : Inv s) (d : List DevCall) (n : Nat) : Inv { s with dev := d, draws := n } :=
  h.of_eq rfl rfl rfl rfl rfl rfl rfl rfl rfl rfl rfl

/-- An instruction keeps the invariant: its access and its exception entry do, register 0's place keeps its content, and
only a control transfer leaves a taken transfer pending. -/
theorem exec_next_inv {i : Instr} {s t : State} (hs : Inv s) (h : exec i s = .next t) : Inv t := by
  have k := exec_cases i s
  rw [h] at k
  cases k with
  | raised e d n _ => exact (hs.withRecord d n).enter e
  | @plain u g hi lo st ca ep lb la lf _ access zero =>
    have hg : g[0] = u.gpr[0] := by rw [access.sameCore.gpr]; exact zero
    exact ((access.inv hs).withRegisters hg hi lo st ca ep lb la lf).sequence _ nofun
  | jump g taken target _ _ zero =>
    have hj : Inv { s with gpr := g } := hs.of_eq rfl rfl rfl rfl rfl zero rfl rfl rfl rfl rfl
    exact hj.sequence target fun _ => rfl

theorem StepCase.inv {s t : State} (k : StepCase s t) (hs : Inv s) : Inv t := by
  cases k with
  | entered e d n => exact (hs.withRecord d n).enter e
  | reserved fetched => exact (fetched.inv hs).enter .ri
  | executed i fetched h => exact exec_next_inv (fetched.inv hs) h

/-- Settles O53, by the cases of a step: the fetch, the exception entry and the instruction each keep the invariant. -/
theorem invariantKeptByStep : Obligations.InvariantKeptByStep := by
  intro s t hs h
  obtain ⟨_, k⟩ := step_next_cases h
  exact k.inv hs

/-! ## The instruction that a step runs (R71) -/

theorem decodeBytes_readBytes (m : ByteStore) (a : Nat) :
    decodeBytes (Memory.readBytes m a 4) = decode (valueAt m a .word) := rfl

/-- Settles O1: in both kinds of direct region the fetch reads the word of the four bytes and changes nothing. -/
theorem stepRunsDecodedInstruction : Obligations.StepRunsDecodedInstruction := by
  intro s i r run noInt align fresh hr
  have al : alignedTo s.pc .word = true := (alignedTo_iff s.pc .word).2 align
  refine ⟨fun hk hd => ?_, fun hk inside hd => ?_⟩
  · rw [decodeBytes_readBytes] at hd
    rw [step_of_fetch_word run noInt (fetch_of_read al fresh (memRead_ram .word hr hk)), execWord_of_instr hd]
  · rw [decodeBytes_readBytes] at hd
    rw [step_of_fetch_word run noInt (fetch_of_read al fresh (memRead_rom_inside hr hk inside)), execWord_of_instr hd]

/-! ## Step 5 of the cycle, or an exception entry -/

/-- Settles O7, from the cases of an instruction: an access leaves PC and NPC alone, so the sequencing is that of the
state before. -/
theorem execAdvancesOrEntersPrecisely : Obligations.ExecAdvancesOrEntersPrecisely := by
  intro i s t h
  have k := exec_cases i s
  rw [h] at k
  cases k with
  | raised e d n record => exact .inr ⟨e, d, n, rfl, record⟩
  | @plain u _ _ _ _ _ _ _ _ _ notTransfer access _ =>
    have npc : u.npc = s.npc := access.sameCore.npc
    exact .inl ⟨npc, notTransfer.symm, fun _ => congrArg (· + 4) npc⟩
  | jump _ _ _ transfer _ _ => exact .inl ⟨rfl, transfer.symm, fun no => by simp [transfer] at no⟩

/-- Settles O26: the sequencing writes the five fields it names. -/
theorem sequencingRule : Obligations.SequencingRule := fun s taken target =>
  ⟨s.transfer_pc taken target, s.transfer_npc taken target, s.transfer_delay taken target, rfl,
    s.advance_pc, s.advance_npc, s.advance_delay, rfl⟩

/-! ## Register 0 (R15) -/

/-- Settles O10, with the laws of the register accessor; of two registers, the one written and another. -/
theorem registerZero : Obligations.RegisterZero := by
  refine ⟨State.reg_zero, State.setReg_zero, fun s r q v hr => ?_, fun _ _ t _ => t.reg_zero⟩
  by_cases hq : q = r
  · subst hq; simp [hr]
  · rw [State.reg_setReg_of_ne s hq, if_neg hq]

/-! ## Halt (R30, R35) -/

theorem hostHalt_of_halted {s : State} {r : HaltReason} (h : s.run = .halted r) : s.hostHalt = s := by
  simp [State.hostHalt, h]

theorem hostHalt_of_running {s : State} (h : s.run = .running) : s.hostHalt = { s with run := .halted .hostHalt } := by
  simp [State.hostHalt, h, State.halt]

/-! ## Values at reset (R200) -/

theorem Status.zero_toWord : Status.zero.toWord = 0#32 := rfl

/-- With its stored fields at their reset values, Cause shows the interrupt inputs and nothing else (R24). -/
theorem causeWord_of_zero {s : State} (h : s.cause = Cause.zero) : s.causeWord = 0#16 ++ s.intLevels ++ 0#10 := by
  have levels : ∀ x : BitVec 6, BitVec.ofBool false ++ 0#1 ++ 0#2 ++ 0#12 ++ x ++ 0#2 ++ 0#1 ++ 0#5 ++ 0#2 =
      0#16 ++ x ++ 0#10 := by decide
  rw [State.causeWord, h]
  exact levels s.intLevels

/-- A register file given at launch or with a reset is read back, register 0 excepted. -/
theorem reg_of_gpr_set_zero {s : State} {g : Vector Word 32} (h : s.gpr = g.set 0 0#32) {r : Fin 32} (hr : r ≠ 0) :
    s.reg (BitVec.ofFin r) = g[r] := by
  have nz : BitVec.ofFin r ≠ 0#5 := fun e => hr (congrArg BitVec.toFin e)
  have pos : (0 : Nat) ≠ r.val := fun e => hr (Fin.ext e.symm)
  simp [State.reg, nz, h, pos]

/-- Settles O5: no step from Halted, a step keeps RUN, and a reset request is read field by field. -/
theorem haltAndResetRequests : Obligations.HaltAndResetRequests := by
  refine ⟨fun s r h => ?halted, fun s t h => ?step, fun s h => hostHalt_of_running h, fun s i => ?fields,
    fun s r => ⟨rfl, rfl, rfl⟩, fun s i r => ?init⟩
  case halted => exact ⟨step_of_halted h, hostHalt_of_halted h, fun _ => h⟩
  case step =>
    obtain ⟨run, k⟩ := step_next_cases h
    exact ⟨run, k.run.trans run⟩
  case fields =>
    exact ⟨rfl, rfl, rfl, Status.zero_toWord, causeWord_of_zero rfl, rfl, rfl, rfl, rfl, rfl, rfl, rfl, rfl, rfl, rfl⟩
  case init => exact ⟨rfl, rfl, reg_of_gpr_set_zero rfl⟩

end Sys2Proof.Machine
end

