-- ==== Sys2Proof/Proofs/Memory.lean ====
section
/-! 20_memory.md: what every step keeps of the memory map, big-endian values and the region map, the accesses and the
fetch by the kind of the region, the loading of an image; the byte-order adapter; and device calls with the runs of the
vector coprocessor (60_exceptions.md R193 to R195). -/

namespace Sys2Proof.Machine

/-! ## What a step keeps of the memory map (R42, R54, R58) -/

/-- An instruction writes neither the ROM store nor the parameters: its access leaves both. -/
theorem exec_next_rom_par {i : Instr} {s t : State} (h : exec i s = .next t) : t.rom = s.rom ∧ t.par = s.par := by
  have k := exec_cases i s
  rw [h] at k
  cases k with
  | raised e d n _ => exact ⟨rfl, rfl⟩
  | plain _ _ _ _ _ _ _ _ _ _ access _ => exact ⟨access.sameCore.rom, access.sameCore.par⟩
  | jump _ _ _ _ _ _ => exact ⟨rfl, rfl⟩

theorem StepCase.rom_par {s t : State} (k : StepCase s t) : t.rom = s.rom ∧ t.par = s.par := by
  cases k with
  | entered e d n => exact ⟨rfl, rfl⟩
  | reserved fetched => exact ⟨fetched.sameCore.rom, fetched.sameCore.par⟩
  | executed i fetched h =>
    obtain ⟨rom, par⟩ := exec_next_rom_par h
    exact ⟨rom.trans fetched.sameCore.rom, par.trans fetched.sameCore.par⟩

/-- An instruction writes bytes of RAM regions only: the rest of what it does leaves memory alone. -/
theorem exec_next_memInRam {i : Instr} {s t : State} (inv : Inv s) (ram : MemInRam s) (h : exec i s = .next t) :
    MemInRam t := by
  have k := exec_cases i s
  rw [h] at k
  cases k with
  | raised e d n _ => exact ram.of_eq rfl rfl
  | plain _ _ _ _ _ _ _ _ _ _ access _ => exact (access.memInRam inv ram).of_eq rfl rfl
  | jump _ _ _ _ _ _ => exact ram.of_eq rfl rfl

theorem StepCase.memInRam {s t : State} (k : StepCase s t) (inv : Inv s) (ram : MemInRam s) : MemInRam t := by
  cases k with
  | entered e d n => exact ram.of_eq rfl rfl
  | reserved fetched => exact (fetched.memInRam inv ram).of_eq rfl rfl
  | executed i fetched h => exact exec_next_memInRam (fetched.inv inv) (fetched.memInRam inv ram) h

/-- Settles O55, by the cases of a step: its two accesses, of the fetch and of the instruction, are all that reaches
memory, and neither reaches the ROM store or the parameters. -/
theorem stepsWriteRamOnly : Obligations.StepsWriteRamOnly := by
  intro s t h
  obtain ⟨_, k⟩ := step_next_cases h
  obtain ⟨rom, par⟩ := k.rom_par
  exact ⟨rom, par, k.memInRam⟩

/-! ## Big-endian values (R44, R45) -/

theorem valueAt_byte_toNat (m : ByteStore) (a : Nat) : (valueAt m a .byte).toNat = (Memory.read m a).toNat := by
  simp only [valueAt, BitVec.toNat_setWidth]
  omega

theorem toNat_append_byte {n : Nat} (x : BitVec n) (b : Byte) : (x ++ b).toNat = x.toNat * 2 ^ 8 + b.toNat := by
  rw [BitVec.toNat_append, Nat.shiftLeft_eq, Nat.mul_comm, Nat.two_pow_add_eq_or_of_lt b.isLt]

theorem valueAt_half_toNat (m : ByteStore) (a : Nat) :
    (valueAt m a .half).toNat = (Memory.read m a).toNat * 2 ^ 8 + (Memory.read m (a + 1)).toNat := by
  simp only [valueAt, BitVec.toNat_setWidth, toNat_append_byte]
  omega

theorem valueAt_word_toNat (m : ByteStore) (a : Nat) :
    (valueAt m a .word).toNat = (Memory.read m a).toNat * 2 ^ 24 + (Memory.read m (a + 1)).toNat * 2 ^ 16 +
      (Memory.read m (a + 2)).toNat * 2 ^ 8 + (Memory.read m (a + 3)).toNat := by
  simp only [valueAt, toNat_append_byte]
  omega

/-- Byte `i`, counted from the lowest address, of the `8n` bits that an access of `n` bytes stores. -/
def byteOfValue (v : Word) (w : Width) (i : Nat) : Byte := v.extractLsb' (8 * (bytesOf w - 1 - i)) 8

theorem bytesToStore_getElem? (v : Word) {w : Width} {i : Nat} (hi : i < bytesOf w) :
    (bytesToStore v w)[i]? = some (byteOfValue v w i) := by
  cases w <;> simp only [bytesOf] at hi <;> interval_cases i <;> rfl

theorem read_storeValue_inside {m : ByteStore} (wf : Memory.wf m = true) {a : Nat} {w : Width}
    (fits : a + bytesOf w ≤ 2 ^ 32) (v : Word) {i : Nat} (hi : i < bytesOf w) :
    Memory.read (storeValue m a w v) (a + i) = byteOfValue v w i := by
  rw [storeValue, Memory.read_writeBytes wf a _ (by rwa [bytesToStore_length]), if_pos (Nat.le_add_right a i),
    Nat.add_sub_cancel_left, bytesToStore_getElem? v hi, Option.getD_some]

theorem read_storeValue_outside (m : ByteStore) {a : Nat} {w : Width} (v : Word) {x : Nat}
    (hx : x < a ∨ a + bytesOf w ≤ x) : Memory.read (storeValue m a w v) x = Memory.read m x :=
  Memory.read_writeBytes_outside m _ (by rwa [bytesToStore_length])

theorem storeValue_wf {m : ByteStore} (wf : Memory.wf m = true) {a : Nat} {w : Width} (fits : a + bytesOf w ≤ 2 ^ 32)
    (v : Word) : Memory.wf (storeValue m a w v) = true :=
  Memory.writeBytes_wf wf _ (by rwa [bytesToStore_length])

theorem word_of_its_bytes (v : Word) :
    v.extractLsb' 24 8 ++ v.extractLsb' 16 8 ++ v.extractLsb' 8 8 ++ v.extractLsb' 0 8 = v := by
  rw [BitVec.extractLsb'_append_extractLsb'_eq_extractLsb' (by decide),
    BitVec.extractLsb'_append_extractLsb'_eq_extractLsb' (by decide),
    BitVec.extractLsb'_append_extractLsb'_eq_extractLsb' (by decide)]
  exact BitVec.extractLsb'_eq_self

/-- The bytes of a value, where they stand in order, are read as its low bits. -/
theorem valueAt_of_bytes {m : ByteStore} {a : Nat} {w : Width} {v : Word}
    (h : ∀ i, i < bytesOf w → Memory.read m (a + i) = byteOfValue v w i) : valueAt m a w = lowBits w v := by
  have h0 : Memory.read m a = byteOfValue v w 0 := h 0 (by cases w <;> decide)
  cases w with
  | byte => rw [valueAt, h0]; rfl
  | half =>
    rw [valueAt, h0, h 1 (by decide)]
    exact congrArg (BitVec.setWidth 32) (BitVec.extractLsb'_append_extractLsb'_eq_extractLsb' (by decide))
  | word =>
    rw [valueAt, h0, h 1 (by decide), h 2 (by decide), h 3 (by decide)]
    exact word_of_its_bytes v

theorem valueAt_storeValue {m : ByteStore} (wf : Memory.wf m = true) {a : Nat} {w : Width}
    (fits : a + bytesOf w ≤ 2 ^ 32) (v : Word) : valueAt (storeValue m a w v) a w = lowBits w v :=
  valueAt_of_bytes fun _ hi => read_storeValue_inside wf fits v hi

theorem bytesOf_le_four (w : Width) : bytesOf w ≤ 4 := by cases w <;> decide

/-- Settles O28: every clause reads single bytes of the store or of the written store. -/
theorem memoryIsBigEndian : Obligations.MemoryIsBigEndian := by
  intro m a v wf fits
  have fitsOf (w : Width) : a + bytesOf w ≤ 2 ^ 32 := le_trans (Nat.add_le_add_left (bytesOf_le_four w) a) fits
  have stored {i : Nat} (hi : i < 4) :
      Memory.read (storeValue m a .word 0x11223344#32) (a + i) = byteOfValue 0x11223344#32 .word i :=
    read_storeValue_inside wf fits _ hi
  refine ⟨valueAt_byte_toNat m a, valueAt_half_toNat m a, valueAt_word_toNat m a, fun w => ?_, ?_, ?_, ?_⟩
  · exact ⟨fun i hi => read_storeValue_inside wf (fitsOf w) v hi, fun x hx => read_storeValue_outside m v hx,
      valueAt_storeValue wf (fitsOf w) v, storeValue_wf wf (fitsOf w) v⟩
  · exact congrArg (BitVec.setWidth 32) (stored (i := 0) (by decide))
  · exact congrArg (BitVec.setWidth 32) (stored (i := 3) (by decide))
  · rw [valueAt, Nat.add_assoc, stored (i := 2) (by decide), stored (i := 3) (by decide)]
    rfl

/-! ## The region map (R38 to R40) -/

theorem mapRegion_of_not_ok {m : List Region} {r : Region} (h : regionOk r = false) :
    mapRegion m r = .error .badDescriptor := by simp [mapRegion, h]

theorem mapRegion_of_not_disjoint {m : List Region} {r : Region} (ok : regionOk r = true)
    (h : m.all (regionsDisjoint r) = false) : mapRegion m r = .error .overlap := by simp [mapRegion, ok, h]

theorem mapRegion_ok {m m' : List Region} {r : Region} (h : mapRegion m r = .ok m') :
    regionOk r = true ∧ m.all (regionsDisjoint r) = true ∧ m' = r :: m := by
  unfold mapRegion at h
  split at h
  · next ok =>
    split at h
    · next disjoint => cases h; exact ⟨ok, disjoint, rfl⟩
    · cases h
  · cases h

/-- Disjoint regions share no address. -/
theorem not_regionsDisjoint {r q : Region} {a : Nat} (hr : regionContains r a = true) (hq : regionContains q a = true) :
    regionsDisjoint r q = false := by
  rw [regionContains_iff] at hr hq
  simp only [regionsDisjoint, Bool.or_eq_false_iff, decide_eq_false_iff_not]
  omega

theorem all_disjoint_false {m : List Region} {r q : Region} {a : Nat} (hq : q ∈ m) (ra : regionContains r a = true)
    (qa : regionContains q a = true) : m.all (regionsDisjoint r) = false :=
  List.all_eq_false.2 ⟨q, hq, by simp [not_regionsDisjoint ra qa]⟩

/-- In a sound map at most one region contains an address. -/
theorem region_unique {m : List Region} (h : mapOk m = true) {r q : Region} (hr : r ∈ m) (hq : q ∈ m) {a : Nat}
    (ra : regionContains r a = true) (qa : regionContains q a = true) : r = q := by
  induction m with
  | nil => cases hr
  | cons p m ih =>
    simp only [mapOk, Bool.and_eq_true] at h
    obtain ⟨⟨_, disjoint⟩, rest⟩ := h
    rcases List.mem_cons.1 hr with rfl | hr' <;> rcases List.mem_cons.1 hq with rfl | hq'
    · rfl
    · simp [all_disjoint_false hq' ra qa] at disjoint
    · simp [all_disjoint_false hr' qa ra] at disjoint
    · exact ih rest hr' hq'

theorem resolve_eq_some_iff {m : List Region} (h : mapOk m = true) {r : Region} {a : Word} :
    resolve m a = some r ↔ r ∈ m ∧ regionContains r a.toNat = true := by
  refine ⟨resolve_some, fun ⟨hr, ra⟩ => ?_⟩
  cases hq : resolve m a with
  | none => exact absurd ra (List.find?_eq_none.1 hq r hr)
  | some q =>
    obtain ⟨hq', qa⟩ := resolve_some hq
    rw [region_unique h hr hq' ra qa]

/-- Region bounds are multiples of 4, so the bytes of an aligned access lie in the same regions. -/
theorem regionContains_aligned {r : Region} (ok : regionOk r = true) {a : Nat} {w : Width} (al : a % bytesOf w = 0)
    {i : Nat} (hi : i < bytesOf w) : regionContains r (a + i) = regionContains r a := by
  rw [Bool.eq_iff_iff]
  refine ⟨fun h => ?_, fun h => aligned_in_region ok h al hi⟩
  rw [regionOk_iff] at ok
  rw [regionContains_iff] at h ⊢
  cases w <;> simp only [bytesOf] at al hi <;> omega

theorem resolve_aligned {m : List Region} (h : mapOk m = true) {a : Word} {w : Width} (al : a.toNat % bytesOf w = 0)
    {i : Nat} (hi : i < bytesOf w) : resolve m (BitVec.ofNat 32 (a.toNat + i)) = resolve m a := by
  have noWrap : (BitVec.ofNat 32 (a.toNat + i)).toNat = a.toNat + i := by
    have := a.isLt
    rw [BitVec.toNat_ofNat]
    cases w <;> simp only [bytesOf] at al hi <;> omega
  unfold resolve
  rw [noWrap]
  exact List.find?_congr fun r hr => regionContains_aligned (mapOk_mem h hr) al hi

/-- Settles O31: at most one region of a sound map contains an address, and the bytes of an aligned access lie in the
same regions. -/
theorem regionsResolveUniquely : Obligations.RegionsResolveUniquely := by
  refine ⟨fun m m' r h hm => ?added, fun m r h => ?bad, fun m r q a ok hq ra qa => ?overlap,
    fun m r a h => resolve_eq_some_iff h, fun m a w i h al hi => resolve_aligned h al hi⟩
  case added =>
    obtain ⟨ok, disjoint, rfl⟩ := mapRegion_ok hm
    exact ⟨by simp only [mapOk, ok, disjoint, h, Bool.and_self], rfl⟩
  case bad => exact mapRegion_of_not_ok (by rwa [← Bool.not_eq_true, regionOk_iff])
  case overlap => exact mapRegion_of_not_disjoint ok (all_disjoint_false hq ra qa)

/-! ## Accesses by the kind of the region (R57, R58) -/

theorem mode_dispatch {k : RegionKind} (h : k = .device ∨ k = .coprocLocal) : k.mode = .dispatch := by
  rcases h with rfl | rfl <;> rfl

theorem memRead_rom_beyond {s : State} {a : Word} {r : Region} {w : Width} (h : resolve s.par.regionMap a = some r)
    (hk : r.kind = .rom) (beyond : offsetIn r a + bytesOf w > s.rom.size) : memRead s a w = .busError s := by
  rw [memRead_rom w h hk, if_pos beyond]

/-- Settles O29, from the law of a read for each kind of region. -/
theorem memReadRule : Obligations.MemReadRule := fun _ _ w =>
  ⟨memRead_none w, fun _ hr => ⟨memRead_rom_beyond hr, memRead_rom_inside hr, memRead_ram w hr,
    fun hk => memRead_dispatch w hr (mode_dispatch hk)⟩⟩

/-- Settles O30, from the law of a write for each kind of region; a bus error leaves at most the record of a call. -/
theorem memWriteRule : Obligations.MemWriteRule := by
  intro s a w v
  refine ⟨memWrite_none w v, fun r hr => ⟨memWrite_rom w v hr, fun hk => ?ram, fun hk => ?dispatch⟩, fun t h => ?error⟩
  case ram => exact ⟨_, memWrite_ram w v hr hk, rfl, rfl⟩
  case dispatch => rw [memWrite_dispatch w v hr (mode_dispatch hk)]; rfl
  case error =>
    obtain ⟨d, n, rfl⟩ := memWrite_busError h
    exact ⟨rfl, rfl, rfl⟩

/-! ## The fetch (R59) -/

theorem fetch_misaligned {s : State} (h : alignedTo s.pc .word = false) : fetch s = .error (.adEL s.pc) s := by
  simp [fetch, h]

theorem fetch_of_busError {s t : State} (al : alignedTo s.pc .word = true) (fresh : s.fetchIsStale = false)
    (h : memRead s s.pc .word = .busError t) : fetch s = .error .ibe t := by
  simp [fetch, al, fresh, h]

theorem step_of_fetch_error {s t : State} {e : Exn} (run : s.run = .running) (noInt : s.interruptPending = false)
    (h : fetch s = .error e t) : step s = takeException e true t := by
  simp [step, run, stepRunning, noInt, h]

section Fetching

variable {s t : State} (run : s.run = .running) (noInt : s.interruptPending = false)
  (al : alignedTo s.pc .word = true) (fresh : s.fetchIsStale = false)
include run noInt al fresh

theorem step_of_read_busError (h : memRead s s.pc .word = .busError t) : step s = takeException .ibe true t :=
  step_of_fetch_error run noInt (fetch_of_busError al fresh h)

theorem step_of_read_ok {w : Word} (h : memRead s s.pc .word = .ok w t) : step s = execWord w t :=
  step_of_fetch_word run noInt (fetch_of_read al fresh h)

end Fetching

/-- Settles O3: the step goes on as the read of the word at PC, of the region's kind, answers. -/
theorem fetchRule : Obligations.FetchRule := by
  intro s run noInt
  refine ⟨fun misaligned => ?_, fun aligned fresh => ?_⟩
  · have al : alignedTo s.pc .word = false := by
      rw [← Bool.not_eq_true, alignedTo_iff]
      exact misaligned
    exact step_of_fetch_error run noInt (fetch_misaligned al)
  · have al : alignedTo s.pc .word = true := (alignedTo_iff s.pc .word).2 aligned
    have raises {t : State} := step_of_read_busError (t := t) run noInt al fresh
    have executes {t : State} {w : Word} := step_of_read_ok (t := t) run noInt al fresh (w := w)
    refine ⟨fun hr => raises (memRead_none .word hr), fun r hr =>
      ⟨fun hk beyond => raises (memRead_rom_beyond hr hk beyond),
        fun hk inside => executes (memRead_rom_inside hr hk inside),
        fun hk => executes (memRead_ram .word hr hk), fun hk => ?_⟩⟩
    have read := memRead_dispatch .word hr (mode_dispatch hk)
    cases call : deviceCall s { addr := s.pc, width := .word, write := none } with
    | busError t => exact raises (read.trans call)
    | ok w t => exact executes (read.trans call)

/-! ## Loading an image (R52) -/

theorem normalise_length (f : RomFormat) (bytes : List Byte) : (normalise f bytes).length = bytes.length := by
  induction bytes using normalise.induct with
  | case1 a b c d rest ih => simp [normalise, ih]
  | case2 tail short => rw [normalise]; exact short

theorem readImage_eq_none {p : Params} {bytes : List Byte}
    (h : bytes.length < p.romMinSize ∨ ∀ f ∈ p.romSignatures, ¬ f.signature <+: bytes) : readImage p bytes = none := by
  unfold readImage
  split
  · rfl
  · next large =>
    have unknown : p.romSignatures.find? (fun f => f.signature.isPrefixOf bytes) = none :=
      List.find?_eq_none.2 fun f hf => by simpa using h.resolve_left large f hf
    rw [unknown]

theorem readImage_eq_some {p : Params} {bytes : List Byte} (large : ¬ bytes.length < p.romMinSize)
    (known : ∃ f ∈ p.romSignatures, f.signature <+: bytes) :
    ∃ f, readImage p bytes = some (romOfBytes (normalise f bytes)) := by
  have found : (p.romSignatures.find? fun f => f.signature.isPrefixOf bytes).isSome = true := by
    simpa using known
  obtain ⟨f, hf⟩ := Option.isSome_iff_exists.1 found
  exact ⟨f, by simp [readImage, large, hf]⟩

/-- Settles O59, from the two answers of reading an image. -/
theorem failedLoadLeavesState : Obligations.FailedLoadLeavesState := by
  intro s bytes
  refine ⟨fun h => ?_, fun large known => ?_⟩
  · have failed := readImage_eq_none h
    exact ⟨failed, by simp [State.loadImage, failed]⟩
  · obtain ⟨f, loaded⟩ := readImage_eq_some large known
    exact ⟨_, loaded, normalise_length f bytes, by simp [State.loadImage, loaded]⟩

end Sys2Proof.Machine

namespace Sys2Proof.Machine.Adapter

/-! ## The adapter: where an architectural byte stands in the buffer (R46, R47) -/

/-- The host byte offset of the architectural byte at a region offset: the mask of an 8-bit access. -/
def hostAddress (o : HostOrder) (x : Nat) : Nat := x ^^^ mask o .byte

@[simp] theorem hostAddress_big (x : Nat) : hostAddress .bigEndian x = x := Nat.xor_zero x

@[simp] theorem mask_big (w : Width) : mask .bigEndian w = 0 := rfl

@[simp] theorem mask_word (o : HostOrder) : mask o .word = 0 := by cases o <;> rfl

/-- A mask below 4 moves an offset inside its word. -/
theorem xor_below_four (x : Nat) {k : Nat} (hk : k < 4) : x ^^^ k = x / 4 * 4 + (x % 4 ^^^ k) := by
  have quotient : (x ^^^ k) / 4 = x / 4 := by
    have := Nat.xor_div_two_pow (a := x) (b := k) (n := 2)
    rwa [Nat.div_eq_of_lt (a := k) hk, Nat.xor_zero] at this
  have remainder : (x ^^^ k) % 4 = x % 4 ^^^ k :=
    Nat.xor_mod_two_pow (n := 2) |>.trans (congrArg (x % 4 ^^^ ·) (Nat.mod_eq_of_lt hk))
  omega

theorem hostAddress_little (x : Nat) : hostAddress .littleEndian x = x / 4 * 4 + (3 - x % 4) := by
  have inWord : ∀ r < 4, r ^^^ 3 = 3 - r := by decide
  rw [hostAddress, mask, xor_below_four x (by decide), inWord _ (Nat.mod_lt x (by decide))]

theorem xor_two_of_even {x : Nat} (h : x % 2 = 0) : x ^^^ 2 = x / 4 * 4 + (2 - x % 4) := by
  have inWord : ∀ r < 4, r % 2 = 0 → r ^^^ 2 = 2 - r := by decide
  rw [xor_below_four x (by decide), inWord _ (Nat.mod_lt x (by decide)) (by omega)]

section Aligned

variable {off : Nat} {w : Width} (al : off % bytesOf w = 0)
include al

/-- On a little-endian host the masked access covers the same bytes, in reverse order. -/
theorem masked_byte {i : Nat} (hi : i < bytesOf w) :
    (off ^^^ mask .littleEndian w) + (bytesOf w - 1 - i) = hostAddress .littleEndian (off + i) := by
  rw [hostAddress_little]
  cases w <;> simp only [bytesOf] at al hi ⊢
  · rw [← hostAddress, hostAddress_little]; omega
  · rw [mask, xor_two_of_even al]; omega
  · rw [mask_word, Nat.xor_zero]; omega

theorem masked_fits (fits : off + bytesOf w ≤ 2 ^ 32) :
    (off ^^^ mask .littleEndian w) + bytesOf w ≤ 2 ^ 32 := by
  have last := masked_byte al (i := 0) (by cases w <;> decide)
  rw [hostAddress_little] at last
  cases w <;> simp only [bytesOf] at * <;> omega

/-- The bytes outside a masked access are the architectural bytes outside it. -/
theorem masked_outside {x : Nat} (hx : x < off ∨ off + bytesOf w ≤ x) :
    hostAddress .littleEndian x < (off ^^^ mask .littleEndian w) ∨
      (off ^^^ mask .littleEndian w) + bytesOf w ≤ hostAddress .littleEndian x := by
  have first := masked_byte al (i := 0) (by cases w <;> decide)
  rw [hostAddress_little] at first ⊢
  cases w <;> simp only [bytesOf] at * <;> omega

/-- A masked read gives the value of the architectural bytes, where the buffer has them at their host addresses. -/
theorem read_of_bytes {o : HostOrder} {buf m : ByteStore}
    (h : ∀ x, Memory.read buf (hostAddress o x) = Memory.read m x) : read o buf off w = valueAt m off w := by
  cases o with
  | bigEndian =>
    have same (x : Nat) : Memory.read buf x = Memory.read m x := by simpa using h x
    cases w <;> simp only [read, hostLoad, valueAt, mask_big, Nat.xor_zero, same]
  | littleEndian =>
    have byteAt {i : Nat} (hi : i < bytesOf w) :
        Memory.read buf ((off ^^^ mask .littleEndian w) + (bytesOf w - 1 - i)) = Memory.read m (off + i) := by
      rw [masked_byte al hi, h]
    cases w with
    | byte => exact congrArg (BitVec.setWidth 32) (byteAt (i := 0) (by decide))
    | half =>
      exact congrArg (BitVec.setWidth 32)
        (congrArg₂ (· ++ ·) (byteAt (i := 0) (by decide)) (byteAt (i := 1) (by decide)))
    | word =>
      exact congrArg₂ (· ++ ·) (congrArg₂ (· ++ ·) (congrArg₂ (· ++ ·)
        (byteAt (i := 0) (by decide)) (byteAt (i := 1) (by decide))) (byteAt (i := 2) (by decide)))
        (byteAt (i := 3) (by decide))

end Aligned

theorem append_byte_inj {n : Nat} {x y : BitVec n} {b c : Byte} : x ++ b = y ++ c ↔ x = y ∧ b = c := by
  refine ⟨fun h => ?_, fun ⟨hx, hb⟩ => by rw [hx, hb]⟩
  have e := congrArg BitVec.toNat h
  rw [toNat_append_byte, toNat_append_byte] at e
  have := b.isLt
  have := c.isLt
  exact ⟨BitVec.eq_of_toNat_eq (by omega), BitVec.eq_of_toNat_eq (by omega)⟩

/-- Where a word of the buffer encodes a word of memory, each of its bytes stands at its host address. -/
theorem bytes_of_word {o : HostOrder} {buf m : ByteStore} {off : Nat} (al : off % 4 = 0)
    (h : hostLoad o buf off .word = valueAt m off .word) {i : Nat} (hi : i < 4) :
    Memory.read buf (hostAddress o (off + i)) = Memory.read m (off + i) := by
  cases o with
  | bigEndian =>
    simp only [hostLoad, valueAt, append_byte_inj] at h
    obtain ⟨⟨⟨b0, b1⟩, b2⟩, b3⟩ := h
    rw [hostAddress_big]
    interval_cases i <;> assumption
  | littleEndian =>
    simp only [hostLoad, valueAt, append_byte_inj] at h
    obtain ⟨⟨⟨b0, b1⟩, b2⟩, b3⟩ := h
    rw [← masked_byte (w := .word) al hi, mask_word, Nat.xor_zero]
    interval_cases i <;> assumption

/-- The layout of R47, byte by byte. -/
theorem represents_iff {o : HostOrder} {buf m : ByteStore} :
    Represents o buf m ↔ ∀ x, Memory.read buf (hostAddress o x) = Memory.read m x := by
  refine ⟨fun h x => ?_, fun h off al => ?_⟩
  · have byte := bytes_of_word (Nat.mul_mod_left (x / 4) 4) (h _ (Nat.mul_mod_left (x / 4) 4))
      (Nat.mod_lt x (by decide))
    rwa [Nat.div_add_mod'] at byte
  · have word := read_of_bytes (w := .word) al h
    rwa [read, mask_word, Nat.xor_zero] at word

/-! ## The adapter: accesses (R48, R49) -/

section Writes

variable {o : HostOrder} {buf : ByteStore} {off : Nat} {w : Width} (v : Word) (al : off % bytesOf w = 0)
include al

theorem read_write_inside (wf : Memory.wf buf = true) (fits : off + bytesOf w ≤ 2 ^ 32) {i : Nat}
    (hi : i < bytesOf w) : Memory.read (write o buf off w v) (hostAddress o (off + i)) = byteOfValue v w i := by
  cases o with
  | bigEndian =>
    rw [hostAddress_big, write, mask_big, Nat.xor_zero]
    exact read_storeValue_inside wf fits v hi
  | littleEndian =>
    have inner : bytesOf w - 1 - (bytesOf w - 1 - i) = i := by omega
    rw [← masked_byte al hi, write, hostStore,
      Memory.read_writeBytes wf _ _ (by simpa using masked_fits al fits), if_pos (Nat.le_add_right _ _),
      Nat.add_sub_cancel_left, List.getElem?_reverse (by rw [bytesToStore_length]; omega), bytesToStore_length, inner,
      bytesToStore_getElem? v hi, Option.getD_some]

theorem read_write_outside {x : Nat} (hx : x < off ∨ off + bytesOf w ≤ x) :
    Memory.read (write o buf off w v) (hostAddress o x) = Memory.read buf (hostAddress o x) := by
  cases o with
  | bigEndian =>
    rw [hostAddress_big, write, mask_big, Nat.xor_zero]
    exact read_storeValue_outside buf v hx
  | littleEndian =>
    rw [write, hostStore]
    exact Memory.read_writeBytes_outside _ _ (by simpa using masked_outside al hx)

/-- A masked write stores what the write of R44 stores. -/
theorem represents_write {m : ByteStore} (rep : Represents o buf m) (wfBuf : Memory.wf buf = true)
    (wf : Memory.wf m = true) (fits : off + bytesOf w ≤ 2 ^ 32) :
    Represents o (write o buf off w v) (storeValue m off w v) := by
  rw [represents_iff] at rep ⊢
  intro x
  by_cases outside : x < off ∨ off + bytesOf w ≤ x
  · rw [read_write_outside v al outside, read_storeValue_outside m v outside, rep]
  · obtain ⟨i, rfl⟩ : ∃ i, x = off + i := ⟨x - off, by omega⟩
    have hi : i < bytesOf w := by omega
    rw [read_write_inside v al wfBuf fits hi, read_storeValue_inside wf fits v hi]

end Writes

/-- Settles O58: the buffer holds every architectural byte at its host address, before the write and after it. -/
theorem adapterLaw : Obligations.AdapterLaw := by
  intro o buf m wfBuf wf rep off w v al fits
  have written := represents_write v al rep wfBuf wf fits
  refine ⟨read_of_bytes al (represents_iff.1 rep), written, ?_⟩
  rw [read_of_bytes al (represents_iff.1 written), valueAt_storeValue wf fits]

end Sys2Proof.Machine.Adapter

namespace Sys2Proof.Machine

/-! ## What a device call keeps of the coprocessor (R193 to R195) -/

/-- What only a run may change of the coprocessor is unchanged: its registers and its microcode address; and so are the
registers' width, the size of the local memory and the interrupt's enable, which nothing but the core changes. -/
structure SameRegisters (v u : Vcop) : Prop where
  regs : u.regs = v.regs
  regWidth : u.regWidth = v.regWidth
  microPc : u.microPc = v.microPc
  localSize : u.localSize = v.localSize
  irqEnabled : u.irqEnabled = v.irqEnabled

/-- What no run changes either: as many registers, each below 2 ^ width when they were. -/
structure SameShape (v u : Vcop) : Prop where
  count : u.regs.length = v.regs.length
  regWidth : u.regWidth = v.regWidth
  localSize : u.localSize = v.localSize
  irqEnabled : u.irqEnabled = v.irqEnabled
  bounded : (∀ x ∈ v.regs, x < 2 ^ v.regWidth) → ∀ x ∈ u.regs, x < 2 ^ u.regWidth

theorem SameRegisters.refl (v : Vcop) : SameRegisters v v := ⟨rfl, rfl, rfl, rfl, rfl⟩

theorem SameRegisters.trans {v u w : Vcop} (h : SameRegisters v u) (k : SameRegisters u w) : SameRegisters v w where
  regs := k.regs.trans h.regs
  regWidth := k.regWidth.trans h.regWidth
  microPc := k.microPc.trans h.microPc
  localSize := k.localSize.trans h.localSize
  irqEnabled := k.irqEnabled.trans h.irqEnabled

theorem SameRegisters.shape {v u : Vcop} (h : SameRegisters v u) : SameShape v u where
  count := congrArg List.length h.regs
  regWidth := h.regWidth
  localSize := h.localSize
  irqEnabled := h.irqEnabled
  bounded := by rw [h.regs, h.regWidth]; exact id

theorem SameShape.trans {v u w : Vcop} (h : SameShape v u) (k : SameShape u w) : SameShape v w where
  count := k.count.trans h.count
  regWidth := k.regWidth.trans h.regWidth
  localSize := k.localSize.trans h.localSize
  irqEnabled := k.irqEnabled.trans h.irqEnabled
  bounded := k.bounded ∘ h.bounded

theorem withRegisters_sameShape (v : Vcop) (regs : List Nat) (microPc : Nat) :
    SameShape v (v.withRegisters regs microPc) where
  count := takeRegisters_length _ _ _
  regWidth := rfl
  localSize := rfl
  irqEnabled := rfl
  bounded := fun h => takeRegisters_lt h regs

theorem dma_sameRegisters (s : State) (dir : DmaDir) (main loc len : Nat) :
    SameRegisters s.vcop (s.dma dir main loc len).vcop := by
  unfold State.dma
  split
  · cases dir <;> exact ⟨rfl, rfl, rfl, rfl, rfl⟩
  · exact ⟨rfl, rfl, rfl, rfl, rfl⟩

theorem windowStore_sameRegisters (s : State) (c : DevCall) : SameRegisters s.vcop (s.windowStore c).vcop := by
  rcases windowStore_cases s c with h | ⟨_, _, _, _, h⟩ <;> rw [h]
  · exact SameRegisters.refl _
  · exact ⟨rfl, rfl, rfl, rfl, rfl⟩

theorem registerDma_sameRegisters (s : State) (c : DevCall) : SameRegisters s.vcop (s.registerDma c).vcop := by
  rcases registerDma_cases s c with h | ⟨_, _, _, _, h⟩ <;> rw [h]
  · exact SameRegisters.refl _
  · exact dma_sameRegisters s _ _ _ _

theorem deviceAction_sameShape (s : State) (role : CallRole) (a : DevAction) :
    SameShape s.vcop (s.deviceAction role a).vcop := by
  rcases deviceAction_cases s role a with h | ⟨_, _, _, _, _, h⟩ | ⟨_, _, _, _, h⟩ | ⟨_, _, _, h⟩ | ⟨_, _, h⟩ <;> rw [h]
  · exact (SameRegisters.refl _).shape
  · exact (dma_sameRegisters s _ _ _ _).shape
  · exact SameRegisters.shape ⟨rfl, rfl, rfl, rfl, rfl⟩
  · exact withRegisters_sameShape _ _ _
  · exact SameRegisters.shape ⟨rfl, rfl, rfl, rfl, rfl⟩

theorem deviceActions_sameShape (s : State) (role : CallRole) (as : List DevAction) :
    SameShape s.vcop (s.deviceActions role as).vcop := by
  induction as generalizing s with
  | nil => exact (SameRegisters.refl _).shape
  | cons a as ih => exact (deviceAction_sameShape s role a).trans (ih _)

/-- Outside a run the microcode does nothing. -/
theorem deviceAction_sameRegisters (s : State) {role : CallRole} (noRun : role ≠ .run) (a : DevAction) :
    SameRegisters s.vcop (s.deviceAction role a).vcop := by
  rcases deviceAction_cases s role a with h | ⟨_, _, _, _, _, h⟩ | ⟨run, _⟩ | ⟨run, _⟩ | ⟨_, _, h⟩
  · rw [h]; exact SameRegisters.refl _
  · rw [h]; exact dma_sameRegisters s _ _ _ _
  · exact absurd run noRun
  · exact absurd run noRun
  · rw [h]; exact ⟨rfl, rfl, rfl, rfl, rfl⟩

theorem deviceActions_sameRegisters (s : State) {role : CallRole} (noRun : role ≠ .run) (as : List DevAction) :
    SameRegisters s.vcop (s.deviceActions role as).vcop := by
  induction as generalizing s with
  | nil => exact SameRegisters.refl _
  | cons a as ih => exact (deviceAction_sameRegisters s noRun a).trans (ih _)

/-- A call that can start neither a run nor a request of the device leaves both memories alone. -/
theorem deviceAction_plain_memory (s : State) (a : DevAction) :
    (s.deviceAction .plain a).mem = s.mem ∧ (s.deviceAction .plain a).vcop.localMem = s.vcop.localMem := by
  rcases deviceAction_cases s .plain a with h | ⟨plain, _⟩ | ⟨run, _⟩ | ⟨run, _⟩ | ⟨_, _, h⟩
  · rw [h]; exact ⟨rfl, rfl⟩
  · exact absurd rfl plain
  · cases run
  · cases run
  · rw [h]; exact ⟨rfl, rfl⟩

theorem deviceActions_plain_memory (s : State) (as : List DevAction) :
    (s.deviceActions .plain as).mem = s.mem ∧ (s.deviceActions .plain as).vcop.localMem = s.vcop.localMem := by
  induction as generalizing s with
  | nil => exact ⟨rfl, rfl⟩
  | cons a as ih =>
    obtain ⟨mem, loc⟩ := deviceAction_plain_memory s a
    obtain ⟨mem', loc'⟩ := ih (s.deviceAction .plain a)
    exact ⟨mem'.trans mem, loc'.trans loc⟩

/-! ## The record of calls (R62) -/

@[simp] theorem dma_dev (s : State) (dir : DmaDir) (main loc len : Nat) : (s.dma dir main loc len).dev = s.dev := by
  unfold State.dma
  split
  · cases dir <;> rfl
  · rfl

@[simp] theorem deviceAction_dev (s : State) (role : CallRole) (a : DevAction) :
    (s.deviceAction role a).dev = s.dev := by
  rcases deviceAction_cases s role a with h | ⟨_, _, _, _, _, h⟩ | ⟨_, _, _, _, h⟩ | ⟨_, _, _, h⟩ | ⟨_, _, h⟩ <;> rw [h]
  · exact dma_dev s _ _ _ _
  · rfl

@[simp] theorem deviceActions_dev (s : State) (role : CallRole) (as : List DevAction) :
    (s.deviceActions role as).dev = s.dev := by
  induction as generalizing s with
  | nil => rfl
  | cons a as ih => exact (ih _).trans (deviceAction_dev s role a)

@[simp] theorem windowStore_dev (s : State) (c : DevCall) : (s.windowStore c).dev = s.dev := by
  rcases windowStore_cases s c with h | ⟨_, _, _, _, h⟩ <;> rw [h]
  rfl

@[simp] theorem registerDma_dev (s : State) (c : DevCall) : (s.registerDma c).dev = s.dev := by
  rcases registerDma_cases s c with h | ⟨_, _, _, _, h⟩ <;> rw [h]
  exact dma_dev s _ _ _ _

/-! ## The call as the coprocessor takes it -/

/-- The call on record and in the coprocessor's registers, before its window store and its DMA request. -/
def State.recordCall (s : State) (c : DevCall) : State :=
  State.latchRegisters { s with dev := c :: s.dev, draws := s.draws + 1 } c

theorem takeCall_eq (s : State) (c : DevCall) : s.takeCall c = ((s.recordCall c).windowStore c).registerDma c := rfl

@[simp] theorem takeCall_dev (s : State) (c : DevCall) : (s.takeCall c).dev = c :: s.dev := by
  simp [takeCall_eq, State.recordCall]

/-- Once a call is on record, its window store and its DMA request touch none of the coprocessor's registers. -/
theorem takeCall_sameRegisters (s : State) (c : DevCall) :
    SameRegisters (s.recordCall c).vcop (s.takeCall c).vcop :=
  (windowStore_sameRegisters _ c).trans (registerDma_sameRegisters _ c)

/-- A call that writes no start of a request to the DMA registers makes its window store, and no more. -/
theorem takeCall_of_no_request {s : State} {c : DevCall}
    (noRequest : ∀ l, s.par.vcopRegs.dma = some l → l.started c = none) :
    s.takeCall c = (s.recordCall c).windowStore c := by
  rw [takeCall_eq]
  rcases registerDma_cases ((s.recordCall c).windowStore c) c with h | ⟨l, dir, hl, started, _⟩
  · exact h
  · rw [(windowStore_sameCore (s.recordCall c) c).par] at hl
    rw [noRequest l hl] at started
    cases started

/-! ## Windows of the local memory (R42) -/

/-- Where an access lies in a window and inside the local memory, the window's own offset is its local address. -/
theorem windowAccess_of_window {s : State} {c : DevCall} {r : Region} (h : resolve s.par.regionMap c.addr = some r)
    (hk : r.kind = .coprocLocal) (inside : offsetIn r c.addr + bytesOf c.width ≤ s.vcop.localSize) :
    s.windowAccess c = some (offsetIn r c.addr) := by
  have offset : s.windowOffset c.addr = some (offsetIn r c.addr) := windowOffset_eq_some.2 ⟨r, h, hk, rfl⟩
  simp [State.windowAccess, offset, inside]

theorem windowAccess_of_no_window {s : State} {c : DevCall}
    (h : ∀ r, resolve s.par.regionMap c.addr = some r → r.kind ≠ .coprocLocal) : s.windowAccess c = none := by
  simp [State.windowAccess, windowOffset_eq_none.2 h]

theorem windowStore_mem (s : State) (c : DevCall) : (s.windowStore c).mem = s.mem := by
  rcases windowStore_cases s c with h | ⟨_, _, _, _, h⟩ <;> rw [h]
  rfl

theorem windowStore_of_no_window {s : State} {c : DevCall} (h : s.windowAccess c = none) : s.windowStore c = s := by
  rcases windowStore_cases s c with k | ⟨_, _, _, ho, _⟩
  · exact k
  · rw [h] at ho; cases ho

theorem windowStore_of_read {s : State} {c : DevCall} (h : c.write = none) : s.windowStore c = s := by
  simp [State.windowStore, h]

theorem windowStore_of_write {s : State} {c : DevCall} {o : Nat} {v : Word} (hw : c.write = some v)
    (ho : s.windowAccess c = some o) : s.windowStore c = s.storeLocal o (bytesToStore v c.width) := by
  simp [State.windowStore, hw, ho]

/-! ## The role of a call (R193, R194) -/

theorem callRole_ne_run {s : State} {c : DevCall} (h : startsRun s.par c = false) : s.callRole c ≠ .run := by
  rw [State.callRole, if_neg (by simp [h])]
  split <;> nofun

theorem callRole_of_window {s : State} {c : DevCall} {o : Nat} (h : startsRun s.par c = false)
    (ho : s.windowOffset c.addr = some o) : s.callRole c = .plain := by
  simp [State.callRole, h, ho]

theorem callRole_of_dma_registers {s : State} {c : DevCall} (h : startsRun s.par c = false)
    (hd : s.par.vcopRegs.dma ≠ none) : s.callRole c = .plain := by
  simp [State.callRole, h, hd]

/-! ## The value of a device read (R42, R55, R193, R194) -/

theorem replyValue_of_window {s : State} {c : DevCall} {o : Nat} (h : s.windowAccess c = some o) (reply : DevReply) :
    s.replyValue c reply = valueAt s.vcop.localMem o c.width := by
  simp [State.replyValue, h]

theorem replyValue_of_status {s : State} {c : DevCall} {l : StatusLayout} (h : s.windowAccess c = none)
    (hl : s.par.vcopRegs.status = some l) (addr : c.addr = l.addr) (word : c.width = .word) (reply : DevReply) :
    s.replyValue c reply = l.value s.vcop reply.value := by
  simp [State.replyValue, h, hl, addr, word]

theorem replyValue_elsewhere {s : State} {c : DevCall} (h : s.windowAccess c = none)
    (other : ∀ l, s.par.vcopRegs.status = some l → c.addr ≠ l.addr) (reply : DevReply) :
    s.replyValue c reply = lowBits c.width reply.value := by
  unfold State.replyValue
  rw [h]
  cases hl : s.par.vcopRegs.status with
  | none => rfl
  | some l => exact if_neg fun ⟨addr, _⟩ => other l hl addr

theorem statusValue_getLsbD (l : StatusLayout) (v : Vcop) (rest : Word) (i : Fin 32) :
    (l.value v rest).getLsbD i.val =
      if i = l.failBit then v.dmaError else if i = l.doneBit then v.done else rest.getLsbD i.val := by
  rw [StatusLayout.value, setBit_getLsbD, setBit_getLsbD]

/-! ## After the call -/

/-- The state that the device's actions leave. -/
def State.afterActions (s : State) (c : DevCall) (reply : DevReply) : State :=
  (s.takeCall c).deviceActions (s.callRole c) reply.actions

theorem afterDeviceCall_of_run {s : State} {c : DevCall} (h : startsRun s.par c = true) (reply : DevReply) :
    s.afterDeviceCall c reply =
      { (s.afterActions c reply).completeRun ((s.afterActions c reply).runIrqEnabled reply) with
        int := reply.int } := by
  simp [State.afterDeviceCall, h, State.afterActions]

theorem afterDeviceCall_of_no_run {s : State} {c : DevCall} (h : startsRun s.par c = false) (reply : DevReply) :
    s.afterDeviceCall c reply = { s.afterActions c reply with int := reply.int } := by
  simp [State.afterDeviceCall, h, State.afterActions]

theorem afterActions_sameCore (s : State) (c : DevCall) (reply : DevReply) : SameCore s (s.afterActions c reply) :=
  (takeCall_sameCore s c).trans (deviceActions_sameCore _ _ _)

theorem afterActions_sameShape (s : State) (c : DevCall) (reply : DevReply) :
    SameShape (s.recordCall c).vcop (s.afterActions c reply).vcop :=
  (takeCall_sameRegisters s c).shape.trans (deviceActions_sameShape _ _ _)

theorem afterDeviceCall_dev (s : State) (c : DevCall) (reply : DevReply) :
    (s.afterDeviceCall c reply).dev = c :: s.dev := by
  have actions : (s.afterActions c reply).dev = c :: s.dev := by simp [State.afterActions]
  cases run : startsRun s.par c with
  | true => rw [afterDeviceCall_of_run run]; exact actions
  | false => rw [afterDeviceCall_of_no_run run]; exact actions

theorem afterDeviceCall_int (s : State) (c : DevCall) (reply : DevReply) :
    (s.afterDeviceCall c reply).int = reply.int := rfl

/-- What no call changes of the coprocessor, a run's completion included. -/
theorem afterDeviceCall_sameShape (s : State) (c : DevCall) (reply : DevReply) :
    SameShape (s.recordCall c).vcop (s.afterDeviceCall c reply).vcop := by
  refine (afterActions_sameShape s c reply).trans ?_
  cases run : startsRun s.par c with
  | true => rw [afterDeviceCall_of_run run]; exact SameRegisters.shape ⟨rfl, rfl, rfl, rfl, rfl⟩
  | false => rw [afterDeviceCall_of_no_run run]; exact (SameRegisters.refl _).shape

/-! ## A run (R193) -/

/-- The interrupt of the run that this call starts is enabled, by the enable's field as the call leaves it, or where
`VCOP_REGS` has none, by the device. -/
theorem runIrqEnabled_afterActions {s : State} {c : DevCall} {reply : DevReply}
    (enabled : match s.par.vcopRegs.irqEnable with
      | none => reply.irqEnable = true
      | some f => (f.written c).getD s.vcop.irqEnabled.toNat ≠ 0) :
    (s.afterActions c reply).runIrqEnabled reply = true := by
  have par := (afterActions_sameCore s c reply).par
  have kept : (s.afterActions c reply).vcop.irqEnabled = (s.recordCall c).vcop.irqEnabled :=
    (afterActions_sameShape s c reply).irqEnabled
  cases hf : s.par.vcopRegs.irqEnable with
  | none =>
    rw [hf] at enabled
    simpa [State.runIrqEnabled, par, hf] using enabled
  | some f =>
    rw [hf] at enabled
    have latched : (s.recordCall c).vcop.irqEnabled = true := by
      simpa [State.recordCall, Vcop.latchRegisters, hf, latch] using enabled
    simpa [State.runIrqEnabled, par, hf, kept] using latched

theorem intLevels_of_irq {s : State} {l : Fin 6} (line : s.par.vcopIrqLine = some l) (irq : s.vcop.irq = true) :
    s.intLevels.getLsbD l.val = true := by
  simp [State.intLevels, State.vcopLine, line, irq]

theorem afterDeviceCall_done {s : State} {c : DevCall} (run : startsRun s.par c = true) (reply : DevReply) :
    (s.afterDeviceCall c reply).vcop.done = true := by
  rw [afterDeviceCall_of_run run]
  rfl

theorem afterDeviceCall_irq {s : State} {c : DevCall} {reply : DevReply} (run : startsRun s.par c = true)
    (enabled : (s.afterActions c reply).runIrqEnabled reply = true) : (s.afterDeviceCall c reply).vcop.irq = true := by
  rw [afterDeviceCall_of_run run, enabled]
  exact Bool.or_true _

/-! ## Outside a run (R195) -/

section OutsideRun

variable {s : State} {c : DevCall} (reply : DevReply) (noRun : startsRun s.par c = false)
include noRun

theorem afterDeviceCall_sameRegisters : SameRegisters (s.recordCall c).vcop (s.afterDeviceCall c reply).vcop := by
  rw [afterDeviceCall_of_no_run noRun]
  exact (takeCall_sameRegisters s c).trans (deviceActions_sameRegisters _ (callRole_ne_run noRun) _)

/-- A call that starts nothing in either memory leaves them as its window store leaves them. -/
theorem afterDeviceCall_plain_memory (plain : s.callRole c = .plain)
    (noRequest : ∀ l, s.par.vcopRegs.dma = some l → l.started c = none) :
    (s.afterDeviceCall c reply).mem = s.mem ∧
      (s.afterDeviceCall c reply).vcop.localMem = ((s.recordCall c).windowStore c).vcop.localMem := by
  rw [afterDeviceCall_of_no_run noRun, State.afterActions, plain, takeCall_of_no_request noRequest]
  obtain ⟨mem, loc⟩ := deviceActions_plain_memory ((s.recordCall c).windowStore c) reply.actions
  exact ⟨mem.trans (windowStore_mem _ c), loc⟩

end OutsideRun

/-- The local memory after the store of a call through a window. -/
theorem windowStore_localMem {s : State} {c : DevCall} {o : Nat} (ho : s.windowAccess c = some o) :
    (s.windowStore c).vcop.localMem =
      match c.write with
      | none => s.vcop.localMem
      | some v => storeValue s.vcop.localMem o c.width v := by
  cases hw : c.write with
  | none => rw [windowStore_of_read hw]
  | some v => rw [windowStore_of_write hw ho]; rfl

/-! ## The law of device calls -/

theorem answerCall_fault {s : State} {c : DevCall} {reply : DevReply} (h : reply.fault = true) :
    s.answerCall c reply = .busError { s with dev := c :: s.dev, draws := s.draws + 1 } := by
  simp [State.answerCall, h]

theorem answerCall_ok {s : State} {c : DevCall} {reply : DevReply} (h : reply.fault = false) :
    s.answerCall c reply = .ok (s.replyValue c reply) (s.afterDeviceCall c reply) := by
  simp [State.answerCall, h]

/-- Settles O57: what the spec fixes about a call is done on record, in the coprocessor's registers and through the
window; the device's own actions stay within the role of the call, and a run is completed last. -/
theorem deviceCallsAndRuns : Obligations.DeviceCallsAndRuns := by
  intro s c reply
  have shape := afterDeviceCall_sameShape s c reply
  refine ⟨answerCall_fault, fun ok => ⟨_, _, answerCall_ok ok, afterDeviceCall_sameCore s c reply,
    afterDeviceCall_dev s c reply, afterDeviceCall_int s c reply, fun r hr hk inside => ?window,
    fun noWindow => ⟨fun l hl addr word distinct => ?status, fun other => ?other⟩, fun run => ?run,
    fun noRun => ?noRun, shape.localSize, shape.regWidth, shape.count, shape.bounded⟩⟩
  case window => exact replyValue_of_window (windowAccess_of_window hr hk inside) reply
  case status =>
    rw [replyValue_of_status (windowAccess_of_no_window noWindow) hl addr word]
    refine ⟨?_, ?_, fun i notDone notFail => ?_⟩ <;> rw [statusValue_getLsbD]
    · rw [if_neg distinct, if_pos rfl]
    · rw [if_pos rfl]
    · rw [if_neg notFail, if_neg notDone]
  case other => exact replyValue_elsewhere (windowAccess_of_no_window noWindow) other reply
  case run =>
    refine ⟨afterDeviceCall_done run reply, fun enabled => ?_⟩
    have irq := afterDeviceCall_irq run (runIrqEnabled_afterActions enabled)
    refine ⟨irq, fun l line => intLevels_of_irq ?_ irq⟩
    rw [(afterDeviceCall_sameCore s c reply).par, line]
  case noRun =>
    have same := afterDeviceCall_sameRegisters reply noRun
    refine ⟨same.regs, same.microPc, fun noRequest => ⟨fun r hr hk inside => ?_, fun dmaRegisters noWindow => ?_⟩⟩
    · have plain := callRole_of_window noRun (windowOffset_eq_some.2 ⟨r, hr, hk, rfl⟩)
      obtain ⟨mem, loc⟩ := afterDeviceCall_plain_memory reply noRun plain noRequest
      exact ⟨mem, loc.trans (windowStore_localMem (windowAccess_of_window hr hk inside))⟩
    · have plain := callRole_of_dma_registers noRun dmaRegisters
      obtain ⟨mem, loc⟩ := afterDeviceCall_plain_memory reply noRun plain noRequest
      have noStore : (s.recordCall c).windowStore c = s.recordCall c :=
        windowStore_of_no_window (windowAccess_of_no_window noWindow)
      exact ⟨mem, by rw [loc, noStore]; rfl⟩

end Sys2Proof.Machine
end

