-- ==== Sys2Proof/Proofs/Encoding.lean ====
section
/-! 30_encoding.md: the decoder against the encoder and against the opcode table. A word is decoded by its `op`, and in
the maps SPECIAL, REGIMM and COP0 by one more field (R76 to R80); the fields the instruction has are its operands, and
the bits that are neither are ignored (R72, R83). -/

namespace Sys2Proof

/-! ## The maps (R77) -/

section Maps
variable {w : Word}

theorem decode_special (op : opOf w = 0x00#6) : decode w = decodeSpecial w := by rw [decode, op]; rfl

theorem decode_regimm (op : opOf w = 0x01#6) : decode w = decodeRegimm w := by rw [decode, op]; rfl

theorem decode_cop0 (op : opOf w = 0x10#6) : decode w = decodeCop0 w := by rw [decode, op]; rfl

end Maps

/-! ## Decoding what was encoded -/

theorem decode_encode (i : Instr) : decode (encode i) = .instr i := by
  cases i with
  | sll | srl | sra | sllv | srlv | srav | jr | jalr | sync | mfhi | mthi | mflo | mtlo | mult | multu | div | divu
  | add | addu | sub | subu | and | or | xor | nor | slt | sltu =>
    rw [encode, decode_special (opOf_rWord _ _ _ _ _), decodeSpecial, functOf_rWord]
    exact congrArg Decoded.instr (by simp only [rsOf_rWord, rtOf_rWord, rdOf_rWord, saOf_rWord])
  | syscall | brk =>
    rw [encode, decode_special (opOf_specialCodeWord _ _), decodeSpecial, functOf_specialCodeWord]
    exact congrArg Decoded.instr (by simp only [code20Of_specialCodeWord])
  | tge | tgeu | tlt | tltu | teq | tne =>
    rw [encode, decode_special (opOf_trapWord _ _ _ _), decodeSpecial, functOf_trapWord]
    exact congrArg Decoded.instr (by simp only [rsOf_trapWord, rtOf_trapWord, code10Of_trapWord])
  | bltz | bgez | bltzal | bgezal | tgei | tgeiu | tlti | tltiu | teqi | tnei =>
    rw [encode, decode_regimm (opOf_iWord _ _ _ _), decodeRegimm, rtOf_iWord]
    exact congrArg Decoded.instr (by simp only [rsOf_iWord, immOf_iWord])
  | mfc0 | mtc0 =>
    rw [encode, decode_cop0 (opOf_cop0MoveWord _ _ _), decodeCop0, coOf_eq, rsOf_cop0MoveWord]
    exact congrArg Decoded.instr (by simp only [rtOf_cop0MoveWord, rdOf_cop0MoveWord])
  | rfe => rfl
  | addi | addiu | slti | sltiu | andi | ori | xori | lui | beq | bne | blez | bgtz | lb | lbu | lh | lhu | lw | lwl
  | lwr | sb | sh | sw | swl | swr | ll | sc =>
    rw [encode, decode, opOf_iWord]
    exact congrArg Decoded.instr (by simp only [rsOf_iWord, rtOf_iWord, immOf_iWord])
  | j | jal | cop1 | cop2 | cop3 | lwc1 | lwc2 | lwc3 | ldc1 | ldc2 | ldc3 | swc1 | swc2 | swc3 | sdc1 | sdc2 | sdc3 =>
    rw [encode, decode, opOf_jWord]
    exact congrArg Decoded.instr (by simp only [targetOf_jWord])

/-- Settles O12: each format's fields are read back from the word it builds. -/
theorem decodeOfEncode : Obligations.DecodeOfEncode := decode_encode

/-! ## A word as its fields -/

section Fields
variable {w : Word} {op : BitVec 6}

theorem iWord_of_fields (h : opOf w = op) : iWord op (rsOf w) (rtOf w) (immOf w) = w := by
  subst h
  simp (disch := decide) only [iWord, opOf, rsOf, rtOf, immOf, BitVec.extractLsb'_append_extractLsb'_eq_extractLsb',
    BitVec.extractLsb'_eq_self]

theorem jWord_of_fields (h : opOf w = op) : jWord op (targetOf w) = w := by
  subst h
  simp (disch := decide) only [jWord, opOf, targetOf, BitVec.extractLsb'_append_extractLsb'_eq_extractLsb',
    BitVec.extractLsb'_eq_self]

theorem rWord_of_fields (h : opOf w = 0x00#6) : rWord (rsOf w) (rtOf w) (rdOf w) (saOf w) (functOf w) = w := by
  rw [rWord, ← h]
  simp (disch := decide) only [opOf, rsOf, rtOf, rdOf, saOf, functOf,
    BitVec.extractLsb'_append_extractLsb'_eq_extractLsb', BitVec.extractLsb'_eq_self]

theorem specialCodeWord_of_fields (h : opOf w = 0x00#6) : specialCodeWord (code20Of w) (functOf w) = w := by
  rw [specialCodeWord, ← h]
  simp (disch := decide) only [opOf, code20Of, functOf, BitVec.extractLsb'_append_extractLsb'_eq_extractLsb',
    BitVec.extractLsb'_eq_self]

theorem trapWord_of_fields (h : opOf w = 0x00#6) : trapWord (rsOf w) (rtOf w) (code10Of w) (functOf w) = w := by
  rw [trapWord, ← h]
  simp (disch := decide) only [opOf, rsOf, rtOf, code10Of, functOf,
    BitVec.extractLsb'_append_extractLsb'_eq_extractLsb', BitVec.extractLsb'_eq_self]

end Fields

/-! ## What `usedBits` leaves of a word

Each lemma is named after the operands that its mask keeps. -/

theorem and_all (w : Word) : w &&& 0xFFFFFFFF#32 = w := BitVec.and_allOnes

/-! ### Words of SPECIAL -/

section Special
variable {w : Word} (op : opOf w = 0x00#6)
include op

/-- A mask that keeps `op` and `funct`, on the fields between them. -/
theorem and_rMask (rs rt rd : RegIdx) (sa : BitVec 5) :
    w &&& (BitVec.allOnes 6 ++ rs ++ rt ++ rd ++ sa ++ BitVec.allOnes 6) =
      rWord (rsOf w &&& rs) (rtOf w &&& rt) (rdOf w &&& rd) (saOf w &&& sa) (functOf w) := by
  conv => lhs; rw [← rWord_of_fields op]
  rw [rWord, BitVec.and_append (w := 26) (v := 6), BitVec.and_append (w := 21) (v := 5),
    BitVec.and_append (w := 16) (v := 5), BitVec.and_append (w := 11) (v := 5), BitVec.and_append,
    BitVec.and_allOnes, BitVec.and_allOnes]
  rfl

theorem and_rs_rt_rd : w &&& 0xFFFFF83F#32 = rWord (rsOf w) (rtOf w) (rdOf w) 0#5 (functOf w) :=
  (and_rMask op (.allOnes 5) (.allOnes 5) (.allOnes 5) 0#5).trans
    (by simp only [BitVec.and_allOnes, BitVec.and_zero])

theorem and_rt_rd_sa : w &&& 0xFC1FFFFF#32 = rWord 0#5 (rtOf w) (rdOf w) (saOf w) (functOf w) :=
  (and_rMask op 0#5 (.allOnes 5) (.allOnes 5) (.allOnes 5)).trans
    (by simp only [BitVec.and_allOnes, BitVec.and_zero])

theorem and_rs_rt : w &&& 0xFFFF003F#32 = rWord (rsOf w) (rtOf w) 0#5 0#5 (functOf w) :=
  (and_rMask op (.allOnes 5) (.allOnes 5) 0#5 0#5).trans
    (by simp only [BitVec.and_allOnes, BitVec.and_zero])

theorem and_rs_rd : w &&& 0xFFE0F83F#32 = rWord (rsOf w) 0#5 (rdOf w) 0#5 (functOf w) :=
  (and_rMask op (.allOnes 5) 0#5 (.allOnes 5) 0#5).trans
    (by simp only [BitVec.and_allOnes, BitVec.and_zero])

theorem and_rs : w &&& 0xFFE0003F#32 = rWord (rsOf w) 0#5 0#5 0#5 (functOf w) :=
  (and_rMask op (.allOnes 5) 0#5 0#5 0#5).trans (by simp only [BitVec.and_allOnes, BitVec.and_zero])

theorem and_rd : w &&& 0xFC00F83F#32 = rWord 0#5 0#5 (rdOf w) 0#5 (functOf w) :=
  (and_rMask op 0#5 0#5 (.allOnes 5) 0#5).trans (by simp only [BitVec.and_allOnes, BitVec.and_zero])

theorem and_sa : w &&& 0xFC0007FF#32 = rWord 0#5 0#5 0#5 (saOf w) (functOf w) :=
  (and_rMask op 0#5 0#5 0#5 (.allOnes 5)).trans (by simp only [BitVec.and_allOnes, BitVec.and_zero])

end Special

/-! ### Words of the primary map -/

section Primary
variable {w : Word} {op : BitVec 6} (h : opOf w = op)
include h

/-- A mask that keeps `op`, on the fields below it. -/
theorem and_iMask (rs rt : RegIdx) (imm : BitVec 16) :
    w &&& (BitVec.allOnes 6 ++ rs ++ rt ++ imm) = iWord op (rsOf w &&& rs) (rtOf w &&& rt) (immOf w &&& imm) := by
  conv => lhs; rw [← iWord_of_fields h]
  rw [iWord, BitVec.and_append (w := 16) (v := 16), BitVec.and_append (w := 11) (v := 5), BitVec.and_append,
    BitVec.and_allOnes]
  rfl

theorem and_rt_imm : w &&& 0xFC1FFFFF#32 = iWord op 0#5 (rtOf w) (immOf w) :=
  (and_iMask h 0#5 (.allOnes 5) (.allOnes 16)).trans (by simp only [BitVec.and_allOnes, BitVec.and_zero])

theorem and_rs_imm : w &&& 0xFFE0FFFF#32 = iWord op (rsOf w) 0#5 (immOf w) :=
  (and_iMask h (.allOnes 5) 0#5 (.allOnes 16)).trans (by simp only [BitVec.and_allOnes, BitVec.and_zero])

theorem and_op : w &&& 0xFC000000#32 = jWord op 0#26 := (and_mask_op w).trans (by rw [h]; rfl)

end Primary

/-! ### Words of COP0 -/

theorem and_mask_op_rs_rt_rd (w : Word) : w &&& 0xFFFFF800#32 = opOf w ++ rsOf w ++ rtOf w ++ rdOf w ++ 0#11 := by
  apply BitVec.eq_of_getLsbD_eq
  intro i hi
  simp only [opOf, rsOf, rtOf, rdOf, BitVec.getLsbD_append, BitVec.getLsbD_and, BitVec.getLsbD_extractLsb']
  interval_cases i <;> simp

theorem and_mask_op_co_funct (w : Word) : w &&& 0xFE00003F#32 = opOf w ++ coOf w ++ 0#19 ++ functOf w := by
  apply BitVec.eq_of_getLsbD_eq
  intro i hi
  simp only [opOf, coOf, functOf, BitVec.getLsbD_append, BitVec.getLsbD_and, BitVec.getLsbD_extractLsb']
  interval_cases i <;> simp

/-! ## Encoding what was decoded -/

/-- `w` has the match of the row of `i`, and its bits that `i` uses are what `i` is encoded as. -/
structure Reads (w : Word) (i : Instr) : Prop where
  row : w &&& (tableRow i).2 = (tableRow i).1
  used : encode i = w &&& usedBits i

theorem decodeSpecial_reads {w : Word} {i : Instr} (op : opOf w = 0x00#6) (h : decodeSpecial w = .instr i) :
    Reads w i := by
  unfold decodeSpecial at h
  split at h <;> cases h <;> rename_i funct
  all_goals
    constructor
    · simp only [tableRow, and_mask_op_funct, op, funct, BitVec.reduceAppend]
    · simp only [encode, usedBits, ← funct, and_all, and_rs_rt_rd op, and_rt_rd_sa op, and_rs_rt op, and_rs_rd op,
        and_rs op, and_rd op, and_sa op, specialCodeWord_of_fields op, trapWord_of_fields op]

theorem decodeRegimm_reads {w : Word} {i : Instr} (op : opOf w = 0x01#6) (h : decodeRegimm w = .instr i) :
    Reads w i := by
  unfold decodeRegimm at h
  split at h <;> cases h <;> rename_i rt
  all_goals
    constructor
    · simp only [tableRow, and_mask_op_rt, op, rt, BitVec.reduceAppend]
    · simp only [encode, usedBits, and_all, ← rt, iWord_of_fields op]

theorem decodeCop0_reads {w : Word} {i : Instr} (op : opOf w = 0x10#6) (h : decodeCop0 w = .instr i) :
    Reads w i := by
  unfold decodeCop0 at h
  split at h
  · split at h <;> cases h <;> rename_i rs
    all_goals
      constructor
      · simp only [tableRow, and_mask_op_rs, op, rs, BitVec.reduceAppend]
      · simp only [encode, usedBits, and_mask_op_rs_rt_rd, op, rs, cop0MoveWord]
  · next notMove =>
    have co : coOf w = 1#1 := by
      generalize coOf w = c at notMove
      revert c
      decide
    split at h <;> cases h
    next funct =>
    have used : w &&& 0xFE00003F#32 = encode .rfe := by rw [and_mask_op_co_funct, op, co, funct]; rfl
    exact ⟨used, used.symm⟩

theorem decode_reads {w : Word} {i : Instr} (h : decode w = .instr i) : Reads w i := by
  unfold decode at h
  split at h
  next op => exact decodeSpecial_reads op h
  next op => exact decodeRegimm_reads op h
  next op => exact decodeCop0_reads op h
  all_goals cases h
  all_goals
    rename_i op
    constructor
    · simp only [tableRow, and_mask_op, op, BitVec.reduceAppend]
    · simp only [encode, usedBits, and_all, iWord_of_fields op, jWord_of_fields op, and_rt_imm op, and_rs_imm op,
        and_op op]

/-- Settles O13, by the map that decodes the word. -/
theorem encodeOfDecode : Obligations.EncodeOfDecode := fun _ _ h => (decode_reads h).used

/-! ## The opcode table -/

/-- A field that a mask keeps is the same in a word and in what the mask leaves of it. -/
theorem field_of_and_mask {w mask m : Word} {start len : Nat} (h : w &&& mask = m)
    (kept : mask.extractLsb' start len = BitVec.allOnes len) : w.extractLsb' start len = m.extractLsb' start len := by
  rw [← h, BitVec.extractLsb'_and, kept, BitVec.and_allOnes]

/-- A word with the match of a row has the fields that select the row in its map. -/
theorem decode_of_row {w : Word} {i : Instr} (h : w &&& (tableRow i).2 = (tableRow i).1) :
    ∃ j, decode w = .instr j ∧ tableRow j = tableRow i := by
  cases i with
  | sll | srl | sra | sllv | srlv | srav | jr | jalr | sync | mfhi | mthi | mflo | mtlo | mult | multu | div | divu
  | add | addu | sub | subu | and | or | xor | nor | slt | sltu | syscall | brk | tge | tgeu | tlt | tltu | teq | tne =>
    dsimp only [tableRow] at h
    have op : opOf w = 0x00#6 := field_of_and_mask h rfl
    have funct : functOf w = _ := field_of_and_mask h rfl
    rw [decode_special op, decodeSpecial, funct]
    exact ⟨_, rfl, rfl⟩
  | bltz | bgez | bltzal | bgezal | tgei | tgeiu | tlti | tltiu | teqi | tnei =>
    dsimp only [tableRow] at h
    have op : opOf w = 0x01#6 := field_of_and_mask h rfl
    have rt : rtOf w = _ := field_of_and_mask h rfl
    rw [decode_regimm op, decodeRegimm, rt]
    exact ⟨_, rfl, rfl⟩
  | mfc0 | mtc0 =>
    dsimp only [tableRow] at h
    have op : opOf w = 0x10#6 := field_of_and_mask h rfl
    have co : coOf w = 0#1 := field_of_and_mask h rfl
    have rs : rsOf w = _ := field_of_and_mask h rfl
    rw [decode_cop0 op, decodeCop0, co, rs]
    exact ⟨_, rfl, rfl⟩
  | rfe =>
    dsimp only [tableRow] at h
    have op : opOf w = 0x10#6 := field_of_and_mask h rfl
    have co : coOf w = 1#1 := field_of_and_mask h rfl
    have funct : functOf w = 0x10#6 := field_of_and_mask h rfl
    rw [decode_cop0 op, decodeCop0, co, funct]
    exact ⟨_, rfl, rfl⟩
  | addi | addiu | slti | sltiu | andi | ori | xori | lui | beq | bne | blez | bgtz | lb | lbu | lh | lhu | lw | lwl
  | lwr | sb | sh | sw | swl | swr | ll | sc | j | jal | cop1 | cop2 | cop3 | lwc1 | lwc2 | lwc3 | ldc1 | ldc2 | ldc3
  | swc1 | swc2 | swc3 | sdc1 | sdc2 | sdc3 =>
    dsimp only [tableRow] at h
    have op : opOf w = _ := field_of_and_mask h rfl
    rw [decode, op]
    exact ⟨_, rfl, rfl⟩

/-- Settles O14: a decoded word has its row's match, and a row's match decides the decoding. -/
theorem decodeFollowsOpcodeTable : Obligations.DecodeFollowsOpcodeTable := fun _ =>
  ⟨fun _ h => (decode_reads h).row, fun _ => decode_of_row⟩

/-- Settles O15, by running the decoder. -/
theorem knownWords : Obligations.KnownWords := by
  unfold Obligations.KnownWords
  decide

end Sys2Proof

namespace Sys2Proof.Machine

/-! ## Reserved words (R81) -/

theorem execWord_of_reserved {w : Word} (h : decode w = .reserved) (s : State) :
    execWord w s = .next (s.enter .ri) := by
  rw [execWord, h]
  exact raise_eq .ri s

/-- Settles O16: the step executes the word it fetched. -/
theorem reservedWordRaisesRi : Obligations.ReservedWordRaisesRi := fun _ h =>
  ⟨execWord_of_reserved h, fun _ t run noInt fetched =>
    (step_of_fetch_word run noInt fetched).trans (execWord_of_reserved h t)⟩

end Sys2Proof.Machine
end

