-- ==== Sys2Proof/Proofs/Alu.lean ====
section
/-! 40_alu.md: the words of the arithmetic, logic, shift, multiply, divide and HI/LO instructions, and what each of them
writes. The model computes with operations of `BitVec`; the rules speak of the integers the registers stand for, so each
section first says what an operation is as arithmetic. -/

namespace Sys2Proof.Machine

/-- A result written, under any name for its value. -/
theorem writeResult_of_eq {v x : Word} (h : v = x) (r : RegIdx) (s : State) :
    writeResult r v s = .next (s.setReg r x).advance := by
  rw [h, writeResult_eq]

/-! ## Sums, differences and comparisons (R91 to R107) -/

section Arithmetic

variable {w : Nat} (x y : BitVec w)

theorem add_eq_ofNat : x + y = BitVec.ofNat w (x.toNat + y.toNat) := by simp [BitVec.ofNat_add]

theorem add_eq_ofInt : x + y = BitVec.ofInt w (x.toInt + y.toInt) := by simp [BitVec.ofInt_add]

theorem sub_eq_ofInt : x - y = BitVec.ofInt w ((x.toNat : Int) - y.toNat) := by
  rw [Int.sub_eq_add_neg, BitVec.ofInt_add, BitVec.ofInt_neg]
  simp [BitVec.sub_eq_add_neg]

end Arithmetic

theorem boolWord_ltSigned (x y : Word) : boolWord (ltSigned x y) = if x.toInt < y.toInt then 1#32 else 0#32 :=
  boolWord_of_iff (ltSigned_iff x y)

theorem boolWord_ltUnsigned (x y : Word) : boolWord (ltUnsigned x y) = if x.toNat < y.toNat then 1#32 else 0#32 :=
  boolWord_of_iff (ltUnsigned_iff x y)

/-- Settles O17: the wrapped sum and difference and the two comparisons, as arithmetic. -/
theorem aluRegisterResults : Obligations.AluRegisterResults := by
  intro rd rs rt s
  refine ⟨fun sa => ?decoding, ?addu, ?subu, rfl, rfl, rfl, rfl, ?slt, ?sltu⟩
  case decoding => simp [decode, decodeSpecial]
  case addu => exact writeResult_of_eq (add_eq_ofNat _ _) rd s
  case subu => exact writeResult_of_eq (sub_eq_ofInt _ _) rd s
  case slt => exact writeResult_of_eq (boolWord_ltSigned _ _) rd s
  case sltu => exact writeResult_of_eq (boolWord_ltUnsigned _ _) rd s

/-- Settles O19: the sign-extended immediate is the same integer. -/
theorem aluImmediateResults : Obligations.AluImmediateResults := by
  intro rt rs imm s
  refine ⟨?decoding, ?addiu, ?slti, ?sltiu, rfl, rfl, rfl, rfl⟩
  case decoding => simp [decode]
  case addiu => exact writeResult_of_eq ((add_eq_ofInt _ _).trans (by rw [simm_toInt])) rt s
  case slti => exact writeResult_of_eq ((boolWord_ltSigned _ _).trans (by rw [simm_toInt])) rt s
  case sltiu => exact writeResult_of_eq (boolWord_ltUnsigned _ _) rt s

/-! ## Overflow (R90, R92, R100) -/

theorem writeOrOverflow_of_fits (r : RegIdx) (s : State) {n : Int} (h : -2 ^ 31 ≤ n ∧ n ≤ 2 ^ 31 - 1) :
    writeOrOverflow r n s = .next (s.setReg r (BitVec.ofInt 32 n)).advance := by
  rw [writeOrOverflow_eq, if_neg fun o => (overflows_iff n).1 o h]

theorem writeOrOverflow_of_overflow (r : RegIdx) (s : State) {n : Int} (h : ¬(-2 ^ 31 ≤ n ∧ n ≤ 2 ^ 31 - 1)) :
    writeOrOverflow r n s = .next (s.enter .ov) := by
  rw [writeOrOverflow_eq, if_pos ((overflows_iff n).2 h)]

theorem exec_addi_eq (rt rs : RegIdx) (imm : BitVec 16) (s : State) :
    exec (.addi rt rs imm) s = writeOrOverflow rt ((s.reg rs).toInt + imm.toInt) s := by
  rw [exec_addi, execAddi, signedSum, simm_toInt]

/-- Settles O18: ADD, SUB and ADDI are one shape, which writes an integer that fits and raises Ov for one that does
not. -/
theorem overflowTraps : Obligations.OverflowTraps := by
  intro rd rs rt imm s
  refine ⟨fun sa => ?decoding, writeOrOverflow_of_fits rd s, writeOrOverflow_of_overflow rd s,
    writeOrOverflow_of_fits rd s, writeOrOverflow_of_overflow rd s, ?addi⟩
  case decoding => simp [decode, decodeSpecial]
  case addi =>
    rw [exec_addi_eq]
    exact ⟨writeOrOverflow_of_fits rt s, writeOrOverflow_of_overflow rt s⟩

/-! ## Shifts (R108 to R113) -/

section Shifts

variable {w : Nat} (x : BitVec w) (n : Nat)

theorem shiftLeft_eq_ofNat : x <<< n = BitVec.ofNat w (x.toNat * 2 ^ n) :=
  BitVec.eq_of_toNat_eq (by simp [Nat.shiftLeft_eq])

theorem ushiftRight_eq_ofNat : x >>> n = BitVec.ofNat w (x.toNat / 2 ^ n) := by
  rw [← Nat.shiftRight_eq_div_pow, ← BitVec.toNat_ushiftRight, BitVec.ofNat_toNat, BitVec.setWidth_eq]

theorem sshiftRight_eq_ofInt : x.sshiftRight n = BitVec.ofInt w (x.toInt / 2 ^ n) := by
  rw [BitVec.sshiftRight, Int.shiftRight_eq_div_pow]
  simp

end Shifts

/-- Settles O20: the variable shifts take `x[rs]` mod 32 where the others take `sa`. -/
theorem shiftResults : Obligations.ShiftResults := by
  intro rd rt rs sa s
  have amount : varShift (s.reg rs) = (s.reg rs).toNat % 32 := varShift_eq _
  refine ⟨?decoding, ?sll, ?srl, ?sra, ?sllv, ?srlv, ?srav⟩
  case decoding => simp [decode, decodeSpecial]
  case sll => exact writeResult_of_eq (shiftLeft_eq_ofNat _ _) rd s
  case srl => exact writeResult_of_eq (ushiftRight_eq_ofNat _ _) rd s
  case sra => exact writeResult_of_eq (sshiftRight_eq_ofInt _ _) rd s
  case sllv => exact writeResult_of_eq (amount ▸ shiftLeft_eq_ofNat _ _) rd s
  case srlv => exact writeResult_of_eq (amount ▸ ushiftRight_eq_ofNat _ _) rd s
  case srav => exact writeResult_of_eq (amount ▸ sshiftRight_eq_ofInt _ _) rd s

/-! ## Products (R114, R115) -/

/-- A doubleword is its upper half above its lower half. -/
theorem halves_append (p : BitVec 64) : p.extractLsb' 32 32 ++ p.extractLsb' 0 32 = p := by
  rw [BitVec.extractLsb'_append_extractLsb'_eq_extractLsb' (by rfl), BitVec.extractLsb'_eq_self]

/-- The exact signed product fits in 64 bits signed. -/
theorem mulSigned_toInt (a b : Word) : ((mulSigned a b).1 ++ (mulSigned a b).2).toInt = a.toInt * b.toInt := by
  have upper : a.toInt * b.toInt ≤ 2 ^ 62 := BitVec.toInt_mul_toInt_le
  have lower : -2 ^ 62 ≤ a.toInt * b.toInt := BitVec.le_toInt_mul_toInt
  rw [mulSigned, halves_append, BitVec.toInt_ofInt_eq_self (by decide) (by omega) (by omega)]

theorem mulUnsigned_toNat (a b : Word) : ((mulUnsigned a b).1 ++ (mulUnsigned a b).2).toNat = a.toNat * b.toNat := by
  have fits : a.toNat * b.toNat < 2 ^ 64 := BitVec.toNat_mul_toNat_lt
  rw [mulUnsigned, halves_append, BitVec.toNat_ofNat, Nat.mod_eq_of_lt fits]

/-- Settles O21: both products fit in 64 bits. -/
theorem multiplyExactProduct : Obligations.MultiplyExactProduct := by
  intro rs rt s
  refine ⟨fun rd sa => ?decoding, ⟨_, rfl, rfl, mulSigned_toInt _ _⟩, ⟨_, rfl, rfl, mulUnsigned_toNat _ _⟩⟩
  simp [decode, decodeSpecial]

/-! ## Quotients and remainders (R116, R117) -/

section Division

variable {w : Nat} (a b : BitVec w)

theorem sdiv_eq_ofInt : a.sdiv b = BitVec.ofInt w (a.toInt.tdiv b.toInt) :=
  BitVec.eq_of_toInt_eq (by rw [BitVec.toInt_sdiv, BitVec.toInt_ofInt])

theorem srem_eq_ofInt : a.srem b = BitVec.ofInt w (a.toInt - a.toInt.tdiv b.toInt * b.toInt) := by
  rw [Int.mul_comm, ← Int.tmod_def, ← BitVec.toInt_srem, BitVec.ofInt_toInt]

theorem natAbs_srem_lt {b : BitVec w} (hb : b ≠ 0#w) : (a.srem b).toInt.natAbs < b.toInt.natAbs := by
  have nonzero : b.toInt ≠ 0 := fun h => hb (BitVec.toInt_inj.1 (h.trans BitVec.toInt_zero.symm))
  rw [BitVec.toInt_srem, Int.natAbs_tmod]
  exact Nat.mod_lt _ (Int.natAbs_pos.2 nonzero)

theorem srem_nonneg (ha : 0 ≤ a.toInt) : 0 ≤ (a.srem b).toInt := by
  rw [BitVec.toInt_srem]
  exact Int.tmod_nonneg _ ha

theorem srem_nonpos (ha : a.toInt ≤ 0) : (a.srem b).toInt ≤ 0 := by
  have h : 0 ≤ (-a.toInt).tmod b.toInt := Int.tmod_nonneg _ (by omega)
  rw [Int.neg_tmod] at h
  rw [BitVec.toInt_srem]
  omega

/-- The division law, for every quotient but the one that wraps. -/
theorem sdiv_mul_add_srem {a b : BitVec w} (h : ¬(a = BitVec.intMin w ∧ b = -1#w)) :
    (a.sdiv b).toInt * b.toInt + (a.srem b).toInt = a.toInt := by
  rw [BitVec.toInt_sdiv_of_ne_or_ne a b (not_and_or.1 h), BitVec.toInt_srem, Int.tdiv_mul_add_tmod]

end Division

theorem divSigned_of_ne_zero (a : Word) {b : Word} (hb : b ≠ 0#32) : divSigned a b = (a.srem b, a.sdiv b) := by
  rw [divSigned, if_neg hb, srem_eq_ofInt, sdiv_eq_ofInt]

theorem divUnsigned_of_ne_zero (a : Word) {b : Word} (hb : b ≠ 0#32) : divUnsigned a b = (a % b, a / b) := by
  rw [divUnsigned, if_neg hb, BitVec.umod_def, BitVec.udiv_def]

theorem writeHiLo_eq (p : Word × Word) (s : State) :
    writeHiLo p s = .next (State.advance { s with hi := p.1, lo := p.2 }) := rfl

/-- Settles O22: with a divisor other than 0, DIV and DIVU leave the quotient and the remainder of `BitVec`, whose laws
are those of the integers but for the signed quotient that wraps. -/
theorem divideResults : Obligations.DivideResults := by
  intro rs rt s
  refine ⟨fun rd sa => ?decoding, fun zero => ⟨?div0, ?divu0⟩, fun nonzero => ⟨?div, ?divu⟩⟩
  case decoding => simp [decode, decodeSpecial]
  case div0 => rw [exec_div, execDiv, divSigned, if_pos zero, writeHiLo_eq]
  case divu0 => rw [exec_divu, execDivu, divUnsigned, if_pos zero, writeHiLo_eq]
  case div =>
    rw [exec_div, execDiv, divSigned_of_ne_zero _ nonzero, writeHiLo_eq]
    refine ⟨_, rfl, rfl, sdiv_eq_ofInt _ _, srem_eq_ofInt _ _, fun noWrap => ⟨?_, natAbs_srem_lt _ nonzero,
      srem_nonneg _ _, srem_nonpos _ _⟩, fun ⟨ha, hb⟩ => ?_⟩
    · exact (sdiv_mul_add_srem noWrap).symm
    · rw [ha, hb]
      exact ⟨rfl, rfl⟩
  case divu =>
    rw [exec_divu, execDivu, divUnsigned_of_ne_zero _ nonzero, writeHiLo_eq]
    refine ⟨_, rfl, rfl, BitVec.udiv_def, BitVec.umod_def, ?_, ?_⟩
    · exact (Nat.div_add_mod' _ _).symm
    · exact Nat.mod_lt _ (Nat.pos_of_ne_zero fun h => nonzero (BitVec.eq_of_toNat_eq h))

/-! ## The moves of HI and LO (R118 to R121) -/

/-- Settles O23: each move is the write of one register, with the other of HI and LO written back. -/
theorem hiLoMoves : Obligations.HiLoMoves := by
  intro r s
  refine ⟨fun x y sa => ?decoding, rfl, rfl, rfl, rfl⟩
  simp [decode, decodeSpecial]

end Sys2Proof.Machine
end

