-- ==== Sys2Proof/Proofs/RegisterFrames.lean ====
section
/-! The frames of the instructions that reach no memory: those that write at most one general register, by the shape of
their meaning (40_alu.md R88, 41_control.md R123, 43_system_cop.md R157), and those that write HI, LO or a control
register (R114 to R121, R173, R174). -/

namespace Sys2Proof.Machine

/-! ## One general register and the sequencing -/

/-- `t` is `s` with at most the register `d` and the sequencing changed, W (R207) among it. -/
structure WritesOnly (d : Option RegIdx) (s t : State) : Prop where
  reg : ∀ q, d ≠ some q → t.reg q = s.reg q
  rest : t = { s with gpr := t.gpr, pc := t.pc, npc := t.npc, delay := t.delay, taken := t.taken, smcW := t.smcW }

theorem WritesOnly.sequence (d : Option RegIdx) (s : State) (isTransfer taken : Bool) (target : Word) :
    WritesOnly d s (s.sequence isTransfer taken target) where
  reg _ _ := rfl
  rest := rfl

theorem WritesOnly.setReg_sequence (r : RegIdx) (v : Word) (s : State) (isTransfer taken : Bool) (target : Word) :
    WritesOnly (some r) s ((s.setReg r v).sequence isTransfer taken target) where
  reg _ h := State.reg_setReg_of_ne s (fun e => h (congrArg some e.symm)) v
  rest := rfl

/-- When a meaning answers a next state, it entered an exception from the state before it, or wrote at most the register
`d`. -/
def WritesOnlyOrEnters (d : Option RegIdx) (s : State) (r : Result) : Prop :=
  ∀ t, r = .next t → (∃ e, t = s.enter e) ∨ WritesOnly d s t

section Shapes

variable (d : Option RegIdx) (s : State)

theorem raise_writesOnlyOrEnters (e : Exn) : WritesOnlyOrEnters d s (raise e s) := by
  rintro t ⟨⟩
  exact .inl ⟨e, rfl⟩

theorem fault_writesOnlyOrEnters (f : Fault) : WritesOnlyOrEnters d s (.fault f) := fun _ h => by cases h

theorem advance_writesOnlyOrEnters : WritesOnlyOrEnters d s (.next s.advance) := by
  rintro t ⟨⟩
  exact .inr (.sequence d s _ _ _)

theorem trapWhen_writesOnlyOrEnters (c : Bool) : WritesOnlyOrEnters d s (trapWhen c s) := by
  unfold trapWhen
  split
  · exact raise_writesOnlyOrEnters d s .tr
  · exact advance_writesOnlyOrEnters d s

theorem unlessInSlot_writesOnlyOrEnters {r : Result} (h : WritesOnlyOrEnters d s r) :
    WritesOnlyOrEnters d s (unlessInSlot s r) := by
  unfold unlessInSlot
  split
  · exact fault_writesOnlyOrEnters d s _
  · exact h

theorem branchWhen_writesOnlyOrEnters (taken : Bool) (target : Word) :
    WritesOnlyOrEnters d s (branchWhen taken target s) := by
  refine unlessInSlot_writesOnlyOrEnters d s ?_
  rintro t ⟨⟩
  exact .inr (.sequence d s _ _ _)

variable (r : RegIdx)

theorem writeResult_writesOnlyOrEnters (v : Word) : WritesOnlyOrEnters (some r) s (writeResult r v s) := by
  rintro t ⟨⟩
  exact .inr (.setReg_sequence r v s _ _ _)

theorem writeOrOverflow_writesOnlyOrEnters (n : Int) : WritesOnlyOrEnters (some r) s (writeOrOverflow r n s) := by
  unfold writeOrOverflow
  split
  · exact raise_writesOnlyOrEnters _ s .ov
  · exact writeResult_writesOnlyOrEnters s r _

theorem linkAndBranch_writesOnlyOrEnters (taken : Bool) (target : Word) :
    WritesOnlyOrEnters (some r) s (linkAndBranch r taken target s) := by
  refine unlessInSlot_writesOnlyOrEnters _ s ?_
  rintro t ⟨⟩
  exact .inr (.setReg_sequence r _ s _ _ _)

/-- A linking transfer behind the check of its registers (R129, R136, R137). -/
theorem checkedLink_writesOnlyOrEnters (c : Prop) [Decidable c] (f : Fault) (taken : Bool) (target : Word) :
    WritesOnlyOrEnters (some r) s (unlessInSlot s (if c then .fault f else linkAndBranch r taken target s)) := by
  refine unlessInSlot_writesOnlyOrEnters _ s ?_
  split
  · exact fault_writesOnlyOrEnters _ s f
  · exact linkAndBranch_writesOnlyOrEnters s r taken target

theorem execMfc0_writesOnlyOrEnters (n : RegIdx) : WritesOnlyOrEnters (some r) s (execMfc0 r n s) := by
  unfold execMfc0
  split
  · exact writeResult_writesOnlyOrEnters s r _
  · exact fault_writesOnlyOrEnters _ s _

end Shapes

theorem exec_writesOnlyOrEnters {i : Instr} {s : State} (noLoad : isLoad i = false) (noStore : storeSpan s i = none)
    (noHiLo : writesHiLo i = false) (noCp0 : writesCp0 i = false) :
    WritesOnlyOrEnters (destination i) s (exec i s) := by
  cases i with
  | add _ _ _ | sub _ _ _ | addi _ _ _ => exact writeOrOverflow_writesOnlyOrEnters s _ _
  | addu _ _ _ | subu _ _ _ | and _ _ _ | or _ _ _ | xor _ _ _ | nor _ _ _ | slt _ _ _ | sltu _ _ _ | addiu _ _ _
  | slti _ _ _ | sltiu _ _ _ | andi _ _ _ | ori _ _ _ | xori _ _ _ | lui _ _ | sll _ _ _ | srl _ _ _ | sra _ _ _
  | sllv _ _ _ | srlv _ _ _ | srav _ _ _ | mfhi _ | mflo _ => exact writeResult_writesOnlyOrEnters s _ _
  | j _ | jr _ | beq _ _ _ | bne _ _ _ | blez _ _ | bgtz _ _ | bltz _ _ | bgez _ _ =>
    exact branchWhen_writesOnlyOrEnters _ s _ _
  | jal _ => exact linkAndBranch_writesOnlyOrEnters s ra _ _
  | jalr rd _ => exact checkedLink_writesOnlyOrEnters s rd _ _ _ _
  | bltzal _ _ | bgezal _ _ => exact checkedLink_writesOnlyOrEnters s ra _ _ _ _
  | sync _ => exact advance_writesOnlyOrEnters _ s
  | syscall _ | brk _ | cop1 | cop2 | cop3 | lwc1 | lwc2 | lwc3 | ldc1 | ldc2 | ldc3 | swc1 | swc2 | swc3 | sdc1 | sdc2
  | sdc3 => exact raise_writesOnlyOrEnters _ s _
  | tge _ _ _ | tgeu _ _ _ | tlt _ _ _ | tltu _ _ _ | teq _ _ _ | tne _ _ _ | tgei _ _ | tgeiu _ _ | tlti _ _
  | tltiu _ _ | teqi _ _ | tnei _ _ => exact trapWhen_writesOnlyOrEnters _ s _
  | mfc0 rt n => exact execMfc0_writesOnlyOrEnters s rt n
  | lb _ _ _ | lbu _ _ _ | lh _ _ _ | lhu _ _ _ | lw _ _ _ | lwl _ _ _ | lwr _ _ _ | ll _ _ _ => cases noLoad
  | sb _ _ _ | sh _ _ _ | sw _ _ _ | swl _ _ _ | swr _ _ _ | sc _ _ _ => cases noStore
  | mult _ _ | multu _ _ | div _ _ | divu _ _ | mthi _ | mtlo _ => cases noHiLo
  | mtc0 _ _ | rfe => cases noCp0

/-- Settles O47: each shape that is left keeps everything but its register; memory is among the rest. -/
theorem registerInstructionsFrame : Obligations.RegisterInstructionsFrame := by
  intro i s t noLoad noStore noHiLo noCp0 h
  refine (exec_writesOnlyOrEnters noLoad noStore noHiLo noCp0 t h).imp_right fun ⟨reg, rest⟩ =>
    ⟨reg, fun a => ?_, rest⟩
  rw [rest]

/-! ## HI, LO and the control registers -/

theorem exec_writesHiLo_next {i : Instr} {s t : State} (writes : writesHiLo i = true) (h : exec i s = .next t) :
    ∃ hi lo, t = State.advance { s with hi := hi, lo := lo } ∧ ((∃ r, i = .mthi r) → lo = s.lo) ∧
      ((∃ r, i = .mtlo r) → hi = s.hi) := by
  cases i with
  | mult _ _ | multu _ _ | div _ _ | divu _ _ => cases h; exact ⟨_, _, rfl, nofun, nofun⟩
  | mthi _ => cases h; exact ⟨_, _, rfl, fun _ => rfl, nofun⟩
  | mtlo _ => cases h; exact ⟨_, _, rfl, nofun, fun _ => rfl⟩
  | _ => cases writes

/-- `t` is `s` with no control register changed but the number `n`, if that one is writable (R173). -/
structure Cp0Frame (n : RegIdx) (s t : State) : Prop where
  status : n ≠ 12#5 → t.status = s.status
  cause : n ≠ 13#5 → t.cause = s.cause
  epc : n ≠ 14#5 → t.epc = s.epc
  rest : t = { s with status := t.status, cause := t.cause, epc := t.epc }

theorem cp0Write_frame {s t : State} {n : RegIdx} {v : Word} (h : s.cp0Write n v = some t) : Cp0Frame n s t := by
  unfold State.cp0Write at h
  split_ifs at h with status cause epc badVAddr prid <;> cases h
  · exact ⟨fun no => absurd status no, fun _ => rfl, fun _ => rfl, rfl⟩
  · exact ⟨fun _ => rfl, fun no => absurd cause no, fun _ => rfl, rfl⟩
  · exact ⟨fun _ => rfl, fun _ => rfl, fun no => absurd epc no, rfl⟩
  · exact ⟨fun _ => rfl, fun _ => rfl, fun _ => rfl, rfl⟩
  · exact ⟨fun _ => rfl, fun _ => rfl, fun _ => rfl, rfl⟩

theorem exec_mtc0_next {rt n : RegIdx} {s t : State} (h : exec (.mtc0 rt n) s = .next t) :
    ∃ u, Cp0Frame n s u ∧ t = u.advance := by
  rw [exec_mtc0, execMtc0] at h
  split at h
  · next u write =>
    cases h
    exact ⟨u, cp0Write_frame write, rfl⟩
  · cases h

/-- Settles O48: HI and LO are written by one shape, a control register by `State.cp0Write` or by RFE, and the
sequencing leaves them alone. -/
theorem hiLoAndCp0Frame : Obligations.HiLoAndCp0Frame := by
  intro i s t h
  refine ⟨fun writes => ?hilo, fun writes => ?cp0⟩
  case hilo =>
    obtain ⟨hi, lo, rfl, mthi, mtlo⟩ := exec_writesHiLo_next writes h
    exact ⟨fun _ => rfl, fun _ => rfl, mthi, mtlo, rfl⟩
  case cp0 =>
    cases i with
    | mtc0 rt n =>
      obtain ⟨u, frame, rfl⟩ := exec_mtc0_next h
      have reg (q : RegIdx) : u.advance.reg q = s.reg q := by rw [State.advance_reg, frame.rest]; rfl
      have mem (a : Nat) : Memory.read u.advance.mem a = Memory.read s.mem a := by rw [State.advance_mem, frame.rest]
      have llbit : u.advance.llbit = s.llbit := by rw [State.advance_llbit, frame.rest]
      refine ⟨reg, mem, ?named, nofun, by rw [frame.rest]; rfl⟩
      rintro _ _ ⟨⟩
      exact ⟨frame.status, frame.cause, frame.epc, llbit⟩
    | rfe =>
      cases h
      exact ⟨fun _ => rfl, fun _ => rfl, nofun, fun _ => ⟨rfl, rfl⟩, rfl⟩
    | _ => cases writes

end Sys2Proof.Machine
end

