-- ==== Sys2Proof/Proofs/Control.lean ====
section
/-! 41_control.md: what the jumps and branches do outside a delay slot (R126 to R137), where they stop (R124), and the
law of the delay slot (R122). -/

namespace Sys2Proof.Machine

/-! ## The shapes of a control transfer outside a delay slot -/

section OutsideSlot

variable {s : State} (hd : s.delay = false)
include hd

theorem branchWhen_of_not_slot (taken : Bool) (target : Word) :
    branchWhen taken target s = .next (s.transfer taken target) :=
  unlessInSlot_of_not hd _

theorem linkAndBranch_of_not_slot (link : RegIdx) (taken : Bool) (target : Word) :
    linkAndBranch link taken target s = .next ((s.setReg link (s.pc + 8)).transfer taken target) :=
  unlessInSlot_of_not hd _

/-- A linking transfer behind the check of its registers (R129, R136, R137). -/
theorem checkedLink_of_not_slot (c : Prop) [Decidable c] (f : Fault) (link : RegIdx) (taken : Bool) (target : Word) :
    unlessInSlot s (if c then .fault f else linkAndBranch link taken target s) =
      if c then .fault f else .next ((s.setReg link (s.pc + 8)).transfer taken target) := by
  rw [unlessInSlot_of_not hd, linkAndBranch_of_not_slot hd]

end OutsideSlot

/-! ## Jumps and branches (R126 to R137) -/

/-- Settles O24: each instruction is one of the shapes, at the rule's target and under the rule's condition. -/
theorem jumpsAndLinks : Obligations.JumpsAndLinks := by
  intro s target rs rd imm hd
  have checked (c : Prop) [Decidable c] := checkedLink_of_not_slot hd c
  refine ⟨fun x y sa => ?decoding, ?j, ?jal, branchWhen_of_not_slot hd _ _, fun ne => (checked ..).trans (if_neg ne),
    (checked ..).trans (if_pos rfl), fun ne => (checked ..).trans (if_neg ne), fun ne => ?bgezal,
    (checked ..).trans (if_pos rfl), (checked ..).trans (if_pos rfl)⟩
  case decoding => simp [decode, decodeSpecial, decodeRegimm]
  case j =>
    rw [← jumpTarget_eq]
    exact branchWhen_of_not_slot hd _ _
  case jal =>
    rw [← jumpTarget_eq]
    exact linkAndBranch_of_not_slot hd _ _ _
  case bgezal =>
    rw [← not_isNegative]
    exact (checked ..).trans (if_neg ne)

/-- Settles O25: each branch is the shape that writes no register, under its condition. -/
theorem conditionalBranches : Obligations.ConditionalBranches := by
  intro s rs rt imm hd
  have branch := branchWhen_of_not_slot hd
  refine ⟨?decoding, branch _ _, branch _ _, branch _ _, ?bgtz, branch _ _, ?bgez⟩
  case decoding => simp [decode, decodeRegimm]
  case bgtz =>
    rw [← not_isNotPositive]
    exact branch _ _
  case bgez =>
    rw [← not_isNegative]
    exact branch _ _

/-! ## Stops (R10, R124) -/

theorem afterStep_of_fault {s : State} {f : Fault} (h : step s = .fault f) : s.afterStep = s.halt f.reason := by
  rw [State.afterStep, h]

/-- Settles O27: the check of the slot comes first in every transfer, and a stop halts the state before its step. -/
theorem transferInDelaySlotStops : Obligations.TransferInDelaySlotStops :=
  ⟨fun _ _ ct hd => exec_transfer_in_slot ct hd, fun _ _ h => afterStep_of_fault h⟩

/-! ## The delay slot (R122) -/

/-- A control transfer that completes stood outside a delay slot, raised nothing, and changed at most a register before
the sequencing. -/
theorem exec_transfer_next {i : Instr} {s t : State} (ct : isControlTransfer i = true) (h : exec i s = .next t) :
    s.delay = false ∧ ∃ g taken target, t = State.transfer { s with gpr := g } taken target := by
  have hd : s.delay = false := by
    by_contra slot
    rw [exec_transfer_in_slot ct (by simpa using slot)] at h
    cases h
  refine ⟨hd, ?_⟩
  cases i with
  | j _ | jr _ | beq _ _ _ | bne _ _ _ | blez _ _ | bgtz _ _ | bltz _ _ | bgez _ _ =>
    cases (branchWhen_of_not_slot hd _ _).symm.trans h
    exact ⟨s.gpr, _, _, rfl⟩
  | jal _ =>
    cases (linkAndBranch_of_not_slot hd _ _ _).symm.trans h
    exact ⟨_, _, _, rfl⟩
  | jalr _ _ | bltzal _ _ | bgezal _ _ =>
    have completed := (checkedLink_of_not_slot hd ..).symm.trans h
    split at completed <;> cases completed
    exact ⟨_, _, _, rfl⟩
  | _ => cases ct

/-- Outside a delay slot no transfer is pending, so NPC is the word after PC. -/
theorem Inv.npc_of_not_slot {s : State} (hs : Inv s) (hd : s.delay = false) : s.npc = s.pc + 4 := by
  refine hs.npc_follows (Bool.eq_false_iff.2 fun pending => ?_)
  rw [hs.taken_in_slot pending] at hd
  cases hd

/-- The word after the delay slot is `PC + 8`. -/
theorem add_four_add_four (a : Word) : a + 4 + 4 = a + 8 := BitVec.add_assoc a 4 4

/-- Settles O8: the transfer leaves PC at its delay slot, and the instruction there goes on to NPC or enters an
exception whose victim is the transfer. -/
theorem delaySlotLaw : Obligations.DelaySlotLaw := by
  intro s t u i j hs transfer noTransfer hi hj
  obtain ⟨outside, g, taken, target, rfl⟩ := exec_transfer_next transfer hi
  have follows : s.npc = s.pc + 4 := hs.npc_of_not_slot outside
  refine ⟨follows, ?notTaken, ?slot⟩
  case notTaken =>
    rintro rfl
    exact (congrArg (· + 4) follows).trans (add_four_add_four s.pc)
  case slot =>
    rcases execAdvancesOrEntersPrecisely _ _ _ hj with ⟨pc, delay, _⟩ | ⟨e, d, n, rfl, _⟩
    · exact .inl ⟨pc, delay.trans noTransfer⟩
    · refine .inr ⟨rfl, ?_⟩
      show s.npc - 4 = s.pc
      rw [follows]
      exact BitVec.add_sub_cancel s.pc 4

end Sys2Proof.Machine
end

/-! 42_loadstore.md, with SYSCALL and BREAK of 43_system_cop.md (R158, R159): what each load and store does once its one
access was made, what LWL, LWR, SWL and SWR make of one word, LL and SC, and the frames of them all. -/

namespace Sys2Proof.Machine

/-! ## SYNC, SYSCALL and BREAK (R156, R158, R159) -/

/-- Settles O40: SYNC is the sequencing and the other two are exceptions, whatever the ignored fields hold. -/
theorem syncSyscallBreak : Obligations.SyncSyscallBreak := by
  intro s stype code
  refine ⟨fun x y z => ?decoding, fun e _ => ⟨rfl, State.causeWord_bd _, rfl⟩, rfl, rfl, State.causeWord_excCode _, rfl,
    State.causeWord_excCode _⟩
  case decoding => simp [decode, decodeSpecial]

/-! ## The answer of a load or a store (R139) -/

/-- What a load or a store answers once its access was made: DBE, or what it does with the value read, and the
sequencing. -/
def afterAccess (finish : Word → State → State) : Access → Result
  | .busError t => .next (t.enter .dbe)
  | .ok v t => .next (finish v t).advance

/-- The destination of a load written from the value read. -/
def loadInto (rt : RegIdx) (extend : Word → Word) (v : Word) (t : State) : State := t.setReg rt (extend v)

/-- A store does nothing after its access. -/
def nothingMore (_ : Word) (t : State) : State := t

theorem alignedTo_false {a : Word} {w : Width} (h : a.toNat % bytesOf w ≠ 0) : alignedTo a w = false := by
  rwa [← Bool.not_eq_true, alignedTo_iff]

/-- A store to RAM changes memory and the set W of R207, besides the sequencing. -/
theorem storeRam_advance (s : State) (a : Nat) (bs : List Byte) :
    (s.storeRam a bs).advance =
      State.advance { s with mem := (s.storeRam a bs).advance.mem, smcW := (s.storeRam a bs).advance.smcW } := by
  cases pending : s.taken <;>
    simp [State.advance, State.sequence, pending, State.storeRam, State.markWritten, State.markWords]

section Aligned

variable {w : Width} {ea : Word} (al : ea.toNat % bytesOf w = 0)
include al

theorem loadAligned_of_aligned (extend : Word → Word) (rt : RegIdx) (s : State) :
    loadAligned w extend rt ea s = afterAccess (loadInto rt extend) (memRead s ea w) := by
  rw [loadAligned_eq, if_pos ((alignedTo_iff ea w).2 al)]
  rfl

theorem storeAligned_of_aligned (v : Word) (s : State) :
    storeAligned w v ea s = afterAccess nothingMore (memWrite s ea w v) := by
  rw [storeAligned_eq, if_pos ((alignedTo_iff ea w).2 al)]
  rfl

/-- From RAM an aligned load completes. -/
theorem loadAligned_ram (extend : Word → Word) (rt : RegIdx) {s : State} {r : Region}
    (hr : resolve s.par.regionMap ea = some r) (hk : r.kind = .ram) :
    loadAligned w extend rt ea s = .next (s.setReg rt (extend (valueAt s.mem ea.toNat w))).advance := by
  rw [loadAligned_of_aligned al, memRead_ram w hr hk]
  rfl

/-- To RAM an aligned store completes. -/
theorem storeAligned_ram (v : Word) {s : State} {r : Region} (hr : resolve s.par.regionMap ea = some r)
    (hk : r.kind = .ram) : storeAligned w v ea s = .next (s.storeRam ea.toNat (bytesToStore v w)).advance := by
  rw [storeAligned_of_aligned al, memWrite_ram w v hr hk]
  rfl

/-- An aligned store to RAM changes the bytes it stores and the set W of R207, besides the sequencing. -/
theorem storeAligned_ram_writes (v : Word) {s : State} {r : Region} (hr : resolve s.par.regionMap ea = some r)
    (hk : r.kind = .ram) :
    ∃ t, storeAligned w v ea s = .next t ∧ t.mem = storeValue s.mem ea.toNat w v ∧
      t = State.advance { s with mem := t.mem, smcW := t.smcW } :=
  ⟨_, storeAligned_ram al v hr hk, rfl, storeRam_advance s ea.toNat (bytesToStore v w)⟩

end Aligned

section Misaligned

variable {w : Width} {ea : Word} (mis : ea.toNat % bytesOf w ≠ 0)
include mis

theorem loadAligned_of_misaligned (extend : Word → Word) (rt : RegIdx) (s : State) :
    loadAligned w extend rt ea s = .next (s.enter (.adEL ea)) := by
  rw [loadAligned_eq, alignedTo_false mis]
  rfl

theorem storeAligned_of_misaligned (v : Word) (s : State) :
    storeAligned w v ea s = .next (s.enter (.adES ea)) := by
  rw [storeAligned_eq, alignedTo_false mis]
  rfl

end Misaligned

/-- Settles O32: each instruction is the shape of an aligned load, with its width and its extension. -/
theorem alignedLoads : Obligations.AlignedLoads := by
  intro s rt rs imm
  have reads {w : Width} (extend : Word → Word) (al : (s.ea rs imm).toNat % bytesOf w = 0) :=
    And.intro (loadAligned_of_aligned al extend rt s) fun r => loadAligned_ram al extend rt (s := s) (r := r)
  refine ⟨?decoding, reads _, reads _, reads _, reads _, reads _,
    fun mis => ⟨loadAligned_of_misaligned mis _ rt s, loadAligned_of_misaligned mis _ rt s⟩,
    fun mis => loadAligned_of_misaligned mis _ rt s⟩
  case decoding => simp [decode]

/-- Settles O35: each instruction is the shape of an aligned store, with its width. -/
theorem alignedStores : Obligations.AlignedStores := by
  intro s rt rs imm
  have stores {w : Width} (al : (s.ea rs imm).toNat % bytesOf w = 0) :=
    And.intro (storeAligned_of_aligned al (s.reg rt) s)
      fun r => storeAligned_ram_writes al (s.reg rt) (s := s) (r := r)
  refine ⟨?decoding, stores, stores, stores, fun mis => storeAligned_of_misaligned mis (s.reg rt) s,
    fun mis => storeAligned_of_misaligned mis (s.reg rt) s⟩
  case decoding => simp [decode]

/-! ## LWL and LWR (R146, R147) -/

theorem wordBase_eq_ofNat (a : Word) : wordBase a = BitVec.ofNat 32 (a.toNat / 4 * 4) := by
  rw [← wordBase_toNat, BitVec.ofNat_toNat, BitVec.setWidth_eq]

theorem byteInWord_eq_iff (a : Word) {k : Nat} (hk : k < 4) : byteInWord a = BitVec.ofNat 2 k ↔ a.toNat % 4 = k := by
  rw [← BitVec.toNat_inj, byteInWord_toNat, BitVec.toNat_ofNat, Nat.mod_eq_of_lt (a := k) hk]

/-- The mask that keeps the low `8k` bits of a word. -/
theorem lowMask_getLsbD : ∀ (k : BitVec 2) (i : Fin 32),
    ((1#32 <<< (8 * k.toNat)) - 1#32).getLsbD i = decide (i.val < 8 * k.toNat) := by decide

theorem allOnes_getLsbD (i : Fin 32) : (0xFFFFFFFF#32).getLsbD i = true := by revert i; decide

/-- LWL keeps the low `8k` bits of the old register and puts the word above them. -/
theorem mergeLeft_getLsbD (k : BitVec 2) (old w : Word) {i : Nat} (hi : i < 32) :
    (mergeLeft k old w).getLsbD i = if i < 8 * k.toNat then old.getLsbD i else w.getLsbD (i - 8 * k.toNat) := by
  have mask := lowMask_getLsbD k ⟨i, hi⟩
  dsimp only at mask
  rw [mergeLeft, BitVec.getLsbD_or, BitVec.getLsbD_and, BitVec.getLsbD_shiftLeft, mask]
  by_cases low : i < 8 * k.toNat <;> simp [low, hi]

/-- LWR puts the word's high bytes, shifted down by `8 (3 - k)` bits, below what it keeps of the old register. -/
theorem mergeRight_getLsbD (k : BitVec 2) (old w : Word) {i : Nat} (hi : i < 32) :
    (mergeRight k old w).getLsbD i =
      if i < 8 * (k.toNat + 1) then w.getLsbD (8 * (3 - k.toNat) + i) else old.getLsbD i := by
  have hk := k.isLt
  rw [mergeRight, BitVec.getLsbD_or, BitVec.getLsbD_and, BitVec.getLsbD_not, BitVec.getLsbD_ushiftRight,
    BitVec.getLsbD_ushiftRight]
  by_cases low : i < 8 * (k.toNat + 1)
  · have inside : 8 * (3 - k.toNat) + i < 32 := by omega
    have ones := allOnes_getLsbD ⟨_, inside⟩
    simp [low, ones]
  · have beyond : 32 ≤ 8 * (3 - k.toNat) + i := by omega
    simp [low, hi, BitVec.getLsbD_of_ge _ _ beyond]

/-- LWL's result as the fields of the word and of the old register, for `k = ea mod 4` (R146). -/
def leftFields (k : Nat) (old w : Word) : Word :=
  if k = 0 then w
  else if k = 1 then w.extractLsb' 0 24 ++ old.extractLsb' 0 8
  else if k = 2 then w.extractLsb' 0 16 ++ old.extractLsb' 0 16
  else w.extractLsb' 0 8 ++ old.extractLsb' 0 24

/-- LWR's result as the fields of the word and of the old register, for `k = ea mod 4` (R147). -/
def rightFields (k : Nat) (old w : Word) : Word :=
  if k = 3 then w
  else if k = 2 then old.extractLsb' 24 8 ++ w.extractLsb' 8 24
  else if k = 1 then old.extractLsb' 16 16 ++ w.extractLsb' 16 16
  else old.extractLsb' 8 24 ++ w.extractLsb' 24 8

/-- A field of one word above a field of another, told by its bits. -/
theorem eq_fields_of_getLsbD {m n : Nat} {x y z : BitVec (m + n)} {p q : Nat}
    (h : ∀ i < m + n, x.getLsbD i = if i < n then z.getLsbD (q + i) else y.getLsbD (p + i - n)) :
    x = y.extractLsb' p m ++ z.extractLsb' q n := by
  apply BitVec.eq_of_getLsbD_eq
  intro i hi
  rw [h i hi, BitVec.getLsbD_append, BitVec.getLsbD_extractLsb', BitVec.getLsbD_extractLsb']
  split
  · next low => simp [low]
  · next high => simp [show i - n < m by omega, Nat.add_sub_assoc (Nat.le_of_not_lt high)]

section Merges

variable (k : BitVec 2) (old w : Word)

theorem mergeLeft_eq_fields : mergeLeft k old w = leftFields k.toNat old w := by
  have bits := fun i => mergeLeft_getLsbD k old w (i := i)
  generalize mergeLeft k old w = x at bits ⊢
  generalize hn : k.toNat = n at bits ⊢
  have hk : n < 4 := hn ▸ k.isLt
  interval_cases n
  · exact BitVec.eq_of_getLsbD_eq bits
  · exact eq_fields_of_getLsbD (m := 24) (n := 8) (by simpa using bits)
  · exact eq_fields_of_getLsbD (m := 16) (n := 16) (by simpa using bits)
  · exact eq_fields_of_getLsbD (m := 8) (n := 24) (by simpa using bits)

theorem mergeRight_eq_fields : mergeRight k old w = rightFields k.toNat old w := by
  have bits := fun i => mergeRight_getLsbD k old w (i := i)
  generalize mergeRight k old w = x at bits ⊢
  generalize hn : k.toNat = n at bits ⊢
  have hk : n < 4 := hn ▸ k.isLt
  interval_cases n
  · exact eq_fields_of_getLsbD (m := 24) (n := 8) (by simpa using bits)
  · exact eq_fields_of_getLsbD (m := 16) (n := 16) (by simpa using bits)
  · exact eq_fields_of_getLsbD (m := 8) (n := 24) (by simpa using bits)
  · exact BitVec.eq_of_getLsbD_eq fun i hi => (bits i hi).trans (by simp [hi, rightFields])

end Merges

theorem mergeLeft_byteInWord (a old : Word) : mergeLeft (byteInWord a) old = leftFields (a.toNat % 4) old :=
  funext fun w => byteInWord_toNat a ▸ mergeLeft_eq_fields _ old w

theorem mergeRight_byteInWord (a old : Word) : mergeRight (byteInWord a) old = rightFields (a.toNat % 4) old :=
  funext fun w => byteInWord_toNat a ▸ mergeRight_eq_fields _ old w

/-- From RAM an unaligned load completes. -/
theorem loadMerged_ram (merge : Word → Word) (rt : RegIdx) {ea : Word} {s : State} {r : Region}
    (hr : resolve s.par.regionMap (wordBase ea) = some r) (hk : r.kind = .ram) :
    loadMerged merge rt ea s =
      .next (s.setReg rt (merge (valueAt s.mem (wordBase ea).toNat .word))).advance := by
  rw [loadMerged_eq, memRead_ram .word hr hk]

/-- Settles O33: the shifts and masks of the merges are the fields of the rule. -/
theorem unalignedLoads : Obligations.UnalignedLoads := by
  intro s rt rs imm
  refine ⟨by simp [decode], ?_⟩
  dsimp only
  rw [← wordBase_eq_ofNat]
  have left := mergeLeft_byteInWord (s.ea rs imm) (s.reg rt)
  have right := mergeRight_byteInWord (s.ea rs imm) (s.reg rt)
  refine ⟨?_, ?_, fun r hr hk => ⟨?_, ?_⟩⟩
  · exact congrArg (loadMerged · rt (s.ea rs imm) s) left
  · exact congrArg (loadMerged · rt (s.ea rs imm) s) right
  · exact (loadMerged_ram _ rt hr hk).trans (by rw [left]; rfl)
  · exact (loadMerged_ram _ rt hr hk).trans (by rw [right]; rfl)

/-! ## LWL then LWR -/

/-- The address of an access some immediate further on. -/
theorem State.ea_of_imm_add (s : State) (rs : RegIdx) {imm imm' : BitVec 16} {n : Int}
    (h : imm'.toInt = imm.toInt + n) :
    s.ea rs imm' = s.ea rs imm + BitVec.ofInt 32 n := by
  have e : simm imm' = simm imm + BitVec.ofInt 32 n := by
    rw [simm, simm, BitVec.signExtend, BitVec.signExtend, h, BitVec.ofInt_add]
  rw [State.ea, State.ea, e, BitVec.add_assoc]

theorem byteOfValue_getLsbD (v : Word) (i : Nat) {b : Nat} (hb : b < 8) :
    (byteOfValue v .word i).getLsbD b = v.getLsbD (8 * (3 - i) + b) := by
  rw [byteOfValue, BitVec.getLsbD_extractLsb']
  simp [bytesOf, hb]

/-- A word is its four bytes. -/
theorem eq_of_bytes {v w : Word} (h : ∀ i < 4, byteOfValue v .word i = byteOfValue w .word i) : v = w := by
  rw [← word_of_its_bytes v, ← word_of_its_bytes w]
  simp only [Adapter.append_byte_inj]
  exact ⟨⟨⟨h 0 (by decide), h 1 (by decide)⟩, h 2 (by decide)⟩, h 3 (by decide)⟩

theorem byteOfValue_valueAt (m : ByteStore) (a : Nat) {i : Nat} (hi : i < 4) :
    byteOfValue (valueAt m a .word) .word i = Memory.read m (a + i) := by
  have bytes := word_of_its_bytes (valueAt m a .word)
  rw (occs := [5]) [valueAt] at bytes
  simp only [Adapter.append_byte_inj] at bytes
  obtain ⟨⟨⟨b0, b1⟩, b2⟩, b3⟩ := bytes
  interval_cases i <;> assumption

section Bytes

variable (k : BitVec 2) (old w : Word) {i : Nat} (hi : i < 4)
include hi

/-- LWL moves the word's bytes from `k` on to the most significant end (R146). -/
theorem byteOfValue_mergeLeft :
    byteOfValue (mergeLeft k old w) .word i =
      if i + k.toNat < 4 then byteOfValue w .word (i + k.toNat) else byteOfValue old .word i := by
  apply BitVec.eq_of_getLsbD_eq
  intro b hb
  rw [byteOfValue_getLsbD _ _ hb, mergeLeft_getLsbD k old w (by omega)]
  by_cases fromWord : i + k.toNat < 4
  · rw [if_neg (by omega), if_pos fromWord, byteOfValue_getLsbD _ _ hb]
    congr 1
    omega
  · rw [if_pos (by omega), if_neg fromWord, byteOfValue_getLsbD _ _ hb]

/-- LWR moves the word's bytes up to `k` to the least significant end (R147). -/
theorem byteOfValue_mergeRight :
    byteOfValue (mergeRight k old w) .word i =
      if i + k.toNat < 3 then byteOfValue old .word i else byteOfValue w .word (i + k.toNat - 3) := by
  have hk := k.isLt
  apply BitVec.eq_of_getLsbD_eq
  intro b hb
  rw [byteOfValue_getLsbD _ _ hb, mergeRight_getLsbD k old w (by omega)]
  by_cases kept : i + k.toNat < 3
  · rw [if_neg (by omega), if_pos kept, byteOfValue_getLsbD _ _ hb]
  · rw [if_pos (by omega), if_neg kept, byteOfValue_getLsbD _ _ hb]
    congr 1
    omega

end Bytes

theorem toNat_add_three {a : Word} (noWrap : a.toNat + 3 < 2 ^ 32) : (a + 3).toNat = a.toNat + 3 := by
  rw [BitVec.toNat_add]
  exact Nat.mod_eq_of_lt noWrap

/-- LWL at `a` and LWR at `a + 3` between them put the four bytes from `a` on in the register. -/
theorem mergeRight_mergeLeft (m : ByteStore) {a : Word} (noWrap : a.toNat + 3 < 2 ^ 32) (old : Word) :
    mergeRight (byteInWord (a + 3)) (mergeLeft (byteInWord a) old (valueAt m (wordBase a).toNat .word))
      (valueAt m (wordBase (a + 3)).toNat .word) = valueAt m a.toNat .word := by
  apply eq_of_bytes
  intro i hi
  rw [byteOfValue_mergeRight _ _ _ hi, byteOfValue_mergeLeft _ _ _ hi, byteInWord_toNat, byteInWord_toNat,
    wordBase_toNat, wordBase_toNat, toNat_add_three noWrap, byteOfValue_valueAt m a.toNat hi]
  split
  · rw [if_pos (by omega), byteOfValue_valueAt _ _ (by omega)]
    congr 1
    omega
  · rw [byteOfValue_valueAt _ _ (by omega)]
    congr 1
    omega

theorem State.ea_congr {s t : State} {rs : RegIdx} (h : t.reg rs = s.reg rs) (imm : BitVec 16) :
    t.ea rs imm = s.ea rs imm := congrArg (· + simm imm) h

/-- Settles O34: the two merges, in a register file where LWL did not touch the base. -/
theorem lwlThenLwrLoadsUnalignedWord : Obligations.LwlThenLwrLoadsUnalignedWord := by
  intro s rt rs imm imm3 r q notZero notBase himm noWrap hr hrk hq hqk
  generalize hv : mergeLeft (byteInWord (s.ea rs imm)) (s.reg rt)
    (valueAt s.mem (wordBase (s.ea rs imm)).toNat .word) = v
  have ea : (s.setReg rt v).advance.ea rs imm3 = s.ea rs imm + 3 :=
    (State.ea_congr (State.reg_setReg_of_ne s notBase.symm v) imm3).trans (s.ea_of_imm_add rs himm)
  rw [← ea] at hq
  refine ⟨(s.setReg rt v).advance, _, hv ▸ loadMerged_ram _ rt hr hrk, loadMerged_ram _ rt hq hqk, ?_⟩
  rw [ea, State.advance_reg, State.reg_setReg_same _ notZero, State.advance_reg, State.reg_setReg_same _ notZero, ← hv]
  exact mergeRight_mergeLeft s.mem noWrap (s.reg rt)

/-! ## SWL and SWR (R151 to R153) -/

/-- A byte of consecutive bytes written, read back. -/
theorem read_writeBytes_at {m : ByteStore} (wf : Memory.wf m = true) {a : Nat} {bs : List Byte}
    (fits : a + bs.length ≤ 2 ^ 32) {j : Nat} {b : Byte} (h : bs[j]? = some b) :
    Memory.read (Memory.writeBytes m a bs) (a + j) = b := by
  rw [Memory.read_writeBytes wf a bs fits, if_pos (Nat.le_add_right a j), Nat.add_sub_cancel_left, h, Option.getD_some]

/-- The bytes SWL stores: the most significant ones of the register. -/
theorem take_bytesToStore_getElem? (v : Word) {n j : Nat} (hn : n ≤ 4) (hj : j < n) :
    ((bytesToStore v .word).take n)[j]? = some (v.extractLsb' (24 - 8 * j) 8) := by
  rw [List.getElem?_take_of_lt hj, bytesToStore_getElem? v (show j < 4 by omega), byteOfValue, bytesOf]
  congr 2
  omega

/-- The bytes SWR stores: the `k + 1` least significant ones of the register. -/
theorem drop_bytesToStore_getElem? (v : Word) {k j : Nat} (hk : k < 4) (hj : j < k + 1) :
    ((bytesToStore v .word).drop (3 - k))[j]? = some (v.extractLsb' (8 * k - 8 * j) 8) := by
  rw [List.getElem?_drop, bytesToStore_getElem? v (show 3 - k + j < 4 by omega), byteOfValue, bytesOf]
  congr 2
  omega

section Part

variable (bs : List Byte) {a : Word} {s : State}

theorem storePart_none (h : resolve s.par.regionMap (wordBase a) = none) : storePart a bs s = .next (s.enter .dbe) := by
  rw [storePart, h, raise_eq]

variable {r : Region} (hr : resolve s.par.regionMap (wordBase a) = some r)
include hr

theorem storePart_rom (hk : r.kind = .rom) : storePart a bs s = .next (s.enter .dbe) := by
  simp [storePart, hr, hk]

theorem storePart_dispatch (hk : r.kind = .device ∨ r.kind = .coprocLocal) :
    storePart a bs s = .fault (.unpredictable .partialDeviceStore) := by
  rcases hk with hk | hk <;> simp [storePart, hr, hk]

theorem storePart_ram (hk : r.kind = .ram) : storePart a bs s = .next (s.storeRam a.toNat bs).advance := by
  simp [storePart, hr, hk]

end Part

/-- What a partial store does, by the kind of the region: DBE, the stop of R153, or its bytes and no others in RAM. -/
theorem storePart_rule {a base : Word} {bs : List Byte} {first n : Nat} {f : Nat → Byte} (s : State)
    (hbase : wordBase a = base) (hfirst : a.toNat = first) (length : bs.length = n) (fits : first + n ≤ 2 ^ 32)
    (bytes : ∀ j < n, bs[j]? = some (f j)) :
    (resolve s.par.regionMap base = none → storePart a bs s = .next (s.enter .dbe)) ∧
    ∀ r, resolve s.par.regionMap base = some r →
      (r.kind = .rom → storePart a bs s = .next (s.enter .dbe)) ∧
      (r.kind = .device ∨ r.kind = .coprocLocal →
        storePart a bs s = .fault (.unpredictable .partialDeviceStore)) ∧
      (r.kind = .ram → Memory.wf s.mem = true → ∃ t, storePart a bs s = .next t ∧
        t = State.advance { s with mem := t.mem, smcW := t.smcW } ∧
        (∀ j, j < n → Memory.read t.mem (first + j) = f j) ∧
        (∀ x, x < first ∨ first + n ≤ x → Memory.read t.mem x = Memory.read s.mem x)) := by
  subst hbase hfirst length
  refine ⟨storePart_none bs, fun r hr => ⟨storePart_rom bs hr, storePart_dispatch bs hr, fun hk wf =>
    ⟨_, storePart_ram bs hr hk, storeRam_advance s a.toNat bs, fun j hj => ?inside, fun x hx => ?outside⟩⟩⟩
  case inside => exact read_writeBytes_at wf fits (bytes j hj)
  case outside => exact Memory.read_writeBytes_outside s.mem bs hx

theorem wordBase_toNat_mod (a : Word) : (wordBase a).toNat % 4 = 0 := by
  rw [wordBase_toNat, Nat.mul_mod_left]

theorem wordBase_of_aligned {a : Word} (h : a.toNat % 4 = 0) : wordBase a = a := by
  apply BitVec.eq_of_toNat_eq
  rw [wordBase_toNat]
  omega

section Exec

variable (rt rs : RegIdx) (imm : BitVec 16) (s : State)

theorem exec_swl_whole (h : (s.ea rs imm).toNat % 4 = 0) :
    exec (.swl rt imm rs) s = afterAccess nothingMore (memWrite s (wordBase (s.ea rs imm)) .word (s.reg rt)) := by
  rw [← storeAligned_of_aligned (wordBase_toNat_mod _)]
  exact if_pos ((byteInWord_eq_iff _ (by decide)).2 h)

theorem exec_swl_part (h : (s.ea rs imm).toNat % 4 ≠ 0) :
    exec (.swl rt imm rs) s =
      storePart (s.ea rs imm) ((bytesToStore (s.reg rt) .word).take (4 - (s.ea rs imm).toNat % 4)) s := by
  rw [← byteInWord_toNat]
  exact if_neg (mt (byteInWord_eq_iff _ (by decide)).1 h)

theorem exec_swr_whole (h : (s.ea rs imm).toNat % 4 = 3) :
    exec (.swr rt imm rs) s = afterAccess nothingMore (memWrite s (wordBase (s.ea rs imm)) .word (s.reg rt)) := by
  rw [← storeAligned_of_aligned (wordBase_toNat_mod _)]
  exact if_pos ((byteInWord_eq_iff _ (by decide)).2 h)

theorem exec_swr_part (h : (s.ea rs imm).toNat % 4 ≠ 3) :
    exec (.swr rt imm rs) s =
      storePart (wordBase (s.ea rs imm)) ((bytesToStore (s.reg rt) .word).drop (3 - (s.ea rs imm).toNat % 4)) s := by
  rw [← byteInWord_toNat]
  exact if_neg (mt (byteInWord_eq_iff _ (by decide)).1 h)

end Exec

theorem take_bytesToStore_length (v : Word) {n : Nat} (hn : n ≤ 4) : ((bytesToStore v .word).take n).length = n := by
  rw [List.length_take, bytesToStore_length, bytesOf, Nat.min_eq_left hn]

theorem drop_bytesToStore_length (v : Word) {k : Nat} (hk : k < 4) :
    ((bytesToStore v .word).drop (3 - k)).length = k + 1 := by
  rw [List.length_drop, bytesToStore_length, bytesOf]
  omega

/-- Settles O36: the whole word is an aligned store, and the bytes of each partial store are told by the register. -/
theorem unalignedStores : Obligations.UnalignedStores := by
  intro s rt rs imm
  have lt := (s.ea rs imm).isLt
  have hk : (s.ea rs imm).toNat % 4 < 4 := Nat.mod_lt _ (by decide)
  refine ⟨by simp [decode], ?_⟩
  dsimp only
  rw [← wordBase_eq_ofNat]
  refine ⟨exec_swl_whole rt rs imm s, fun h => ?swl, exec_swr_whole rt rs imm s, fun h => ?swr⟩
  case swl =>
    rw [show exec (.swl rt imm rs) s = _ from exec_swl_part rt rs imm s h]
    exact storePart_rule s rfl rfl (take_bytesToStore_length _ (Nat.sub_le 4 _))
      (show (s.ea rs imm).toNat + (4 - (s.ea rs imm).toNat % 4) ≤ 2 ^ 32 by omega)
      fun j => take_bytesToStore_getElem? _ (Nat.sub_le 4 _)
  case swr =>
    rw [show exec (.swr rt imm rs) s = _ from exec_swr_part rt rs imm s h]
    exact storePart_rule s (wordBase_wordBase _) (wordBase_toNat _) (drop_bytesToStore_length _ hk)
      (show (s.ea rs imm).toNat / 4 * 4 + ((s.ea rs imm).toNat % 4 + 1) ≤ 2 ^ 32 by omega)
      fun j => drop_bytesToStore_getElem? _ hk

/-! ## SWL then SWR -/

section Exec

variable (rt : RegIdx) {rs : RegIdx} {imm : BitVec 16} {s : State} {r : Region}
  (hr : resolve s.par.regionMap (wordBase (s.ea rs imm)) = some r) (hk : r.kind = .ram)
include hr hk

/-- To RAM, SWL stores its bytes at `ea`, also where they are the whole word. -/
theorem exec_swl_ram :
    exec (.swl rt imm rs) s = .next (s.storeRam (s.ea rs imm).toNat
      ((bytesToStore (s.reg rt) .word).take (4 - (s.ea rs imm).toNat % 4))).advance := by
  by_cases whole : (s.ea rs imm).toNat % 4 = 0
  · rw [exec_swl_whole rt rs imm s whole, memWrite_ram .word _ hr hk, wordBase_of_aligned whole, whole]
    rfl
  · rw [exec_swl_part rt rs imm s whole, storePart_ram _ hr hk]

/-- To RAM, SWR stores its bytes at the start of the word, also where they are the whole word. -/
theorem exec_swr_ram :
    exec (.swr rt imm rs) s = .next (s.storeRam (wordBase (s.ea rs imm)).toNat
      ((bytesToStore (s.reg rt) .word).drop (3 - (s.ea rs imm).toNat % 4))).advance := by
  by_cases whole : (s.ea rs imm).toNat % 4 = 3
  · rw [exec_swr_whole rt rs imm s whole, memWrite_ram .word _ hr hk, whole]
    rfl
  · rw [exec_swr_part rt rs imm s whole, storePart_ram _ (by rwa [wordBase_wordBase]) hk]

end Exec

/-- The bytes SWL stores at `a` and SWR at `a + 3`. -/
def writePair (m : ByteStore) (a : Word) (v : Word) : ByteStore :=
  Memory.writeBytes (Memory.writeBytes m a.toNat ((bytesToStore v .word).take (4 - a.toNat % 4)))
    (wordBase (a + 3)).toNat ((bytesToStore v .word).drop (3 - (a + 3).toNat % 4))

section Pair

variable {m : ByteStore} {a : Word} (v : Word) (noWrap : a.toNat + 3 < 2 ^ 32)
include noWrap

theorem read_writePair_inside (wf : Memory.wf m = true) {i : Nat} (hi : i < 4) :
    Memory.read (writePair m a v) (a.toNat + i) = v.extractLsb' (24 - 8 * i) 8 := by
  have hk : (a.toNat + 3) % 4 < 4 := Nat.mod_lt _ (by decide)
  have leftLength := take_bytesToStore_length v (Nat.sub_le 4 (a.toNat % 4))
  have wf' := Memory.writeBytes_wf wf ((bytesToStore v .word).take (4 - a.toNat % 4)) (a := a.toNat) (by omega)
  have rightLength := drop_bytesToStore_length v hk
  rw [writePair, wordBase_toNat, toNat_add_three noWrap]
  by_cases right : (a.toNat + 3) / 4 * 4 ≤ a.toNat + i
  · obtain ⟨j, hj⟩ := Nat.exists_eq_add_of_le right
    rw [hj, read_writeBytes_at wf' (by omega) (drop_bytesToStore_getElem? v hk (j := j) (by omega))]
    congr 1
    omega
  · rw [Memory.read_writeBytes_outside _ _ (by omega)]
    exact read_writeBytes_at wf (by omega) (take_bytesToStore_getElem? v (by omega) (by omega))

theorem read_writePair_outside {x : Nat} (hx : x < a.toNat ∨ a.toNat + 4 ≤ x) :
    Memory.read (writePair m a v) x = Memory.read m x := by
  have leftLength := take_bytesToStore_length v (Nat.sub_le 4 (a.toNat % 4))
  have rightLength := drop_bytesToStore_length v (Nat.mod_lt (a.toNat + 3) (y := 4) (by decide))
  rw [writePair, wordBase_toNat, toNat_add_three noWrap, Memory.read_writeBytes_outside _ _ (by omega),
    Memory.read_writeBytes_outside _ _ (by omega)]

end Pair

/-- Settles O37: after SWL the base and the stored register are as before, and the two stores are a pair. -/
theorem swlThenSwrStoresUnalignedWord : Obligations.SwlThenSwrStoresUnalignedWord := by
  intro s rt rs imm imm3 r q himm noWrap wf hr hrk hq hqk
  have first := exec_swl_ram rt hr hrk
  generalize ht : (s.storeRam (s.ea rs imm).toNat
    ((bytesToStore (s.reg rt) .word).take (4 - (s.ea rs imm).toNat % 4))).advance = t at first
  have ea : t.ea rs imm3 = s.ea rs imm + 3 := ht ▸ s.ea_of_imm_add rs himm
  have par : t.par = s.par := ht ▸ rfl
  have second := exec_swr_ram rt (rs := rs) (imm := imm3) (s := t) (by rw [ea, par]; exact hq) hqk
  have mem : (t.storeRam (wordBase (t.ea rs imm3)).toNat
      ((bytesToStore (t.reg rt) .word).drop (3 - (t.ea rs imm3).toNat % 4))).advance.mem =
      writePair s.mem (s.ea rs imm) (s.reg rt) := by
    rw [ea, ← ht]; rfl
  refine ⟨t, _, first, second, ?_⟩
  rw [mem]
  exact ⟨fun i hi => read_writePair_inside _ noWrap wf hi, fun x hx => read_writePair_outside _ noWrap hx⟩

/-! ## LL and SC (R154, R155) -/

/-- What LL does with the value read. -/
def linkInto (rt : RegIdx) (ea : Word) (v : Word) (t : State) : State := (t.reserve ea).setReg rt v

/-- `x[rt] <- ok; LLbit <- 0`, as SC ends. -/
def State.conclude (s : State) (rt : RegIdx) (ok : Bool) : State :=
  State.setReg { s with llbit := false } rt (boolWord ok)

/-- SC's store made in `u`, and its end. -/
def scStore (rt : RegIdx) (ea v : Word) (u : State) : Result :=
  afterAccess (fun _ t => t.conclude rt true) (memWrite u ea .word v)

/-- To RAM, SC's store completes. -/
theorem scStore_ram (rt : RegIdx) {ea : Word} (v : Word) {u : State} {r : Region}
    (hr : resolve u.par.regionMap ea = some r) (hk : r.kind = .ram) :
    scStore rt ea v u = .next ((u.storeRam ea.toNat (bytesToStore v .word)).conclude rt true).advance := by
  rw [scStore, memWrite_ram .word v hr hk]
  rfl

section Conditional

variable (rt rs : RegIdx) (imm : BitVec 16) (s : State)

theorem exec_ll_of_misaligned (mis : (s.ea rs imm).toNat % 4 ≠ 0) :
    exec (.ll rt imm rs) s = .next (s.enter (.adEL (s.ea rs imm))) := by
  rw [exec_ll, execLl]
  simp only [alignedTo_false (w := .word) mis]
  rfl

theorem exec_sc_of_misaligned (mis : (s.ea rs imm).toNat % 4 ≠ 0) :
    exec (.sc rt imm rs) s = .next (s.enter (.adES (s.ea rs imm))) := by
  rw [exec_sc, execSc]
  simp only [alignedTo_false (w := .word) mis]
  rfl

variable (al : (s.ea rs imm).toNat % 4 = 0)
include al

theorem exec_ll_of_aligned :
    exec (.ll rt imm rs) s = afterAccess (linkInto rt (s.ea rs imm)) (memRead s (s.ea rs imm) .word) := by
  rw [exec_ll, execLl]
  rw [if_pos ((alignedTo_iff _ .word).2 al)]
  rfl

/-- From RAM, LL completes. -/
theorem exec_ll_ram {r : Region} (hr : resolve s.par.regionMap (s.ea rs imm) = some r) (hk : r.kind = .ram) :
    exec (.ll rt imm rs) s =
      .next (linkInto rt (s.ea rs imm) (valueAt s.mem (s.ea rs imm).toNat .word) s).advance := by
  rw [exec_ll_of_aligned rt rs imm s al, memRead_ram .word hr hk]
  rfl

theorem exec_sc_of_aligned :
    exec (.sc rt imm rs) s =
      if (s.scSuccess (s.ea rs imm)).1 then scStore rt (s.ea rs imm) (s.reg rt) (s.scSuccess (s.ea rs imm)).2
      else .next ((s.scSuccess (s.ea rs imm)).2.conclude rt false).advance := by
  rw [exec_sc, execSc]
  rw [if_pos ((alignedTo_iff _ .word).2 al)]
  rfl

theorem exec_sc_of_success {ok : Bool} {u : State} (h : s.scSuccess (s.ea rs imm) = (ok, u)) :
    exec (.sc rt imm rs) s =
      if ok then scStore rt (s.ea rs imm) (s.reg rt) u else .next (u.conclude rt false).advance := by
  rw [exec_sc_of_aligned rt rs imm s al, h]

end Conditional

section Success

variable {s : State} {ea : Word}

theorem scSuccess_of_no_reservation (h : s.llbit = false) : s.scSuccess ea = (false, s) := by simp [State.scSuccess, h]

theorem scSuccess_of_match (h : s.llbit = true) (same : ea = s.llAddr) (own : s.llForeign = false) :
    s.scSuccess ea = (true, s) := by simp [State.scSuccess, h, same, own]

/-- Where the reservation does not match, the success bit is drawn. -/
theorem scSuccess_of_mismatch (h : s.llbit = true) (other : ¬(ea = s.llAddr ∧ s.llForeign = false)) :
    s.scSuccess ea = (Config.freeBit s.draws, { s with draws := s.draws + 1 }) := by
  rw [State.scSuccess, if_pos h, if_neg other]

end Success

theorem touchesWord_iff {α : Type} (a w : Nat) (bs : List α) :
    touchesWord a bs.length w = true ↔ bs ≠ [] ∧ a < w + 4 ∧ w < a + bs.length := by
  simp [touchesWord, List.length_pos_iff, and_assoc]

/-- Settles O38: the writes that touch the word at LLAddr, and SC by the three ways its success is decided. -/
theorem loadLinkedStoreConditional : Obligations.LoadLinkedStoreConditional := by
  intro s rt rs imm
  refine ⟨by simp [decode], fun b bs => ?foreignWrite, fun b bs => ?foreignLocal, ?_⟩
  case foreignWrite => rw [State.foreignWrite_llForeign, Bool.or_eq_true, touchesWord_iff]
  case foreignLocal =>
    rw [State.foreignLocal_llForeign, Bool.or_eq_true, reservesLocal_iff]
    simp only [List.length_pos_iff]
  have sc {ok : Bool} {u : State} (al : (s.ea rs imm).toNat % 4 = 0) :=
    exec_sc_of_success rt rs imm s al (ok := ok) (u := u)
  refine ⟨exec_ll_of_misaligned rt rs imm s, fun al => ⟨exec_ll_of_aligned rt rs imm s al, fun r hr hk => ?llRam⟩,
    exec_sc_of_misaligned rt rs imm s,
    fun al => ⟨fun free => ?free, fun held same own => ?own, fun held other => ?other⟩⟩
  case llRam =>
    exact ⟨_, exec_ll_ram rt rs imm s al hr hk, rfl, rfl, fun notZero => State.reg_setReg_same _ notZero _⟩
  case free => exact sc al (scSuccess_of_no_reservation free)
  case own => exact sc al (scSuccess_of_match held same own)
  case other => exact ⟨Config.freeBit s.draws, sc al (scSuccess_of_mismatch held other)⟩

/-- Settles O39: nothing touches the reservation between the two, so SC stores, and the word is read back. -/
theorem llThenScSucceeds : Obligations.LlThenScSucceeds := by
  intro s rt q rs imm r al hr hk wf base notZero
  have first := exec_ll_ram q rs imm s al hr hk
  generalize hv : valueAt s.mem (s.ea rs imm).toNat .word = v at first
  generalize ht : (linkInto q (s.ea rs imm) v s).advance = t at first
  have reg : t.reg rs = s.reg rs := by
    subst ht
    rcases base with ne | rfl
    · exact State.reg_setReg_of_ne _ ne.symm v
    · rfl
  have ea : t.ea rs imm = s.ea rs imm := State.ea_congr reg imm
  obtain ⟨held, addr, own, mem, par⟩ : t.llbit = true ∧ t.llAddr = s.ea rs imm ∧ t.llForeign = false ∧
      t.mem = s.mem ∧ t.par = s.par := by
    subst ht
    exact ⟨rfl, rfl, rfl, rfl, rfl⟩
  have success : t.scSuccess (t.ea rs imm) = (true, t) := scSuccess_of_match held (ea.trans addr.symm) own
  have second := (exec_sc_of_success rt rs imm t (by rwa [ea]) success).trans
    (scStore_ram rt (t.reg rt) (r := r) (by rwa [ea, par]) hk)
  refine ⟨t, _, first, second, State.reg_setReg_same _ notZero _, rfl, ?_⟩
  rw [← ea]
  exact valueAt_storeValue (w := .word) (mem ▸ wf) (by rw [ea, bytesOf]; omega) (t.reg rt)

/-! ## Frames (R62, R139, R148 to R152, R155) -/

/-- What an access at `a` leaves alone: the core's registers, and, where no device is called, the devices and every byte
but the `n` at `first`. -/
structure AccessFrame (s : State) (a : Word) (first n : Nat) (t : State) : Prop where
  core : SameCore s t
  memory : noDevice s a → ∀ x, x < first ∨ first + n ≤ x → Memory.read t.mem x = Memory.read s.mem x
  devices : noDevice s a → t.vcop = s.vcop ∧ t.int = s.int ∧ t.dev = s.dev

/-- A bus error leaves the record of a device call at most. -/
def OnlyRecords (s : State) (a : Word) (t : State) : Prop :=
  ∃ d m, t = { s with dev := d, draws := m } ∧ (noDevice s a → d = s.dev)

/-- An access that is made leaves its frame, and one that fails only its record. -/
def Access.Frames (s : State) (a : Word) (first n : Nat) : Access → Prop
  | .ok _ t => AccessFrame s a first n t
  | .busError t => OnlyRecords s a t

theorem accessFrame_draws (s : State) (m : Nat) (a : Word) (first n : Nat) :
    AccessFrame s a first n { s with draws := m } where
  core := by constructor <;> rfl
  memory _ _ _ := rfl
  devices _ := ⟨rfl, rfl, rfl⟩

theorem accessFrame_storeRam (s : State) (m : Nat) (a : Word) (first : Nat) (bs : List Byte) :
    AccessFrame s a first bs.length (State.storeRam { s with draws := m } first bs) where
  core := by constructor <;> rfl
  memory _ _ hx := Memory.read_writeBytes_outside s.mem bs hx
  devices _ := ⟨rfl, rfl, rfl⟩

/-- A device is called only where a dispatch region is reached. -/
theorem not_noDevice {s : State} {a : Word} {r : Region} (hr : resolve s.par.regionMap a = some r)
    (hm : r.kind.mode = .dispatch) : ¬ noDevice s a := fun none => by
  have direct := none r hr
  rw [hm] at direct
  cases direct

theorem onlyRecords_draws (s : State) (m : Nat) (a : Word) : OnlyRecords s a { s with draws := m } :=
  ⟨s.dev, m, rfl, fun _ => rfl⟩

/-- Where a device is called, its frame is the core's registers. -/
theorem frames_of_call {s : State} {a : Word} {access : Access} (first n : Nat) (called : ¬ noDevice s a)
    (core : SameCore s access.state) (failed : ∀ t, access = .busError t → ∃ d m, t = { s with dev := d, draws := m }) :
    access.Frames s a first n := by
  cases access with
  | ok v t => exact ⟨core, fun direct => absurd direct called, fun direct => absurd direct called⟩
  | busError t =>
    obtain ⟨d, m, record⟩ := failed t rfl
    exact ⟨d, m, record, fun direct => absurd direct called⟩

theorem memRead_frames (s : State) (a : Word) (w : Width) : (memRead s a w).Frames s a 0 0 := by
  cases hr : resolve s.par.regionMap a with
  | none => rw [memRead_none w hr]; exact onlyRecords_draws s s.draws a
  | some r =>
    cases hk : r.kind with
    | ram => rw [memRead_ram w hr hk]; exact accessFrame_draws s s.draws a 0 0
    | rom =>
      rw [memRead_rom w hr hk]
      split
      · exact onlyRecords_draws s s.draws a
      · exact accessFrame_draws s s.draws a 0 0
    | device | coprocLocal =>
      exact frames_of_call 0 0 (not_noDevice hr (by rw [hk]; rfl)) (memRead_sameCore s a w) fun _ => memRead_busError

/-- The frame of a write, after the draw that SC may make. -/
theorem memWrite_frames (s : State) (m : Nat) (a : Word) (w : Width) (v : Word) :
    (memWrite { s with draws := m } a w v).Frames s a a.toNat (bytesOf w) := by
  cases hr : resolve s.par.regionMap a with
  | none => rw [memWrite_none (s := { s with draws := m }) w v hr]; exact onlyRecords_draws s m a
  | some r =>
    cases hk : r.kind with
    | ram =>
      rw [memWrite_ram (s := { s with draws := m }) w v hr hk, ← bytesToStore_length v w]
      exact accessFrame_storeRam s m a a.toNat _
    | rom => rw [memWrite_rom (s := { s with draws := m }) w v hr hk]; exact onlyRecords_draws s m a
    | device | coprocLocal =>
      exact frames_of_call _ _ (not_noDevice hr (by rw [hk]; rfl))
        ((accessFrame_draws s m a 0 0).core.trans (memWrite_sameCore _ a w v)) fun _ => memWrite_busError

/-- What an instruction changes after its access: its destination and the reservation at most. -/
structure Finish (i : Instr) (t u : State) : Prop where
  reg : ∀ q, destination i ≠ some q → u.reg q = t.reg q
  llAddr : (∀ rt imm rs, i ≠ .ll rt imm rs) → u.llAddr = t.llAddr
  llbit : (∀ rt imm rs, i ≠ .ll rt imm rs) → (∀ rt imm rs, i ≠ .sc rt imm rs) → u.llbit = t.llbit
  rest : u = { t with gpr := u.gpr, llbit := u.llbit, llAddr := u.llAddr, llForeign := u.llForeign }

theorem Finish.nothing (i : Instr) (t : State) : Finish i t t := ⟨fun _ _ => rfl, fun _ => rfl, fun _ _ => rfl, rfl⟩

theorem Finish.setReg {i : Instr} {rt : RegIdx} (hd : destination i = some rt) (t : State) (v : Word) :
    Finish i t (t.setReg rt v) where
  reg _ other := State.reg_setReg_of_ne t (fun e => other (hd.trans (congrArg some e.symm))) v
  llAddr _ := rfl
  llbit _ _ := rfl
  rest := rfl

theorem Finish.link (rt : RegIdx) (imm : BitVec 16) (rs : RegIdx) (ea v : Word) (t : State) :
    Finish (.ll rt imm rs) t (linkInto rt ea v t) where
  reg _ other := State.reg_setReg_of_ne _ (fun e => other (congrArg some e.symm)) v
  llAddr notLl := absurd rfl (notLl rt imm rs)
  llbit notLl _ := absurd rfl (notLl rt imm rs)
  rest := rfl

theorem Finish.conclude (rt : RegIdx) (imm : BitVec 16) (rs : RegIdx) (ok : Bool) (t : State) :
    Finish (.sc rt imm rs) t (t.conclude rt ok) where
  reg _ other := State.reg_setReg_of_ne _ (fun e => other (congrArg some e.symm)) _
  llAddr _ := rfl
  llbit _ notSc := absurd rfl (notSc rt imm rs)
  rest := rfl

/-- Every next state of a load or a store: an exception entered, or the access, the finish and the sequencing. -/
inductive AccessCase (i : Instr) (s : State) (a : Word) (first n : Nat) : State → Prop where
  | raised (e : Exn) {t : State} (record : OnlyRecords s a t) : AccessCase i s a first n (t.enter e)
  | completed {t u : State} (access : AccessFrame s a first n t) (finish : Finish i t u) :
      AccessCase i s a first n u.advance

/-- When a meaning answers a next state, it is one of an access of `n` bytes at `first`. -/
def MakesAccess (i : Instr) (s : State) (a : Word) (first n : Nat) (r : Result) : Prop :=
  ∀ t, r = .next t → AccessCase i s a first n t

section Shapes

variable {i : Instr} {s : State} {a : Word} {first n : Nat}

theorem raise_makesAccess (e : Exn) : MakesAccess i s a first n (raise e s) := by
  rintro t ⟨⟩
  exact .raised e (onlyRecords_draws s s.draws a)

theorem afterAccess_makesAccess {finish : Word → State → State} {access : Access} (frames : access.Frames s a first n)
    (finishes : ∀ v t, Finish i t (finish v t)) : MakesAccess i s a first n (afterAccess finish access) := by
  cases access with
  | ok v t => rintro _ ⟨⟩; exact .completed frames (finishes v t)
  | busError t => rintro _ ⟨⟩; exact .raised .dbe frames

theorem loadAligned_makesAccess (w : Width) (extend : Word → Word) {rt : RegIdx} (hd : destination i = some rt) :
    MakesAccess i s a 0 0 (loadAligned w extend rt a s) := by
  by_cases al : a.toNat % bytesOf w = 0
  · rw [loadAligned_of_aligned al]
    exact afterAccess_makesAccess (memRead_frames s a w) fun _ t => .setReg hd t _
  · rw [loadAligned_of_misaligned al]
    exact raise_makesAccess _

theorem loadMerged_makesAccess (merge : Word → Word) {rt : RegIdx} (hd : destination i = some rt) (ea : Word) :
    MakesAccess i s (wordBase ea) 0 0 (loadMerged merge rt ea s) :=
  afterAccess_makesAccess (finish := loadInto rt merge) (memRead_frames s (wordBase ea) .word) fun _ t => .setReg hd t _

theorem storeAligned_makesAccess (w : Width) (v : Word) :
    MakesAccess i s a a.toNat (bytesOf w) (storeAligned w v a s) := by
  by_cases al : a.toNat % bytesOf w = 0
  · rw [storeAligned_of_aligned al]
    exact afterAccess_makesAccess (memWrite_frames s s.draws a w v) fun _ t => .nothing i t
  · rw [storeAligned_of_misaligned al]
    exact raise_makesAccess _

/-- A partial store calls no device (R153). -/
theorem storePart_makesAccess {b : Word} {bs : List Byte} (length : bs.length = n) :
    MakesAccess i s a b.toNat n (storePart b bs s) := by
  subst length
  rcases storePart_cases b bs s with h | ⟨_, _, _, h⟩ | ⟨_, _, _, h⟩ <;> rw [h]
  · exact raise_makesAccess .dbe
  · rintro t ⟨⟩
    exact .completed (accessFrame_storeRam s s.draws a b.toNat bs) (.nothing i _)
  · rintro t ⟨⟩

end Shapes

section Exec

variable (rt : RegIdx) (imm : BitVec 16) (rs : RegIdx) (s : State)

theorem exec_ll_makesAccess :
    MakesAccess (.ll rt imm rs) s (s.ea rs imm) 0 0 (exec (.ll rt imm rs) s) := by
  by_cases al : (s.ea rs imm).toNat % 4 = 0
  · rw [exec_ll_of_aligned rt rs imm s al]
    exact afterAccess_makesAccess (memRead_frames s _ _) fun v t => .link rt imm rs _ v t
  · rw [exec_ll_of_misaligned rt rs imm s al]
    exact raise_makesAccess _

theorem scSuccess_draws (s : State) (ea : Word) : ∃ m, (s.scSuccess ea).2 = { s with draws := m } := by
  unfold State.scSuccess
  split
  · split <;> exact ⟨_, rfl⟩
  · exact ⟨_, rfl⟩

theorem exec_sc_makesAccess :
    MakesAccess (.sc rt imm rs) s (s.ea rs imm) (s.ea rs imm).toNat 4 (exec (.sc rt imm rs) s) := by
  by_cases al : (s.ea rs imm).toNat % 4 = 0
  · obtain ⟨m, draw⟩ := scSuccess_draws s (s.ea rs imm)
    rw [exec_sc_of_aligned rt rs imm s al, draw]
    split
    · exact afterAccess_makesAccess (memWrite_frames s m _ .word _) fun _ t => .conclude rt imm rs true t
    · rintro t ⟨⟩
      exact .completed (accessFrame_draws s m _ _ _) (.conclude rt imm rs false _)
  · rw [exec_sc_of_misaligned rt rs imm s al]
    exact raise_makesAccess _

theorem exec_swl_makesAccess :
    MakesAccess (.swl rt imm rs) s (wordBase (s.ea rs imm)) (s.ea rs imm).toNat
      (4 - (byteInWord (s.ea rs imm)).toNat) (exec (.swl rt imm rs) s) := by
  rw [byteInWord_toNat]
  by_cases whole : (s.ea rs imm).toNat % 4 = 0
  · rw [exec_swl_whole rt rs imm s whole, whole, wordBase_of_aligned whole]
    exact afterAccess_makesAccess (memWrite_frames s s.draws _ .word _) fun _ t => .nothing _ t
  · rw [exec_swl_part rt rs imm s whole]
    exact storePart_makesAccess (take_bytesToStore_length _ (Nat.sub_le 4 _))

theorem exec_swr_makesAccess :
    MakesAccess (.swr rt imm rs) s (wordBase (s.ea rs imm)) (wordBase (s.ea rs imm)).toNat
      ((byteInWord (s.ea rs imm)).toNat + 1) (exec (.swr rt imm rs) s) := by
  rw [byteInWord_toNat]
  by_cases whole : (s.ea rs imm).toNat % 4 = 3
  · rw [exec_swr_whole rt rs imm s whole, whole]
    exact afterAccess_makesAccess (memWrite_frames s s.draws _ .word _) fun _ t => .nothing _ t
  · rw [exec_swr_part rt rs imm s whole]
    exact storePart_makesAccess (drop_bytesToStore_length _ (Nat.mod_lt _ (by decide)))

end Exec

theorem exec_load_makesAccess {i : Instr} {s : State} {a : Word} (load : isLoad i = true)
    (address : accessAddress s i = some a) : MakesAccess i s a 0 0 (exec i s) := by
  cases i with
  | lb _ _ _ => cases address; exact loadAligned_makesAccess .byte signByte rfl
  | lbu _ _ _ => cases address; exact loadAligned_makesAccess .byte id rfl
  | lh _ _ _ => cases address; exact loadAligned_makesAccess .half signHalf rfl
  | lhu _ _ _ => cases address; exact loadAligned_makesAccess .half id rfl
  | lw _ _ _ => cases address; exact loadAligned_makesAccess .word id rfl
  | lwl _ _ _ | lwr _ _ _ => cases address; exact loadMerged_makesAccess _ rfl _
  | ll rt imm rs => cases address; exact exec_ll_makesAccess rt imm rs s
  | _ => cases load

theorem exec_store_makesAccess {i : Instr} {s : State} {first access : Word} {n : Nat}
    (span : storeSpan s i = some (first, n)) (address : accessAddress s i = some access) :
    MakesAccess i s access first.toNat n (exec i s) := by
  cases i with
  | sb _ _ _ => cases address; cases span; exact storeAligned_makesAccess .byte _
  | sh _ _ _ => cases address; cases span; exact storeAligned_makesAccess .half _
  | sw _ _ _ => cases address; cases span; exact storeAligned_makesAccess .word _
  | swl rt imm rs => cases address; cases span; exact exec_swl_makesAccess rt imm rs s
  | swr rt imm rs => cases address; cases span; exact exec_swr_makesAccess rt imm rs s
  | sc rt imm rs => cases address; cases span; exact exec_sc_makesAccess rt imm rs s
  | _ => cases span

/-! ### What each next state of an access keeps -/

section Kept

variable {i : Instr} {s t : State} {a : Word} {first n : Nat} (h : AccessCase i s a first n t)
include h

theorem AccessCase.registers :
    (∀ q, destination i ≠ some q → t.reg q = s.reg q) ∧ t.hi = s.hi ∧ t.lo = s.lo ∧ t.rom = s.rom ∧ t.par = s.par ∧
      t.run = s.run := by
  cases h with
  | raised e record =>
    obtain ⟨d, m, rfl, _⟩ := record
    exact ⟨fun _ _ => rfl, rfl, rfl, rfl, rfl, rfl⟩
  | completed access finish =>
    obtain ⟨core, _, _⟩ := access
    exact ⟨fun q other => (finish.reg q other).trans (core.reg q), (congrArg State.hi finish.rest).trans core.hi,
      (congrArg State.lo finish.rest).trans core.lo, (congrArg State.rom finish.rest).trans core.rom,
      (congrArg State.par finish.rest).trans core.par, (congrArg State.run finish.rest).trans core.run⟩

theorem AccessCase.llAddr (notLl : ∀ rt imm rs, i ≠ .ll rt imm rs) : t.llAddr = s.llAddr := by
  cases h with
  | raised e record =>
    obtain ⟨d, m, rfl, _⟩ := record
    rfl
  | completed access finish => exact (finish.llAddr notLl).trans access.core.llAddr

theorem AccessCase.control :
    (∃ e d m, t = State.enter { s with dev := d, draws := m } e) ∨
      t.status = s.status ∧ t.cause = s.cause ∧ t.epc = s.epc ∧ t.badVAddr = s.badVAddr ∧
      ((∀ rt imm rs, i ≠ .ll rt imm rs) → (∀ rt imm rs, i ≠ .sc rt imm rs) → t.llbit = s.llbit) := by
  cases h with
  | raised e record =>
    obtain ⟨d, m, rfl, _⟩ := record
    exact .inl ⟨e, d, m, rfl⟩
  | completed access finish =>
    obtain ⟨core, _, _⟩ := access
    exact .inr ⟨(congrArg State.status finish.rest).trans core.status,
      (congrArg State.cause finish.rest).trans core.cause, (congrArg State.epc finish.rest).trans core.epc,
      (congrArg State.badVAddr finish.rest).trans core.badVAddr,
      fun notLl notSc => (finish.llbit notLl notSc).trans core.llbit⟩

theorem AccessCase.memory (direct : noDevice s a) :
    (∀ x, x < first ∨ first + n ≤ x → Memory.read t.mem x = Memory.read s.mem x) ∧ t.vcop = s.vcop ∧ t.int = s.int ∧
      t.dev = s.dev := by
  cases h with
  | raised e record =>
    obtain ⟨d, m, rfl, called⟩ := record
    exact ⟨fun _ _ => rfl, rfl, rfl, called direct⟩
  | @completed t u access finish =>
    have mem : u.mem = t.mem := by rw [finish.rest]
    obtain ⟨vcop, int, dev⟩ := access.devices direct
    refine ⟨fun x hx => ?_, (congrArg State.vcop finish.rest).trans vcop,
      (congrArg State.int finish.rest).trans int, (congrArg State.dev finish.rest).trans dev⟩
    rw [State.advance_mem, mem]
    exact access.memory direct x hx

end Kept

/-- Settles O49: each load makes one read, which stores no byte, and changes its destination and, for LL, the
reservation besides. -/
theorem loadsFrame : Obligations.LoadsFrame := by
  intro i s t a load address h
  have k := exec_load_makesAccess load address t h
  have notSc : ∀ rt imm rs, i ≠ .sc rt imm rs := by rintro _ _ _ rfl; cases load
  obtain ⟨reg, hi, lo, rom, par, run⟩ := k.registers
  refine ⟨reg, hi, lo, rom, par, run, k.control.imp_right ?control, fun direct => ?memory⟩
  case control =>
    rintro ⟨status, cause, epc, badVAddr, llbit⟩
    exact ⟨status, cause, epc, badVAddr, fun notLl => ⟨llbit notLl notSc, k.llAddr notLl⟩⟩
  case memory =>
    obtain ⟨mem, devices⟩ := k.memory direct
    exact ⟨fun x => mem x (.inr (Nat.zero_le x)), devices⟩

/-- Settles O50: each store makes one write of the bytes of its span at most, and SC changes its destination and LLbit
besides. -/
theorem storesFrame : Obligations.StoresFrame := by
  intro i s t first access n span address h
  have k := exec_store_makesAccess span address t h
  have notLl : ∀ rt imm rs, i ≠ .ll rt imm rs := by rintro _ _ _ rfl; cases span
  obtain ⟨reg, hi, lo, rom, par, run⟩ := k.registers
  refine ⟨reg, hi, lo, rom, par, run, k.llAddr notLl, k.control.imp_right ?control, k.memory⟩
  rintro ⟨status, cause, epc, badVAddr, llbit⟩
  exact ⟨status, cause, epc, badVAddr, llbit notLl⟩

end Sys2Proof.Machine

/-! 43_system_cop.md: the conditional traps (R160 to R171), the moves of coprocessor 0 and RFE (R172 to R174), and the
encodings of the coprocessors 1 to 3 (R175). -/

namespace Sys2Proof.Machine

/-! ## Conditional traps (R160 to R171) -/

/-- A trap under any name for its condition. -/
theorem trapWhen_of_iff {c : Bool} {p : Prop} (h : c = true ↔ p) (s : State) :
    (p → trapWhen c s = .next (s.enter .tr)) ∧ (¬p → trapWhen c s = .next s.advance) :=
  ⟨fun yes => if_pos (h.2 yes), fun no => if_neg (mt h.1 no)⟩

theorem not_ltSigned_iff (a b : Word) : (!ltSigned a b) = true ↔ a.toInt ≥ b.toInt := by
  rw [Bool.not_eq_true', ← Bool.not_eq_true, ltSigned_iff, Int.not_lt]

theorem not_ltUnsigned_iff (a b : Word) : (!ltUnsigned a b) = true ↔ a.toNat ≥ b.toNat := by
  rw [Bool.not_eq_true', ← Bool.not_eq_true, ltUnsigned_iff, Nat.not_lt]

/-- Settles O41: each trap is the one shape, and its comparison is the rule's; the sign-extended immediate is the same
integer. -/
theorem conditionalTraps : Obligations.ConditionalTraps := by
  intro s rs rt code imm
  refine ⟨?decoding, trapWhen_of_iff (not_ltSigned_iff _ _) s, trapWhen_of_iff (not_ltUnsigned_iff _ _) s,
    trapWhen_of_iff (ltSigned_iff _ _) s, trapWhen_of_iff (ltUnsigned_iff _ _) s, trapWhen_of_iff decide_eq_true_iff s,
    trapWhen_of_iff decide_eq_true_iff s, trapWhen_of_iff ?tgei s, trapWhen_of_iff (not_ltUnsigned_iff _ _) s,
    trapWhen_of_iff ?tlti s, trapWhen_of_iff (ltUnsigned_iff _ _) s, trapWhen_of_iff decide_eq_true_iff s,
    trapWhen_of_iff decide_eq_true_iff s⟩
  case decoding => simp [decode, decodeSpecial, decodeRegimm]
  case tgei => rw [not_ltSigned_iff, simm_toInt]
  case tlti => rw [ltSigned_iff, simm_toInt]

/-! ## Words of COP0 (R80) -/

section Words

variable (sub rt n : RegIdx) (x : BitVec 11) (y : BitVec 19)

/-- The fields of a move's word, whatever its bits 10:0 hold. -/
theorem fields_of_moveWord {w : Word} (h : w = 0x10#6 ++ sub ++ rt ++ n ++ x) :
    opOf w = 0x10#6 ∧ rsOf w = sub ∧ rtOf w = rt ∧ rdOf w = n := by
  subst h
  simp (disch := decide) only [opOf, rsOf, rtOf, rdOf, extract_append_low, extract_append_high, Nat.reduceSub,
    BitVec.extractLsb'_eq_self, and_self]

theorem decode_mfc0Word : decode (0x10#6 ++ 0x00#5 ++ rt ++ n ++ x) = .instr (.mfc0 rt n) := by
  obtain ⟨op, rs, rt', rd⟩ := fields_of_moveWord 0x00#5 rt n x rfl
  rw [decode_cop0 op, decodeCop0, coOf_eq, rs, rt', rd]
  rfl

theorem decode_mtc0Word : decode (0x10#6 ++ 0x04#5 ++ rt ++ n ++ x) = .instr (.mtc0 rt n) := by
  obtain ⟨op, rs, rt', rd⟩ := fields_of_moveWord 0x04#5 rt n x rfl
  rw [decode_cop0 op, decodeCop0, coOf_eq, rs, rt', rd]
  rfl

/-- A word with `co` = 1 and the `funct` of RFE, whatever its bits 24:6 hold. -/
theorem decode_rfeWord : decode (0x10#6 ++ 1#1 ++ y ++ 0x10#6) = .instr .rfe := by
  generalize h : (0x10#6 ++ 1#1 ++ y ++ 0x10#6 : Word) = w
  obtain ⟨op, co, funct⟩ : opOf w = 0x10#6 ∧ coOf w = 1#1 ∧ functOf w = 0x10#6 := by
    subst h
    simp (disch := decide) only [opOf, coOf, functOf, extract_append_low, extract_append_high, Nat.reduceSub,
      BitVec.extractLsb'_eq_self, and_self]
  rw [decode_cop0 op, decodeCop0, co, funct]
  rfl

end Words

/-! ## The moves by number (R28, R172, R173) -/

section Moves

variable {s t : State} {n : RegIdx} {v : Word} (rt : RegIdx)

theorem exec_mfc0_of_some (h : s.cp0Read n = some v) : exec (.mfc0 rt n) s = .next (s.setReg rt v).advance := by
  rw [exec_mfc0, execMfc0, h]
  rfl

theorem exec_mfc0_of_unimplemented (h : implementedCp0 n = false) :
    exec (.mfc0 rt n) s = .fault (.unpredictable .unimplementedCp0) := by
  rw [exec_mfc0, execMfc0, (cp0Read_eq_none_iff s n).2 h]

theorem exec_mtc0_of_some (h : s.cp0Write n (s.reg rt) = some t) : exec (.mtc0 rt n) s = .next t.advance := by
  rw [exec_mtc0, execMtc0, h]

theorem exec_mtc0_of_unimplemented (h : implementedCp0 n = false) :
    exec (.mtc0 rt n) s = .fault (.unpredictable .unimplementedCp0) := by
  rw [exec_mtc0, execMtc0, (cp0Write_eq_none_iff s n _).2 h]

theorem implementedCp0_eq_false_of_not_mem (h : n ∉ [8#5, 12#5, 13#5, 14#5, 15#5]) : implementedCp0 n = false := by
  simpa [implementedCp0_eq_false_iff] using h

end Moves

/-- Settles O42: each number's value, which MFC0 writes as any result is written. -/
theorem mfc0Reads : Obligations.Mfc0Reads := by
  intro s rt n
  exact ⟨decode_mfc0Word rt n, exec_mfc0_of_some rt rfl, exec_mfc0_of_some rt rfl, exec_mfc0_of_some rt rfl,
    exec_mfc0_of_some rt rfl, exec_mfc0_of_some rt rfl,
    fun other => exec_mfc0_of_unimplemented rt (implementedCp0_eq_false_of_not_mem other)⟩

/-! ## What a write of Status or Cause is read back as (R23, R24, R173) -/

theorem Status.ofWord_toWord (v : Word) : (Status.ofWord v).toWord = v &&& 0xF000FF3F#32 := by
  apply BitVec.eq_of_getLsbD_eq
  intro i hi
  simp only [Status.toWord, Status.ofWord, BitVec.getLsbD_append, BitVec.getLsbD_and, BitVec.getLsbD_extractLsb']
  interval_cases i <;> simp

/-- A word with its bits 9:8 taken from another word. -/
theorem middle_replaced_eq_or (a : BitVec 22) (old : BitVec 2) (b : BitVec 8) (v : Word) :
    a ++ v.extractLsb' 8 2 ++ b = ((a ++ old ++ b) &&& ~~~0x00000300#32) ||| (v &&& 0x00000300#32) := by
  apply BitVec.eq_of_getLsbD_eq
  intro i hi
  simp only [BitVec.getLsbD_append, BitVec.getLsbD_or, BitVec.getLsbD_and, BitVec.getLsbD_extractLsb']
  interval_cases i <;> simp

/-- The fields of Cause above IP[1:0], and those below it. -/
theorem State.causeWord_eq_append (s : State) :
    s.causeWord = (BitVec.ofBool s.cause.bd ++ 0#1 ++ s.cause.ce ++ 0#12 ++ s.intLevels) ++ s.cause.ip ++
      (0#1 ++ s.cause.excCode ++ 0#2) := by
  rw [State.causeWord, BitVec.append_assoc', BitVec.append_assoc']
  rfl

theorem State.causeWord_write (s : State) (v : Word) :
    State.causeWord { s with cause := { s.cause with ip := v.extractLsb' 8 2 } } =
      (s.causeWord &&& ~~~0x00000300#32) ||| (v &&& 0x00000300#32) := by
  rw [s.causeWord_eq_append, State.causeWord_eq_append]
  exact middle_replaced_eq_or _ _ _ v

/-- Settles O43: each number's write, and what its register is then read as. -/
theorem mtc0Writes : Obligations.Mtc0Writes := by
  intro s rt n
  exact ⟨decode_mtc0Word rt n, ⟨_, exec_mtc0_of_some rt rfl, Status.ofWord_toWord _, rfl⟩,
    ⟨_, exec_mtc0_of_some rt rfl, s.causeWord_write _, rfl⟩, exec_mtc0_of_some rt rfl, exec_mtc0_of_some rt rfl,
    exec_mtc0_of_some rt rfl,
    fun other => exec_mtc0_of_unimplemented rt (implementedCp0_eq_false_of_not_mem other)⟩

/-! ## The status stack (R23, R174, R180) -/

namespace Status

variable (t : Status)

theorem toWord_stack (i k : Nat) (h : i + k ≤ 6) : t.toWord.extractLsb' i k = t.kuie.extractLsb' i k :=
  extract_append_low _ _ i k h

/-- Above the stack, Status is read from its other fields. -/
theorem toWord_above (stack : BitVec 6) (i k : Nat) (h : 6 ≤ i) :
    { t with kuie := stack }.toWord.extractLsb' i k = t.toWord.extractLsb' i k := by
  rw [toWord, toWord, extract_append_high _ _ i k h, extract_append_high _ _ i k h]

theorem toWord_pop_low : t.pop.toWord.extractLsb' 0 4 = t.toWord.extractLsb' 2 4 := by
  rw [toWord_stack _ _ _ (by decide), toWord_stack _ _ _ (by decide), pop, extract_append_low _ _ _ _ (by decide)]
  exact BitVec.extractLsb'_eq_self

theorem toWord_pop_old : t.pop.toWord.extractLsb' 4 2 = t.toWord.extractLsb' 4 2 := by
  rw [toWord_stack _ _ _ (by decide), toWord_stack _ _ _ (by decide), pop, extract_append_high _ _ _ _ (by decide)]
  exact BitVec.extractLsb'_eq_self

/-- RFE leaves bits 5:4 and everything above the stack. -/
theorem toWord_pop_high : t.pop.toWord.extractLsb' 4 28 = t.toWord.extractLsb' 4 28 := by
  have cut (w : Word) : w.extractLsb' 6 26 ++ w.extractLsb' 4 2 = w.extractLsb' 4 28 :=
    BitVec.extractLsb'_append_extractLsb'_eq_extractLsb' rfl
  rw [← cut, ← cut, toWord_pop_old, pop, toWord_above t _ 6 26 (by decide)]

/-- An entry moves the lower four bits of the stack up by two. -/
theorem toWord_push_stack (i k : Nat) (h : i + k ≤ 4) :
    t.push.toWord.extractLsb' (i + 2) k = t.toWord.extractLsb' i k := by
  rw [toWord_stack _ _ _ (by omega), toWord_stack _ _ _ (by omega), push, extract_append_high _ _ _ _ (by omega),
    Nat.add_sub_cancel]
  apply BitVec.eq_of_getLsbD_eq
  intro j hj
  simp [show i + j < 4 by omega]

end Status

/-- Settles O44: the pop moves the stack down by the two bits the push of an entry moved it up. -/
theorem rfePopsStatus : Obligations.RfePopsStatus := by
  refine ⟨decode_rfeWord, fun s => ⟨_, rfl, s.status.toWord_pop_low, s.status.toWord_pop_high, rfl⟩,
    fun s e => ⟨_, rfl, ?current, ?old, ?above⟩⟩
  case current => exact (Status.toWord_pop_low _).trans (Status.toWord_push_stack s.status 0 4 (by decide))
  case old => exact (Status.toWord_pop_old _).trans (Status.toWord_push_stack s.status 2 2 (by decide))
  case above => exact Status.toWord_above s.status _ 8 24 (by decide)

/-! ## Coprocessors 1 to 3 (R175) -/

/-- Settles O45: a group is decoded by its opcode alone, and its meaning is CpU with its unit. -/
theorem coprocessorsUnusable : Obligations.CoprocessorsUnusable := by
  refine ⟨fun x => ?decoding, fun s => ⟨?cop1, ?cop2, ?cop3, fun z => ?entry⟩⟩
  case decoding => simp [decode]
  case cop1 | cop2 | cop3 =>
    simp only [List.forall_mem_cons]
    exact ⟨rfl, rfl, rfl, rfl, rfl, nofun⟩
  case entry => exact ⟨State.causeWord_ce _, State.causeWord_excCode _, rfl, rfl⟩

end Sys2Proof.Machine

/-! 60_exceptions.md: interrupt sampling (R184), the entry of an exception and what it leaves alone (R180), the double
fault (R183), exceptions in a delay slot (R182), Status as a register that no other behaviour depends on (R190), and the
DMA requests of the coprocessor (R194). -/

namespace Sys2Proof.Machine

/-! ## Interrupt sampling (R184) -/

/-- The sampling condition, as the words of Status and Cause show it. -/
theorem interruptPending_iff (s : State) :
    s.interruptPending = true ↔ s.status.toWord.getLsbD 0 = true ∧
      (s.causeWord.extractLsb' 8 8 &&& s.status.toWord.extractLsb' 8 8) ≠ 0#8 := by
  rw [Status.toWord_iec, State.causeWord_ip, Status.toWord_im, State.interruptPending, Bool.and_eq_true,
    decide_eq_true_eq]

theorem step_of_interrupt {s : State} (run : s.run = .running) (pending : s.interruptPending = true) :
    step s = .next (s.enter .int) := by
  rw [step, run]
  exact if_pos pending

/-- Settles O2: the sampling comes before the fetch, and an entry writes neither the lines nor the coprocessor. -/
theorem interruptSampling : Obligations.InterruptSampling := by
  intro s run
  rw [← interruptPending_iff]
  refine ⟨State.causeWord_int s, fun pending => ⟨step_of_interrupt run pending, rfl, rfl⟩, fun quiet => ?fetch⟩
  case fetch =>
    have noInt : s.interruptPending = false := Bool.eq_false_iff.2 quiet
    exact ⟨fun _ _ => step_of_fetch_word run noInt, fun _ _ => step_of_fetch_error run noInt⟩

/-! ## The double fault (R183) -/

theorem takeException_fetch_at_vector {s : State} (e : Exn) (vector : s.pc = s.par.excVector) :
    takeException e true s = .fault .doubleFault := by
  simp [takeException, vector]

theorem takeException_fetch_elsewhere {s : State} (e : Exn) (other : s.pc ≠ s.par.excVector) :
    takeException e true s = .next (s.enter e) := by
  simp [takeException, other]

/-- Settles O4: a fetch that raises moves neither PC nor EXC_VECTOR, so where it stood decides between the stop, which
halts the state before the step, and the entry. -/
theorem doubleFault : Obligations.DoubleFault := by
  refine ⟨fun s t e run noInt h => ?fetch, raise_eq⟩
  case fetch =>
    have fetched := step_of_fetch_error run noInt h
    obtain ⟨d, n, rfl⟩ := fetch_error_state h
    refine ⟨fun vector => ?_, fun other => fetched.trans (takeException_fetch_elsewhere e other)⟩
    have stop := fetched.trans (takeException_fetch_at_vector e vector)
    exact ⟨stop, afterStep_of_fault stop⟩

/-! ## Exception entry (R180) -/

/-- The push as a mask and a shift of the whole word: Status[5:0] <- {Status[3:0], 0b00}. -/
theorem Status.toWord_push (t : Status) :
    t.push.toWord = (t.toWord &&& 0xFFFFFFC0#32) ||| ((t.toWord &&& 0x0000000F#32) <<< 2) := by
  apply BitVec.eq_of_getLsbD_eq
  intro i hi
  simp only [Status.toWord, Status.push, BitVec.getLsbD_append, BitVec.getLsbD_or, BitVec.getLsbD_and,
    BitVec.getLsbD_shiftLeft, BitVec.getLsbD_extractLsb']
  interval_cases i <;> simp

/-- Settles O6: an entry answers `State.enter`, whose fields are read off the words of Status and Cause. -/
theorem exceptionEntry : Obligations.ExceptionEntry := by
  refine ⟨fun e s => ?fetch, fun e s => ⟨s.enter e, rfl, rfl, State.causeWord_bd _, ?code, ?ce, ?badVAddr,
    s.status.toWord_push, rfl, rfl, rfl, rfl, ?ip, rfl, rfl, rfl, rfl, rfl, rfl, rfl, rfl, rfl, rfl, rfl, rfl⟩⟩
  case fetch =>
    split
    · next vector => exact takeException_fetch_at_vector e vector
    · next other => exact takeException_fetch_elsewhere e other
  case code => rw [State.causeWord_excCode]; cases e <;> rfl
  case ce => rw [State.causeWord_ce]; cases e <;> rfl
  case badVAddr => cases e <;> rfl
  case ip => rw [State.causeWord_ip, State.causeWord_ip]; rfl

/-! ## Exceptions in a delay slot (R182) -/

theorem State.victim_of_slot {s : State} (slot : s.delay = true) : s.victim = s.pc - 4 := by simp [State.victim, slot]

theorem State.victim_of_not_slot {s : State} (outside : s.delay = false) : s.victim = s.pc := by
  simp [State.victim, outside]

/-- Settles O9: a transfer leaves PC one word after itself and DELAY set, and the victim of a slot is one word
before. -/
theorem delaySlotReporting : Obligations.DelaySlotReporting := by
  refine ⟨fun s t i e hs transfer h => ?slot, fun s e outside => ?elsewhere⟩
  case slot =>
    obtain ⟨outside, g, taken, target, rfl⟩ := exec_transfer_next transfer h
    refine ⟨?_, State.causeWord_bd _, rfl, rfl⟩
    rw [State.enter_epc, State.victim_of_slot rfl, State.transfer_pc]
    show s.npc - 4 = s.pc
    rw [hs.npc_of_not_slot outside]
    exact BitVec.add_sub_cancel s.pc 4
  case elsewhere => exact ⟨State.victim_of_not_slot outside, (State.causeWord_bd _).trans outside⟩

/-! ## A DMA request by its range (R194) -/

section Dma

variable {s : State} {main loc len : Nat}

theorem dma_beyond {dir : DmaDir} (h : s.dmaInRange dir main loc len = false) :
    s.dma dir main loc len = s.setDmaError true := by
  simp [State.dma, h]

theorem dma_mainToLocal (h : s.dmaInRange .mainToLocal main loc len = true) :
    s.dma .mainToLocal main loc len =
      (State.foreignLocal { s with draws := s.draws + 1 } loc (s.mainBytes main len)).setDmaError false := by
  simp [State.dma, h]

theorem dma_localToMain (h : s.dmaInRange .localToMain main loc len = true) :
    s.dma .localToMain main loc len =
      (s.foreignWrite main (Memory.readBytes s.vcop.localMem loc len)).setDmaError false := by
  simp [State.dma, h]

/-- What a byte of main memory is read from: the map, RAM, the ROM store and the counter of free values. -/
theorem mainBytes_congr {t : State} (par : t.par = s.par) (mem : t.mem = s.mem) (rom : t.rom = s.rom)
    (draws : t.draws = s.draws) (a n : Nat) : t.mainBytes a n = s.mainBytes a n := by
  induction n generalizing a with
  | zero => rfl
  | succ n ih => simp only [State.mainBytes, State.mainByte, par, mem, rom, draws, ih]

end Dma

/-! ## Status changes no behaviour (R190): neither a device call nor an access looks at it -/

/-- The state with another Status. -/
def State.withStatus (s : State) (st : Status) : State := { s with status := st }

@[simp] theorem State.withStatus_par (s : State) (st : Status) : (s.withStatus st).par = s.par := rfl

/-- The same answer of an access, in the state with another Status. -/
def Access.withStatus (st : Status) : Access → Access
  | .ok v t => .ok v (t.withStatus st)
  | .busError t => .busError (t.withStatus st)

section Accesses

variable (s : State) (st : Status)

theorem dma_withStatus (dir : DmaDir) (main loc len : Nat) :
    (s.withStatus st).dma dir main loc len = (s.dma dir main loc len).withStatus st := by
  have same : (s.withStatus st).dmaInRange dir main loc len = s.dmaInRange dir main loc len := rfl
  cases inRange : s.dmaInRange dir main loc len with
  | false =>
    rw [dma_beyond inRange, dma_beyond (same.trans inRange)]
    rfl
  | true =>
    cases dir with
    | mainToLocal =>
      have bytes : (s.withStatus st).mainBytes main len = s.mainBytes main len :=
        mainBytes_congr (s := s) (t := s.withStatus st) rfl rfl rfl rfl _ _
      rw [dma_mainToLocal inRange, dma_mainToLocal (same.trans inRange), bytes]
      rfl
    | localToMain =>
      rw [dma_localToMain inRange, dma_localToMain (same.trans inRange)]
      rfl

theorem deviceAction_withStatus (role : CallRole) (a : DevAction) :
    (s.withStatus st).deviceAction role a = (s.deviceAction role a).withStatus st := by
  cases a with
  | dma dir main loc len =>
    cases role with
    | run | mayDma => exact dma_withStatus s st dir main loc len
    | plain => rfl
  | localByte loc value =>
    cases role with
    | run =>
      exact (apply_ite (fun t : State => t.withStatus st) (loc < s.vcop.localSize) (s.foreignLocal loc [value]) s).symm
    | mayDma | plain => rfl
  | registers regs microPc => cases role <;> rfl
  | clearDone => rfl
  | acknowledge =>
    exact (apply_ite (fun t : State => t.withStatus st) (s.par.vcopRegs.acknowledge.isNone = true)
      { s with vcop := { s.vcop with irq := false } } s).symm

theorem deviceActions_withStatus (role : CallRole) (as : List DevAction) :
    (s.withStatus st).deviceActions role as = (s.deviceActions role as).withStatus st := by
  induction as generalizing s with
  | nil => rfl
  | cons a as ih =>
    rw [State.deviceActions, State.deviceActions, deviceAction_withStatus, ih]

variable (c : DevCall)

theorem windowStore_withStatus : (s.withStatus st).windowStore c = (s.windowStore c).withStatus st := by
  cases hw : c.write with
  | none => rw [windowStore_of_read hw, windowStore_of_read hw]
  | some v =>
    have same : (s.withStatus st).windowAccess c = s.windowAccess c := rfl
    cases ho : s.windowAccess c with
    | none => rw [windowStore_of_no_window ho, windowStore_of_no_window (same.trans ho)]
    | some o =>
      rw [windowStore_of_write hw ho, windowStore_of_write hw (same.trans ho)]
      rfl

theorem registerDma_withStatus : (s.withStatus st).registerDma c = (s.registerDma c).withStatus st := by
  unfold State.registerDma
  rw [State.withStatus_par]
  cases s.par.vcopRegs.dma with
  | none => rfl
  | some l =>
    dsimp only
    cases l.started c with
    | none => rfl
    | some dir => exact dma_withStatus s st dir _ _ _

theorem takeCall_withStatus : (s.withStatus st).takeCall c = (s.takeCall c).withStatus st := by
  have recorded : (s.withStatus st).recordCall c = (s.recordCall c).withStatus st := rfl
  rw [takeCall_eq, takeCall_eq, recorded, windowStore_withStatus, registerDma_withStatus]

theorem afterDeviceCall_withStatus (reply : DevReply) :
    (s.withStatus st).afterDeviceCall c reply = (s.afterDeviceCall c reply).withStatus st := by
  have actions : (s.withStatus st).afterActions c reply = (s.afterActions c reply).withStatus st :=
    (congrArg (·.deviceActions (s.callRole c) reply.actions) (takeCall_withStatus s st c)).trans
      (deviceActions_withStatus _ st _ _)
  have same : startsRun (s.withStatus st).par c = startsRun s.par c := rfl
  cases run : startsRun s.par c with
  | true =>
    rw [afterDeviceCall_of_run run, afterDeviceCall_of_run (same.trans run), actions]
    rfl
  | false =>
    rw [afterDeviceCall_of_no_run run, afterDeviceCall_of_no_run (same.trans run), actions]
    rfl

/-- The device is asked the same, answers the same, and its answer does the same. -/
theorem deviceCall_withStatus : deviceCall (s.withStatus st) c = (deviceCall s c).withStatus st := by
  have asked : (s.withStatus st).deviceContext c = s.deviceContext c := rfl
  rw [deviceCall, deviceCall, asked]
  generalize Config.device (s.deviceContext c) = reply
  cases fault : reply.fault with
  | true =>
    rw [answerCall_fault fault, answerCall_fault fault]
    rfl
  | false =>
    rw [answerCall_ok fault, answerCall_ok fault, afterDeviceCall_withStatus]
    rfl

variable (a : Word) (w : Width)

theorem memRead_withStatus : memRead (s.withStatus st) a w = (memRead s a w).withStatus st := by
  unfold memRead
  rw [State.withStatus_par]
  cases resolve s.par.regionMap a with
  | none => rfl
  | some r =>
    dsimp only
    cases r.kind with
    | ram => rfl
    | rom =>
      exact (apply_ite (Access.withStatus st) (offsetIn r a + bytesOf w > s.rom.size) (.busError s)
        (.ok (valueAt s.rom.cells (offsetIn r a) w) s)).symm
    | device | coprocLocal => exact deviceCall_withStatus s st _

theorem deviceWrite_withStatus (v : Word) :
    deviceWrite (s.withStatus st) a w v = (deviceWrite s a w v).withStatus st := by
  rw [deviceWrite, deviceWrite, deviceCall_withStatus]
  cases deviceCall s { addr := a, width := w, write := some (lowBits w v) } <;> rfl

theorem memWrite_withStatus (v : Word) : memWrite (s.withStatus st) a w v = (memWrite s a w v).withStatus st := by
  unfold memWrite
  rw [State.withStatus_par]
  cases resolve s.par.regionMap a with
  | none => rfl
  | some r =>
    dsimp only
    cases r.kind with
    | ram | rom => rfl
    | device | coprocLocal => exact deviceWrite_withStatus s st a w v

end Accesses

/-! ## Status changes no behaviour: the shapes the meanings share -/

/-- When the first answers a next state, the second answers the same one with some Status. -/
def SameButStatus (r r' : Result) : Prop := ∀ t, r = .next t → ∃ st, r' = .next (t.withStatus st)

theorem next_sameButStatus (t : State) (st : Status) : SameButStatus (.next t) (.next (t.withStatus st)) := by
  rintro _ ⟨⟩
  exact ⟨st, rfl⟩

theorem fault_sameButStatus (f : Fault) (r : Result) : SameButStatus (.fault f) r := fun _ h => by cases h

theorem ite_sameButStatus (c : Prop) [Decidable c] {a b a' b' : Result} (ha : SameButStatus a a')
    (hb : SameButStatus b b') : SameButStatus (if c then a else b) (if c then a' else b') := by
  split
  · exact ha
  · exact hb

section Shapes

variable (s : State) (st : Status)

/-- An entry pushes the status stack that it finds. -/
theorem raise_sameButStatus (e : Exn) : SameButStatus (raise e s) (raise e (s.withStatus st)) :=
  next_sameButStatus (s.enter e) st.push

theorem advance_sameButStatus : SameButStatus (.next s.advance) (.next (s.withStatus st).advance) :=
  next_sameButStatus s.advance st

theorem writeResult_sameButStatus (r : RegIdx) (v : Word) :
    SameButStatus (writeResult r v s) (writeResult r v (s.withStatus st)) :=
  advance_sameButStatus (s.setReg r v) st

theorem writeOrOverflow_sameButStatus (r : RegIdx) (n : Int) :
    SameButStatus (writeOrOverflow r n s) (writeOrOverflow r n (s.withStatus st)) :=
  ite_sameButStatus _ (raise_sameButStatus s st .ov) (writeResult_sameButStatus s st r _)

theorem writeHiLo_sameButStatus (p : Word × Word) : SameButStatus (writeHiLo p s) (writeHiLo p (s.withStatus st)) :=
  advance_sameButStatus { s with hi := p.1, lo := p.2 } st

theorem trapWhen_sameButStatus (c : Bool) : SameButStatus (trapWhen c s) (trapWhen c (s.withStatus st)) :=
  ite_sameButStatus _ (raise_sameButStatus s st .tr) (advance_sameButStatus s st)

theorem unlessInSlot_sameButStatus {r r' : Result} (h : SameButStatus r r') :
    SameButStatus (unlessInSlot s r) (unlessInSlot (s.withStatus st) r') :=
  ite_sameButStatus _ (fault_sameButStatus _ _) h

theorem branchWhen_sameButStatus (taken : Bool) (target : Word) :
    SameButStatus (branchWhen taken target s) (branchWhen taken target (s.withStatus st)) :=
  unlessInSlot_sameButStatus s st (next_sameButStatus (s.transfer taken target) st)

theorem linkAndBranch_sameButStatus (link : RegIdx) (taken : Bool) (target : Word) :
    SameButStatus (linkAndBranch link taken target s) (linkAndBranch link taken target (s.withStatus st)) :=
  unlessInSlot_sameButStatus s st (next_sameButStatus ((s.setReg link s.linkValue).transfer taken target) st)

/-- A linking transfer with a form that has no meaning (R129, R136, R137). -/
theorem checkedLink_sameButStatus (c : Prop) [Decidable c] (f : Fault) (link : RegIdx) (taken : Bool) (target : Word) :
    SameButStatus (unlessInSlot s (if c then .fault f else linkAndBranch link taken target s))
      (unlessInSlot (s.withStatus st) (if c then .fault f else linkAndBranch link taken target (s.withStatus st))) :=
  unlessInSlot_sameButStatus s st
    (ite_sameButStatus c (fault_sameButStatus f _) (linkAndBranch_sameButStatus s st link taken target))

/-- After its access a load or a store does the same. -/
theorem afterAccess_sameButStatus {finish : Word → State → State}
    (same : ∀ v t, finish v (State.withStatus t st) = (finish v t).withStatus st) (access : Access) :
    SameButStatus (afterAccess finish access) (afterAccess finish (access.withStatus st)) := by
  cases access with
  | busError t => exact next_sameButStatus (t.enter .dbe) st.push
  | ok v t =>
    show SameButStatus _ (.next (finish v (t.withStatus st)).advance)
    rw [same]
    exact advance_sameButStatus (finish v t) st

theorem loadAligned_sameButStatus (w : Width) (extend : Word → Word) (rt : RegIdx) (ea : Word) :
    SameButStatus (loadAligned w extend rt ea s) (loadAligned w extend rt ea (s.withStatus st)) := by
  by_cases al : ea.toNat % bytesOf w = 0
  · rw [loadAligned_of_aligned al, loadAligned_of_aligned al, memRead_withStatus]
    exact afterAccess_sameButStatus st (fun _ _ => rfl) _
  · rw [loadAligned_of_misaligned al, loadAligned_of_misaligned al]
    exact raise_sameButStatus s st _

theorem loadMerged_sameButStatus (merge : Word → Word) (rt : RegIdx) (ea : Word) :
    SameButStatus (loadMerged merge rt ea s) (loadMerged merge rt ea (s.withStatus st)) := by
  rw [loadMerged_eq, loadMerged_eq, memRead_withStatus]
  exact afterAccess_sameButStatus st (finish := loadInto rt merge) (fun _ _ => rfl) _

theorem storeAligned_sameButStatus (w : Width) (v ea : Word) :
    SameButStatus (storeAligned w v ea s) (storeAligned w v ea (s.withStatus st)) := by
  by_cases al : ea.toNat % bytesOf w = 0
  · rw [storeAligned_of_aligned al, storeAligned_of_aligned al, memWrite_withStatus]
    exact afterAccess_sameButStatus st (fun _ _ => rfl) _
  · rw [storeAligned_of_misaligned al, storeAligned_of_misaligned al]
    exact raise_sameButStatus s st _

theorem storePart_sameButStatus (a : Word) (bs : List Byte) :
    SameButStatus (storePart a bs s) (storePart a bs (s.withStatus st)) := by
  unfold storePart
  rw [State.withStatus_par]
  cases resolve s.par.regionMap (wordBase a) with
  | none => exact raise_sameButStatus s st .dbe
  | some r =>
    dsimp only
    cases r.kind with
    | ram => exact advance_sameButStatus (s.storeRam a.toNat bs) st
    | rom => exact raise_sameButStatus s st .dbe
    | device | coprocLocal => exact fault_sameButStatus _ _

end Shapes

/-! ## Status changes no behaviour: every instruction -/

section Exec

variable (rt : RegIdx) (imm : BitVec 16) (rs : RegIdx) (s : State) (st : Status)

theorem exec_swl_sameButStatus : SameButStatus (exec (.swl rt imm rs) s) (exec (.swl rt imm rs) (s.withStatus st)) :=
  ite_sameButStatus _ (storeAligned_sameButStatus s st .word (s.reg rt) _) (storePart_sameButStatus s st _ _)

theorem exec_swr_sameButStatus : SameButStatus (exec (.swr rt imm rs) s) (exec (.swr rt imm rs) (s.withStatus st)) :=
  ite_sameButStatus _ (storeAligned_sameButStatus s st .word (s.reg rt) _) (storePart_sameButStatus s st _ _)

theorem exec_ll_sameButStatus : SameButStatus (exec (.ll rt imm rs) s) (exec (.ll rt imm rs) (s.withStatus st)) := by
  by_cases al : (s.ea rs imm).toNat % 4 = 0
  · rw [exec_ll_of_aligned rt rs imm s al, exec_ll_of_aligned rt rs imm (s.withStatus st) al, memRead_withStatus]
    exact afterAccess_sameButStatus st (fun _ _ => rfl) _
  · rw [exec_ll_of_misaligned rt rs imm s al, exec_ll_of_misaligned rt rs imm (s.withStatus st) al]
    exact raise_sameButStatus s st _

/-- SC's success is decided, and drawn, alike. -/
theorem scSuccess_withStatus (ea : Word) :
    (s.withStatus st).scSuccess ea = ((s.scSuccess ea).1, (s.scSuccess ea).2.withStatus st) := by
  cases held : s.llbit with
  | false => rw [scSuccess_of_no_reservation held, scSuccess_of_no_reservation (s := s.withStatus st) held]
  | true =>
    by_cases own : ea = s.llAddr ∧ s.llForeign = false
    · rw [scSuccess_of_match held own.1 own.2, scSuccess_of_match (s := s.withStatus st) held own.1 own.2]
    · rw [scSuccess_of_mismatch held own, scSuccess_of_mismatch (s := s.withStatus st) held own]
      rfl

theorem exec_sc_sameButStatus : SameButStatus (exec (.sc rt imm rs) s) (exec (.sc rt imm rs) (s.withStatus st)) := by
  by_cases al : (s.ea rs imm).toNat % 4 = 0
  · rw [exec_sc_of_aligned rt rs imm s al,
      exec_sc_of_success rt rs imm (s.withStatus st) al (scSuccess_withStatus s st _)]
    refine ite_sameButStatus _ ?_ (advance_sameButStatus ((s.scSuccess _).2.conclude rt false) st)
    rw [scStore, scStore, memWrite_withStatus]
    exact afterAccess_sameButStatus st (fun _ _ => rfl) _
  · rw [exec_sc_of_misaligned rt rs imm s al, exec_sc_of_misaligned rt rs imm (s.withStatus st) al]
    exact raise_sameButStatus s st _

variable {n : RegIdx}

theorem exec_mfc0_sameButStatus (other : n ≠ 12#5) :
    SameButStatus (exec (.mfc0 rt n) s) (exec (.mfc0 rt n) (s.withStatus st)) := by
  have same : (s.withStatus st).cp0Read n = s.cp0Read n := by
    rw [State.cp0Read, State.cp0Read, if_neg other, if_neg other]
    rfl
  cases read : s.cp0Read n with
  | none =>
    rw [exec_mfc0, execMfc0, read]
    exact fault_sameButStatus _ _
  | some v =>
    rw [exec_mfc0_of_some rt read, exec_mfc0_of_some rt (same.trans read)]
    exact writeResult_sameButStatus s st rt v

theorem cp0Write_withStatus {t : State} {v : Word} (h : s.cp0Write n v = some t) :
    ∃ st', (s.withStatus st).cp0Write n v = some (t.withStatus st') := by
  unfold State.cp0Write at h ⊢
  split_ifs at h ⊢ with status cause epc badVAddr prid <;> cases h <;> exact ⟨_, rfl⟩

theorem exec_mtc0_sameButStatus : SameButStatus (exec (.mtc0 rt n) s) (exec (.mtc0 rt n) (s.withStatus st)) := by
  cases write : s.cp0Write n (s.reg rt) with
  | none =>
    rw [exec_mtc0, execMtc0, write]
    exact fault_sameButStatus _ _
  | some t =>
    obtain ⟨st', write'⟩ := cp0Write_withStatus s st write
    rw [exec_mtc0_of_some rt write, exec_mtc0_of_some rt write']
    exact advance_sameButStatus t st'

end Exec

theorem exec_sameButStatus {i : Instr} (noRead : ∀ rt, i ≠ .mfc0 rt 12#5) (s : State) (st : Status) :
    SameButStatus (exec i s) (exec i (s.withStatus st)) := by
  cases i with
  | add _ _ _ | sub _ _ _ | addi _ _ _ => exact writeOrOverflow_sameButStatus s st _ _
  | addu _ _ _ | subu _ _ _ | and _ _ _ | or _ _ _ | xor _ _ _ | nor _ _ _ | slt _ _ _ | sltu _ _ _ | addiu _ _ _
  | slti _ _ _ | sltiu _ _ _ | andi _ _ _ | ori _ _ _ | xori _ _ _ | lui _ _ | sll _ _ _ | srl _ _ _ | sra _ _ _
  | sllv _ _ _ | srlv _ _ _ | srav _ _ _ | mfhi _ | mflo _ => exact writeResult_sameButStatus s st _ _
  | mult _ _ | multu _ _ | div _ _ | divu _ _ | mthi _ | mtlo _ => exact writeHiLo_sameButStatus s st _
  | j _ | jr _ | beq _ _ _ | bne _ _ _ | blez _ _ | bgtz _ _ | bltz _ _ | bgez _ _ =>
    exact branchWhen_sameButStatus s st _ _
  | jal _ => exact linkAndBranch_sameButStatus s st ra _ _
  | jalr rd _ => exact checkedLink_sameButStatus s st _ _ rd _ _
  | bltzal _ _ | bgezal _ _ => exact checkedLink_sameButStatus s st _ _ ra _ _
  | lb rt _ _ | lbu rt _ _ => exact loadAligned_sameButStatus s st .byte _ rt _
  | lh rt _ _ | lhu rt _ _ => exact loadAligned_sameButStatus s st .half _ rt _
  | lw rt _ _ => exact loadAligned_sameButStatus s st .word _ rt _
  | lwl rt _ _ | lwr rt _ _ => exact loadMerged_sameButStatus s st _ rt _
  | sb rt _ _ => exact storeAligned_sameButStatus s st .byte (s.reg rt) _
  | sh rt _ _ => exact storeAligned_sameButStatus s st .half (s.reg rt) _
  | sw rt _ _ => exact storeAligned_sameButStatus s st .word (s.reg rt) _
  | swl rt imm rs => exact exec_swl_sameButStatus rt imm rs s st
  | swr rt imm rs => exact exec_swr_sameButStatus rt imm rs s st
  | ll rt imm rs => exact exec_ll_sameButStatus rt imm rs s st
  | sc rt imm rs => exact exec_sc_sameButStatus rt imm rs s st
  | sync _ => exact advance_sameButStatus s st
  | syscall _ | brk _ | cop1 | cop2 | cop3 | lwc1 | lwc2 | lwc3 | ldc1 | ldc2 | ldc3 | swc1 | swc2 | swc3 | sdc1 | sdc2
  | sdc3 => exact raise_sameButStatus s st _
  | tge _ _ _ | tgeu _ _ _ | tlt _ _ _ | tltu _ _ _ | teq _ _ _ | tne _ _ _ | tgei _ _ | tgeiu _ _ | tlti _ _
  | tltiu _ _ | teqi _ _ | tnei _ _ => exact trapWhen_sameButStatus s st _
  | mfc0 rt n =>
    refine exec_mfc0_sameButStatus rt s st ?_
    rintro rfl
    exact noRead rt rfl
  | mtc0 rt n => exact exec_mtc0_sameButStatus rt s st
  | rfe => exact next_sameButStatus s.returnFromException.advance st.pop

/-- Settles O52: no shape reads Status but its own push, pop, write or read of it, and neither a device nor an access
looks at it. -/
theorem statusChangesNoBehaviour : Obligations.StatusChangesNoBehaviour := by
  intro i s t other noRead h
  obtain ⟨st, same⟩ := exec_sameButStatus noRead s other t h
  exact ⟨t.withStatus st, same, rfl⟩

/-! ## What a DMA request copies (R194) -/

/-- The ranges of R194: the main-memory bytes in one direct region, RAM only to write it, and the local bytes in the
local memory. -/
theorem dmaInRange_iff (s : State) (dir : DmaDir) (main loc len : Nat) :
    s.dmaInRange dir main loc len = true ↔
      (∃ r ∈ s.par.regionMap, r.base.toNat ≤ main ∧ main + len ≤ r.base.toNat + r.size ∧
        (r.kind = .ram ∨ r.kind = .rom ∧ dir = .mainToLocal)) ∧ loc + len ≤ s.vcop.localSize := by
  rw [State.dmaInRange, Bool.and_eq_true, State.dmaMainInRange, List.any_eq_true]
  refine and_congr (exists_congr fun r => and_congr_right fun _ => ?_) decide_eq_true_iff
  rw [Bool.and_eq_true, Bool.and_eq_true, decide_eq_true_iff, decide_eq_true_iff, and_assoc]
  refine and_congr_right fun _ => and_congr_right fun _ => ?_
  cases r.kind <;> simp

theorem mainBytes_getElem? (s : State) (a n i : Nat) :
    (s.mainBytes a n)[i]? = if i < n then some (s.mainByte (a + i)) else none := by
  induction n generalizing a i with
  | zero => simp [State.mainBytes]
  | succ n ih =>
    cases i with
    | zero => simp [State.mainBytes]
    | succ i => simp [State.mainBytes, ih, Nat.add_assoc, Nat.add_comm 1 i]

section MainByte

variable {s : State} {a : Nat} {r : Region} (hr : resolve s.par.regionMap (BitVec.ofNat 32 a) = some r)
include hr

theorem mainByte_ram (hk : r.kind = .ram) : s.mainByte a = Memory.read s.mem a := by
  simp [State.mainByte, hr, hk]

theorem mainByte_rom (hk : r.kind = .rom) (inside : a - r.base.toNat < s.rom.size) :
    s.mainByte a = Memory.read s.rom.cells (a - r.base.toNat) := by
  simp [State.mainByte, hr, hk, inside]

end MainByte

/-- A byte of a canonical store after consecutive bytes were written over it. -/
theorem read_writeBytes_inside {bound : Nat} {m : ByteStore} (canonical : Memory.canonicalFrom bound 0 m = true)
    {a : Nat} {bs : List Byte} (fits : a + bs.length ≤ bound) {j : Nat} {b : Byte} (hb : bs[j]? = some b) :
    Memory.read (Memory.writeBytes m a bs) (a + j) = b := by
  rw [Memory.read_writeBytes canonical a bs fits, if_pos (Nat.le_add_right a j), Nat.add_sub_cancel_left, hb]
  rfl

section MainToLocal

variable {s : State} {main loc len : Nat} (inRange : s.dmaInRange .mainToLocal main loc len = true)
include inRange

theorem dma_mainToLocal_copies (inv : Inv s) {j : Nat} (hj : j < len) :
    Memory.read (s.dma .mainToLocal main loc len).vcop.localMem (loc + j) = s.mainByte (main + j) := by
  obtain ⟨_, fits⟩ := (dmaInRange_iff s .mainToLocal main loc len).1 inRange
  rw [dma_mainToLocal inRange]
  refine read_writeBytes_inside inv.local_canonical ?_ ?_
  · rwa [State.mainBytes_length]
  · rw [mainBytes_getElem?, if_pos hj]

theorem dma_mainToLocal_outside {x : Nat} (outside : x < loc ∨ loc + len ≤ x) :
    Memory.read (s.dma .mainToLocal main loc len).vcop.localMem x = Memory.read s.vcop.localMem x := by
  rw [dma_mainToLocal inRange]
  exact Memory.read_writeBytes_outside _ _ (by rwa [State.mainBytes_length])

/-- The copy is foreign to a reservation that lies in a window of the bytes written (R155; log 19). -/
theorem dma_mainToLocal_foreign :
    (s.dma .mainToLocal main loc len).llForeign = true ↔
      s.llForeign = true ∨ ∃ r, resolve s.par.regionMap s.llAddr = some r ∧ r.kind = .coprocLocal ∧ 0 < len ∧
        loc < offsetIn r s.llAddr + 4 ∧ offsetIn r s.llAddr < loc + len := by
  rw [dma_mainToLocal inRange, State.setDmaError_llForeign, State.foreignLocal_llForeign, Bool.or_eq_true,
    reservesLocal_iff, State.mainBytes_length]

end MainToLocal

section LocalToMain

variable {s : State} {main loc len : Nat} (inRange : s.dmaInRange .localToMain main loc len = true)
include inRange

theorem dma_localToMain_copies (inv : Inv s) {j : Nat} (hj : j < len) :
    Memory.read (s.dma .localToMain main loc len).mem (main + j) = Memory.read s.vcop.localMem (loc + j) := by
  obtain ⟨⟨r, hr, _, fits, _⟩, _⟩ := (dmaInRange_iff s .localToMain main loc len).1 inRange
  obtain ⟨_, _, _, below⟩ := (regionOk_iff r).1 (mapOk_mem inv.map_ok hr)
  rw [dma_localToMain inRange]
  refine read_writeBytes_inside inv.mem_canonical ?_ ?_
  · rw [Memory.readBytes_length]; exact fits.trans below
  · rw [Memory.readBytes_getElem?, if_pos hj]

theorem dma_localToMain_outside {x : Nat} (outside : x < main ∨ main + len ≤ x) :
    Memory.read (s.dma .localToMain main loc len).mem x = Memory.read s.mem x := by
  rw [dma_localToMain inRange]
  exact Memory.read_writeBytes_outside _ _ (by rwa [Memory.readBytes_length])

/-- The copy is foreign to a reservation of a word that it writes (R155; log 19). -/
theorem dma_localToMain_foreign :
    (s.dma .localToMain main loc len).llForeign = true ↔
      s.llForeign = true ∨ (0 < len ∧ main < s.llAddr.toNat + 4 ∧ s.llAddr.toNat < main + len) := by
  rw [dma_localToMain inRange, State.setDmaError_llForeign, State.foreignWrite_llForeign, Bool.or_eq_true,
    Memory.readBytes_length]
  simp only [touchesWord, Bool.and_eq_true, decide_eq_true_eq, and_assoc]

end LocalToMain

/-! ## The request that a write of the DMA registers starts (R194; log 14) -/

/-- What a DMA request leaves where R194 and R155 look. -/
structure SameDma (t u : State) : Prop where
  mem : t.mem = u.mem
  localMem : t.vcop.localMem = u.vcop.localMem
  dmaError : t.vcop.dmaError = u.vcop.dmaError
  llForeign : t.llForeign = u.llForeign

theorem SameDma.trans {t u v : State} (h : SameDma t u) (k : SameDma u v) : SameDma t v where
  mem := h.mem.trans k.mem
  localMem := h.localMem.trans k.localMem
  dmaError := h.dmaError.trans k.dmaError
  llForeign := h.llForeign.trans k.llForeign

/-- A call that can start neither a run nor a request of the device leaves what DMA left. -/
theorem deviceAction_plain_sameDma (s : State) (a : DevAction) : SameDma (s.deviceAction .plain a) s := by
  rcases deviceAction_cases s .plain a with h | ⟨plain, _⟩ | ⟨run, _⟩ | ⟨run, _⟩ | ⟨_, _, h⟩
  · rw [h]; exact ⟨rfl, rfl, rfl, rfl⟩
  · exact absurd rfl plain
  · cases run
  · cases run
  · rw [h]; exact ⟨rfl, rfl, rfl, rfl⟩

theorem deviceActions_plain_sameDma (s : State) (as : List DevAction) : SameDma (s.deviceActions .plain as) s := by
  induction as generalizing s with
  | nil => exact ⟨rfl, rfl, rfl, rfl⟩
  | cons a as ih => exact (ih _).trans (deviceAction_plain_sameDma s a)

/-- The record of the call and the coprocessor's own registers have no part in a request. -/
theorem recordCall_dma_sameDma (s : State) (c : DevCall) (dir : DmaDir) (main loc len : Nat) :
    SameDma ((s.recordCall c).dma dir main loc len) (State.dma { s with draws := s.draws + 1 } dir main loc len) := by
  have same : (s.recordCall c).dmaInRange dir main loc len =
      State.dmaInRange { s with draws := s.draws + 1 } dir main loc len := rfl
  cases inRange : State.dmaInRange { s with draws := s.draws + 1 } dir main loc len with
  | false =>
    rw [dma_beyond inRange, dma_beyond (same.trans inRange)]
    exact ⟨rfl, rfl, rfl, rfl⟩
  | true =>
    cases dir with
    | mainToLocal =>
      have bytes : (s.recordCall c).mainBytes main len = State.mainBytes { s with draws := s.draws + 1 } main len :=
        mainBytes_congr (s := { s with draws := s.draws + 1 }) (t := s.recordCall c) rfl rfl rfl rfl _ _
      rw [dma_mainToLocal inRange, dma_mainToLocal (same.trans inRange), bytes]
      exact ⟨rfl, rfl, rfl, rfl⟩
    | localToMain =>
      rw [dma_localToMain inRange, dma_localToMain (same.trans inRange)]
      exact ⟨rfl, rfl, rfl, rfl⟩

section Started

variable {s : State} {c : DevCall} {l : DmaLayout} (hl : s.par.vcopRegs.dma = some l)
include hl

theorem registerDma_of_started {dir : DmaDir} (started : l.started c = some dir) :
    s.registerDma c = s.dma dir s.vcop.dmaMain s.vcop.dmaLocal (l.length s.vcop) := by
  simp [State.registerDma, hl, started]

theorem recordCall_dmaMain : (s.recordCall c).vcop.dmaMain = (l.main.written c).getD s.vcop.dmaMain := by
  simp [State.recordCall, Vcop.latchRegisters, hl, latch]

theorem recordCall_dmaLocal : (s.recordCall c).vcop.dmaLocal = (l.loc.written c).getD s.vcop.dmaLocal := by
  simp [State.recordCall, Vcop.latchRegisters, hl, latch]

/-- The blocks that the DMA registers hold once the call is taken: one, where the layout has no field for them. -/
theorem recordCall_length :
    l.length (s.recordCall c).vcop =
      (match l.count with
        | none => 1
        | some f => (f.written c).getD s.vcop.dmaCount) * l.blockSize := by
  cases hc : l.count <;> simp [DmaLayout.length, State.recordCall, Vcop.latchRegisters, hl, hc, latch]

/-- A write that starts a request, outside every window, carries out the request that the registers then hold. -/
theorem takeCall_of_started {dir : DmaDir} (started : l.started c = some dir)
    (noWindow : ∀ r, resolve s.par.regionMap c.addr = some r → r.kind ≠ .coprocLocal) :
    s.takeCall c = (s.recordCall c).dma dir (s.recordCall c).vcop.dmaMain (s.recordCall c).vcop.dmaLocal
      (l.length (s.recordCall c).vcop) := by
  have noStore : (s.recordCall c).windowStore c = s.recordCall c :=
    windowStore_of_no_window (windowAccess_of_no_window noWindow)
  rw [takeCall_eq, noStore]
  exact registerDma_of_started (s := s.recordCall c) hl started

end Started

/-- Settles O56: a request is the copy of its range or the failure bit; one started through the DMA registers is the
request that they hold once the call is taken, and where there are such registers the device itself starts none. -/
theorem dmaAllOrNothing : Obligations.DmaAllOrNothing := by
  refine ⟨fun s dir main loc len inv => ?request, fun s c reply l dir hl started noRun noWindow => ?registers⟩
  case request =>
    refine ⟨dma_sameCore s dir main loc len, ?_⟩
    rw [← dmaInRange_iff]
    refine ⟨fun beyond => ?beyond, fun inRange => ⟨?shown, ?toLocal, ?toMain⟩⟩
    case beyond =>
      rw [dma_beyond (Bool.eq_false_iff.2 beyond)]
      exact ⟨rfl, rfl, rfl⟩
    case shown =>
      cases dir with
      | mainToLocal => rw [dma_mainToLocal inRange]; rfl
      | localToMain => rw [dma_localToMain inRange]; rfl
    case toLocal =>
      rintro rfl
      refine ⟨by rw [dma_mainToLocal inRange]; rfl, fun j r hj hr => ⟨fun hk => ?_, fun hk inside => ?_⟩,
        fun x => dma_mainToLocal_outside inRange, dma_mainToLocal_foreign inRange⟩
      · rw [dma_mainToLocal_copies inRange inv hj, mainByte_ram hr hk]
      · rw [dma_mainToLocal_copies inRange inv hj, mainByte_rom hr hk inside]
    case toMain =>
      rintro rfl
      exact ⟨by rw [dma_localToMain inRange]; rfl, fun j => dma_localToMain_copies inRange inv,
        fun x => dma_localToMain_outside inRange, dma_localToMain_foreign inRange⟩
  case registers =>
    have plain : s.callRole c = .plain := callRole_of_dma_registers noRun (by rw [hl]; nofun)
    have device : SameDma (s.afterDeviceCall c reply) (s.takeCall c) := by
      rw [afterDeviceCall_of_no_run noRun, State.afterActions, plain]
      have k := deviceActions_plain_sameDma (s.takeCall c) reply.actions
      exact ⟨k.mem, k.localMem, k.dmaError, k.llForeign⟩
    have taken := takeCall_of_started hl started noWindow
    rw [recordCall_dmaMain hl, recordCall_dmaLocal hl, recordCall_length hl] at taken
    rw [taken] at device
    obtain ⟨mem, loc, error, foreign⟩ := device.trans (recordCall_dma_sameDma s c dir _ _ _)
    exact ⟨mem, loc, error, foreign⟩

end Sys2Proof.Machine

/-! 70_reset_and_hazards.md: the values at launch and the invariant there (R198), an interrupt that an MTC0 to Status
enables (R206), and the set W of self-modifying code: the fetch it stops, what enters it and what clears it (R207). -/

namespace Sys2Proof.Machine

/-! ## Launch and reset (R198) -/

/-- Settles O11: every launch is read field by field, and Cause, the registers and PRId through their accessors. -/
theorem resetState : Obligations.ResetState := by
  refine ⟨fun p i rom => ⟨rfl, rfl, rfl, Status.zero_toWord, causeWord_of_zero rfl, rfl, rfl, rfl, State.reg_zero _,
    rfl, rfl, rfl, rfl, rfl, fun r hr => ?registers⟩, rfl⟩
  case registers => exact reg_of_gpr_set_zero rfl hr

/-- At launch no transfer is pending, NPC follows PC, and W and the local memory are empty. -/
theorem Inv.atLaunch {p : Params} {i : Init} {rom : Rom} (map : mapOk p.regionMap = true)
    (ram : Memory.wf i.ram = true) (cells : Memory.canonicalFrom rom.size 0 rom.cells = true) :
    Inv (State.atLaunch p i rom) where
  map_ok := map
  mem_canonical := ram
  rom_canonical := cells
  local_canonical := rfl
  zero_reg := by simp [State.atLaunch]
  taken_in_slot := nofun
  npc_follows := fun _ => rfl
  coherent_has_no_w := fun _ => rfl

/-- Settles O54: the reset state is the launch with the default map, which is sound, and with nothing stored. -/
theorem invariantAtReset : Obligations.InvariantAtReset :=
  ⟨Inv.atLaunch (by decide) rfl rfl, fun _ _ _ => Inv.atLaunch⟩

/-! ## MTC0 to Status (R206) -/

/-- The interrupts pending after a word was written to Status are those that the word enables. -/
theorem interruptPending_withStatus_advance (s : State) (v : Word) :
    (s.withStatus (Status.ofWord v)).advance.interruptPending = true ↔
      v.getLsbD 0 = true ∧ (s.causeWord.extractLsb' 8 8 &&& v.extractLsb' 8 8) ≠ 0#8 := by
  have enable : (Status.ofWord v).toWord.getLsbD 0 = v.getLsbD 0 := by simp [Status.ofWord_toWord]
  rw [interruptPending_iff, State.advance_status]
  show (Status.ofWord v).toWord.getLsbD 0 = true ∧
    (s.causeWord.extractLsb' 8 8 &&& (Status.ofWord v).toWord.extractLsb' 8 8) ≠ 0#8 ↔ _
  rw [enable, Status.toWord_im, Status.ofWord]

/-- Settles O46: the sequencing after MTC0 leaves no delay slot and leaves Cause as it was, so the next step samples the
interrupt that the word written enables, and its victim is the instruction at PC. -/
theorem mtc0EnablesInterruptAtOnce : Obligations.Mtc0EnablesInterruptAtOnce := by
  intro s rt run enable unmasked
  have written : exec (.mtc0 rt 12#5) s = .next (s.withStatus (Status.ofWord (s.reg rt))).advance :=
    exec_mtc0_of_some rt rfl
  have pending := (interruptPending_withStatus_advance s (s.reg rt)).2 ⟨enable, unmasked⟩
  refine ⟨_, _, written, step_of_interrupt run pending, ?epc, State.causeWord_bd _, State.causeWord_excCode _, rfl⟩
  case epc => rw [State.enter_epc, State.victim_of_not_slot (State.advance_delay _), State.advance_pc]; rfl

/-! ## The fetch of a word in W (R207) -/

theorem fetchIsStale_iff (s : State) :
    s.fetchIsStale = true ↔ s.par.smcMode = .refuse ∧ s.pc.toNat ∈ s.smcW := by
  simp [State.fetchIsStale]

theorem fetch_of_stale {s : State} (al : alignedTo s.pc .word = true) (stale : s.fetchIsStale = true) :
    fetch s = .stale := by
  simp [fetch, al, stale]

/-- Only a word in W makes a fetch answer `stale`. -/
theorem fetchIsStale_of_fetch {s : State} (h : fetch s = .stale) : s.fetchIsStale = true := by
  unfold fetch at h
  split at h
  · split at h
    · next stale => exact stale
    · split at h <;> cases h
  · cases h

theorem step_of_fetch_stale {s : State} (run : s.run = .running) (noInt : s.interruptPending = false)
    (h : fetch s = .stale) : step s = .fault (.unpredictable .staleCode) := by
  simp [step, run, stepRunning, noInt, h]

/-- The check of W stands in the fetch alone: no instruction stops with its reason. -/
theorem exec_ne_staleCode (i : Instr) (s : State) : exec i s ≠ .fault (.unpredictable .staleCode) := by
  intro h
  have k := exec_cases i s
  rw [h] at k
  cases k with
  | stop _ other => exact other rfl

theorem execWord_ne_staleCode (w : Word) (s : State) : execWord w s ≠ .fault (.unpredictable .staleCode) := by
  unfold execWord
  split
  · exact exec_ne_staleCode _ s
  · nofun
  · nofun

theorem takeException_ne_staleCode (e : Exn) (atFetch : Bool) (s : State) :
    takeException e atFetch s ≠ .fault (.unpredictable .staleCode) := by
  rcases takeException_cases e atFetch s with ⟨_, _, h⟩ | ⟨_, h⟩ <;> rw [h] <;> nofun

/-- A step that stops for stale code stopped at its fetch. -/
theorem fetch_of_step_staleCode {s : State} (h : step s = .fault (.unpredictable .staleCode)) : fetch s = .stale := by
  unfold step stepRunning at h
  split at h
  · cases h
  · split at h
    · exact absurd h (takeException_ne_staleCode _ _ _)
    · split at h
      · next stale => exact stale
      · exact absurd h (takeException_ne_staleCode _ _ _)
      · exact absurd h (execWord_ne_staleCode _ _)

/-! ## What enters W (R207) -/

/-- The words that one or more bytes touch are those that overlap them. -/
theorem mem_wordsTouched_of_pos {a n : Nat} (pos : 0 < n) (x : Nat) :
    x ∈ wordsTouched a n ↔ x % 4 = 0 ∧ a < x + 4 ∧ x < a + n := by
  rw [mem_wordsTouched]
  refine and_congr_right fun _ => ⟨?_, fun ⟨below, above⟩ => ⟨x - a, ?_⟩⟩
  · rintro ⟨j, hj, first, last⟩
    omega
  · omega

theorem mem_smcW_storeRam {s : State} {bs : List Byte} (refuse : s.par.smcMode = .refuse) (nonempty : bs ≠ [])
    (a x : Nat) :
    x ∈ (s.storeRam a bs).smcW ↔ x ∈ s.smcW ∨ (x % 4 = 0 ∧ a < x + 4 ∧ x < a + bs.length) := by
  rw [← mem_wordsTouched_of_pos (List.length_pos_iff.2 nonempty)]
  exact mem_smcW_markWords (s := { s with mem := Memory.writeBytes s.mem a bs }) refuse _ x

theorem mem_smcW_storeLocal {s : State} (refuse : s.par.smcMode = .refuse) (loc : Nat) (bs : List Byte) (x : Nat) :
    x ∈ (s.storeLocal loc bs).smcW ↔ x ∈ s.smcW ∨ x ∈ windowWords s.par.regionMap loc bs.length :=
  mem_smcW_markWords (s := { s with vcop := { s.vcop with localMem := Memory.writeBytes s.vcop.localMem loc bs } })
    refuse _ x

/-- Settles O60: the fetch is the only place of the check; a store marks the words it touches or that show it in a
window; an entry empties W, and the sequencing does so exactly when a taken transfer is pending. -/
theorem staleCodeRefused : Obligations.StaleCodeRefused := by
  refine ⟨fun s run noInt align refuse inW => ?refuse, fun s coherent h => ?coherent,
    fun s a bs x refuse nonempty => mem_smcW_storeRam refuse nonempty a x, fun s loc bs x refuse => ?window,
    State.enter_smcW, fun s taken target => ⟨fun pending => ?emptied, fun quiet => ?kept⟩⟩
  case refuse =>
    have stale := (fetchIsStale_iff s).2 ⟨refuse, inW⟩
    exact step_of_fetch_stale run noInt (fetch_of_stale ((alignedTo_iff s.pc .word).2 align) stale)
  case coherent =>
    obtain ⟨refuse, _⟩ := (fetchIsStale_iff s).1 (fetchIsStale_of_fetch (fetch_of_step_staleCode h))
    exact absurd (coherent.symm.trans refuse) nofun
  case window => rw [mem_smcW_storeLocal refuse, mem_windowWords]
  case emptied => exact ⟨if_pos pending, if_pos pending⟩
  case kept => simp [quiet]

end Sys2Proof.Machine
